-- ==== Sys2Proof/Word.lean ====
section
/-! DEFINITION. The word type of the HMMM execution core (spec/00_scope.md R7, R10): 16-bit words and
register values, the sixteen register numbers, breakpoint ids. -/

namespace Sys2Proof

/-- A `u16`: an instruction word, a memory word, a register value, a `pc` value (R7, R10, R26). -/
abbrev Word := BitVec 16

/-- A register number 0 to 15, the value of a 4-bit register field (R20, R83). -/
abbrev Reg := Fin 16

/-- A breakpoint id: an opaque number the host assigns and the core only copies (R234, D25). -/
abbrev BpId := Nat

end Sys2Proof
end

