-- ==== Sys2Proof/Config.lean ====
section
/-! DEFINITION. What is fixed for this hardware (spec/00_scope.md R7): the memory size, the canonical mnemonics of
the opcode table (spec/30_encoding.md R95), and the values the model names where the spec leaves a launch parameter
open (INIT_REGS, INIT_MEM: R8, D2, D3), and the one point on which two of its rules disagree (`Config.hostTableHolds`). The
spec leaves no result of an instruction open. -/

namespace Sys2Proof

/-- The number of memory words, addresses 0 to 255 (R7, R30, R50). -/
abbrev Config.memWords : Nat := 256

/-- What a memory word that nothing has written reads as. DESIGN CHOICE, unsafe (notes/assumptions/2.md): the spec
leaves INIT_MEM open (R30, D3); zero is the premise of its test vectors. `configure` takes INIT_MEM as an argument. -/
abbrev Config.unlistedWord : Word := 0

/-- What r1 to r15 hold at `State.reset`. DESIGN CHOICE, unsafe (notes/assumptions/3.md): the spec leaves INIT_REGS
open (R25, D2); zero is the premise of its test vectors. `configure` takes INIT_REGS as an argument. -/
abbrev Config.resetRegister : Word := 0

/-- Whether the "allowed in" column of R255 holds where the prose of R254 says otherwise: `configure`, the breakpoint
operations and the get operations in AwaitingInput (R254: input only), and the last two in Halted (R254: configure only).
FREE VALUE: the spec states both and decides neither; nothing can be proved of it (DESIGN CHOICE, safe:
notes/assumptions/7.md). -/
opaque Config.hostTableHolds : Bool

/-- The canonical mnemonics, in the order of the opcode table (R95). The step filter is one of them (R44). -/
inductive Mnemonic where
  | halt | read | write | jumpr | setn | loadn | storen | loadr | storer | popr | pushr | addn | nop
  | copy | add | neg | sub | mul | div | mod | jumpn | calln | jeqzn | jnezn | jgtzn | jltzn
  deriving DecidableEq, Repr

/-- All 26 canonical mnemonics, in the order of the opcode table (R95). -/
def Mnemonic.all : List Mnemonic :=
  [.halt, .read, .write, .jumpr, .setn, .loadn, .storen, .loadr, .storer, .popr, .pushr, .addn, .nop] ++
  [.copy, .add, .neg, .sub, .mul, .div, .mod, .jumpn, .calln, .jeqzn, .jnezn, .jgtzn, .jltzn]

end Sys2Proof
end

