-- ==== Sys2Proof/Syntax.lean ====
section
/-! DEFINITION. The instructions of the HMMM execution core, one constructor per row of spec/opcode_table.json
(spec/30_encoding.md R95), and the canonical mnemonic of each. -/

namespace Sys2Proof

/-- An instruction with its operand values (R92): register numbers, a signed number as an integer, an unsigned
number as a natural number. The ranges of the numbers are checked in `Instr.wf`. -/
inductive Instr where
  /-- `halt` (R190). -/
  | halt
  /-- `read rX` (R192). -/
  | read (x : Reg)
  /-- `write rX` (R194). -/
  | write (x : Reg)
  /-- `jumpr rX` (R172). -/
  | jumpr (x : Reg)
  /-- `setn rX N`, N signed (R140). -/
  | setn (x : Reg) (n : Int)
  /-- `loadn rX N`, N unsigned (R151). -/
  | loadn (x : Reg) (n : Nat)
  /-- `storen rX N`, N unsigned (R152). -/
  | storen (x : Reg) (n : Nat)
  /-- `loadr rX rY` (R153). -/
  | loadr (x y : Reg)
  /-- `storer rX rY` (R154). -/
  | storer (x y : Reg)
  /-- `popr rX rY` (R156). -/
  | popr (x y : Reg)
  /-- `pushr rX rY` (R155). -/
  | pushr (x y : Reg)
  /-- `addn rX N`, N signed (R141). -/
  | addn (x : Reg) (n : Int)
  /-- `nop` (R191). -/
  | nop
  /-- `copy rX rY` (R132). -/
  | copy (x y : Reg)
  /-- `add rX rY rZ` (R126). -/
  | add (x y z : Reg)
  /-- `neg rX rZ`, the source register in field Z (R131, R106). -/
  | neg (x z : Reg)
  /-- `sub rX rY rZ` (R127). -/
  | sub (x y z : Reg)
  /-- `mul rX rY rZ` (R128). -/
  | mul (x y z : Reg)
  /-- `div rX rY rZ` (R129). -/
  | div (x y z : Reg)
  /-- `mod rX rY rZ` (R130). -/
  | mod (x y z : Reg)
  /-- `jumpn N`, N unsigned (R171). -/
  | jumpn (n : Nat)
  /-- `calln rX N`, N unsigned (R177). -/
  | calln (x : Reg) (n : Nat)
  /-- `jeqzn rX N`, N unsigned (R173). -/
  | jeqzn (x : Reg) (n : Nat)
  /-- `jnezn rX N`, N unsigned (R174). -/
  | jnezn (x : Reg) (n : Nat)
  /-- `jgtzn rX N`, N unsigned (R175). -/
  | jgtzn (x : Reg) (n : Nat)
  /-- `jltzn rX N`, N unsigned (R176). -/
  | jltzn (x : Reg) (n : Nat)
  deriving DecidableEq, Repr

/-- The canonical mnemonic of an instruction (R81, R95). -/
def Instr.mnemonic : Instr → Mnemonic
  | .halt => .halt
  | .read _ => .read
  | .write _ => .write
  | .jumpr _ => .jumpr
  | .setn _ _ => .setn
  | .loadn _ _ => .loadn
  | .storen _ _ => .storen
  | .loadr _ _ => .loadr
  | .storer _ _ => .storer
  | .popr _ _ => .popr
  | .pushr _ _ => .pushr
  | .addn _ _ => .addn
  | .nop => .nop
  | .copy _ _ => .copy
  | .add _ _ _ => .add
  | .neg _ _ => .neg
  | .sub _ _ _ => .sub
  | .mul _ _ _ => .mul
  | .div _ _ _ => .div
  | .mod _ _ _ => .mod
  | .jumpn _ => .jumpn
  | .calln _ _ => .calln
  | .jeqzn _ _ => .jeqzn
  | .jnezn _ _ => .jnezn
  | .jgtzn _ _ => .jgtzn
  | .jltzn _ _ => .jltzn

end Sys2Proof
end

