-- ==== Sys2Proof/WellFormed.lean ====
section
/-! DEFINITION. Which instruction terms have operand values an 8-bit number field can hold (spec/30_encoding.md R90,
R103, R104). Register operands need no check: every register number names a register (R89). -/

namespace Sys2Proof

/-- A signed-8-bit-number operand is in [-128, 127] (R90, R104). -/
def signedInRange (n : Int) : Bool := decide (-128 ≤ n) && decide (n ≤ 127)

/-- An unsigned-8-bit-number operand is in [0, 255] (R90, R104). -/
def unsignedInRange (n : Nat) : Bool := decide (n ≤ 255)

/-- The instruction's numeric operand, if it has one, is in the range of its slot's type (R90, R95, R104). -/
def Instr.wf : Instr → Bool
  | .halt => true
  | .read _ => true
  | .write _ => true
  | .jumpr _ => true
  | .setn _ n => signedInRange n
  | .loadn _ n => unsignedInRange n
  | .storen _ n => unsignedInRange n
  | .loadr _ _ => true
  | .storer _ _ => true
  | .popr _ _ => true
  | .pushr _ _ => true
  | .addn _ n => signedInRange n
  | .nop => true
  | .copy _ _ => true
  | .add _ _ _ => true
  | .neg _ _ => true
  | .sub _ _ _ => true
  | .mul _ _ _ => true
  | .div _ _ _ => true
  | .mod _ _ _ => true
  | .jumpn n => unsignedInRange n
  | .calln _ n => unsignedInRange n
  | .jeqzn _ n => unsignedInRange n
  | .jnezn _ n => unsignedInRange n
  | .jgtzn _ n => unsignedInRange n
  | .jltzn _ n => unsignedInRange n

end Sys2Proof
end

