-- ==== Sys2Proof/Decode.lean ====
section
/-! DEFINITION. The decoder and the encoder of spec/30_encoding.md: instruction definitions with derived masks (R81 to
R84), matching and the tie-break by the larger mask (R85 to R88), operand extraction (R89 to R91), the opcode table
(R95), the encoder (R94), and the number readings of spec/00_scope.md R10. -/

namespace Sys2Proof

/-! ### Number readings (R10) -/

/-- `u16(i)`: an integer modulo 65536, never negative (R10). -/
def u16 (i : Int) : Word := BitVec.ofInt 16 i

/-- `s16(v)`: the signed reading of a `u16` (R10). -/
def s16 (v : Word) : Int := if v.toNat < 32768 then (v.toNat : Int) else (v.toNat : Int) - 65536

/-- `sext_8(b)`: an 8-bit field read as two's complement, in [-128, 127] (R10, R90). -/
def sext8 (b : BitVec 8) : Int := if b.toNat < 128 then (b.toNat : Int) else (b.toNat : Int) - 256

/-- `zext_8(b)`: an 8-bit field read unsigned, in [0, 255] (R10, R90). -/
def zext8 (b : BitVec 8) : Int := (b.toNat : Int)

/-! ### The fields of a word (R83, R89) -/

/-- Field X, `word[11:8]`, the register operand of slot 1. -/
def fieldX (w : Word) : Reg := (w.extractLsb' 8 4).toFin

/-- Field Y, `word[7:4]`, the register operand of slot 2. -/
def fieldY (w : Word) : Reg := (w.extractLsb' 4 4).toFin

/-- Field Z, `word[3:0]`, the register operand of slot 3. -/
def fieldZ (w : Word) : Reg := (w.extractLsb' 0 4).toFin

/-- Field N, `word[7:0]`, the numeric operand whichever slot declares it (C1). -/
def fieldN (w : Word) : BitVec 8 := w.extractLsb' 0 8

/-! ### Instruction definitions and the opcode table (R81, R82, R95) -/

/-- What an operand slot of a definition holds (R81). -/
inductive Slot where
  /-- No operand. -/
  | absent
  /-- A register, in the slot's own 4-bit field. -/
  | register
  /-- A signed-8-bit-number, in field N. -/
  | signed8
  /-- An unsigned-8-bit-number, in field N. -/
  | unsigned8
  deriving DecidableEq, Repr

/-- A slot that holds a number (R81, R82). -/
def Slot.numeric : Slot → Bool
  | .absent => false
  | .register => false
  | .signed8 => true
  | .unsigned8 => true

/-- An instruction definition (R81). The mask is derived, never stored (R84). -/
structure InstrDef where
  /-- The canonical mnemonic. -/
  name : Mnemonic
  /-- The template word; its operand bits are 0. -/
  opcode : Word
  slot1 : Slot
  slot2 : Slot
  slot3 : Slot
  deriving DecidableEq, Repr

/-- Some slot of the definition holds a number. -/
def InstrDef.hasNumber (d : InstrDef) : Bool := d.slot1.numeric || d.slot2.numeric || d.slot3.numeric

/-- The slot invariant (R82): at most two numeric slots, a third slot only a register, and no register in slot 2 or
slot 3 beside a number. -/
def InstrDef.slotsOk (d : InstrDef) : Bool :=
  !(d.slot1.numeric && d.slot2.numeric && d.slot3.numeric) && !d.slot3.numeric &&
    !(d.hasNumber && (decide (d.slot2 = .register) || decide (d.slot3 = .register)))

/-- The derived mask of a definition: a 1 for every bit that must match (R84). -/
def InstrDef.mask (d : InstrDef) : Word :=
  0xFFFF &&& (if d.slot1 = .register then 0xF0FF else 0xFFFF)
    &&& (if d.slot2 ≠ .absent ∨ d.hasNumber then 0xFF0F else 0xFFFF)
    &&& (if d.slot3 ≠ .absent ∨ d.hasNumber then 0xFFF0 else 0xFFFF)

/-- The definition matches the word: every fixed bit equals the template's (R85). -/
def InstrDef.matchesWord (d : InstrDef) (w : Word) : Bool := decide ((d.opcode ^^^ w) &&& d.mask = 0)

/-- The definition of each mnemonic: opcode constant and operand slots of the opcode table (R95). PRESUMED by the
spec itself (notes/assumptions/16.md): the constants are general knowledge there. -/
def defOf : Mnemonic → InstrDef
  | .halt => ⟨.halt, 0x0000, .absent, .absent, .absent⟩
  | .read => ⟨.read, 0x0001, .register, .absent, .absent⟩
  | .write => ⟨.write, 0x0002, .register, .absent, .absent⟩
  | .jumpr => ⟨.jumpr, 0x0003, .register, .absent, .absent⟩
  | .setn => ⟨.setn, 0x1000, .register, .signed8, .absent⟩
  | .loadn => ⟨.loadn, 0x2000, .register, .unsigned8, .absent⟩
  | .storen => ⟨.storen, 0x3000, .register, .unsigned8, .absent⟩
  | .loadr => ⟨.loadr, 0x4000, .register, .register, .absent⟩
  | .storer => ⟨.storer, 0x4001, .register, .register, .absent⟩
  | .popr => ⟨.popr, 0x4002, .register, .register, .absent⟩
  | .pushr => ⟨.pushr, 0x4003, .register, .register, .absent⟩
  | .addn => ⟨.addn, 0x5000, .register, .signed8, .absent⟩
  | .nop => ⟨.nop, 0x6000, .absent, .absent, .absent⟩
  | .copy => ⟨.copy, 0x6000, .register, .register, .absent⟩
  | .add => ⟨.add, 0x6000, .register, .register, .register⟩
  | .neg => ⟨.neg, 0x7000, .register, .absent, .register⟩
  | .sub => ⟨.sub, 0x7000, .register, .register, .register⟩
  | .mul => ⟨.mul, 0x8000, .register, .register, .register⟩
  | .div => ⟨.div, 0x9000, .register, .register, .register⟩
  | .mod => ⟨.mod, 0xA000, .register, .register, .register⟩
  | .jumpn => ⟨.jumpn, 0xB000, .unsigned8, .absent, .absent⟩
  | .calln => ⟨.calln, 0xB000, .register, .unsigned8, .absent⟩
  | .jeqzn => ⟨.jeqzn, 0xC000, .register, .unsigned8, .absent⟩
  | .jnezn => ⟨.jnezn, 0xD000, .register, .unsigned8, .absent⟩
  | .jgtzn => ⟨.jgtzn, 0xE000, .register, .unsigned8, .absent⟩
  | .jltzn => ⟨.jltzn, 0xF000, .register, .unsigned8, .absent⟩

/-- The opcode table, row by row (R95). -/
def opcodeTable : List InstrDef := Mnemonic.all.map defOf

/-! ### Decoding (R85 to R92) -/

/-- Why a word does not decode. -/
inductive DecodeError where
  /-- No definition matches: the word is invalid (R88). -/
  | noMatch
  /-- Two matching definitions share the largest mask: the spec gives no rule, the word is refused (R87, I4). The
  opcode table admits no such word. -/
  | equalMaskTie
  /-- The selected definition has a numeric third slot: decode fails (R91, I5). The table has no such row. -/
  | numericThirdSlot
  deriving DecidableEq, Repr

/-- The definitions of a table that match a word (R85). -/
def matching (table : List InstrDef) (w : Word) : List InstrDef := table.filter (·.matchesWord w)

/-- The numerically largest mask among some definitions, as an unsigned integer (R86). -/
def largestMask (ds : List InstrDef) : Nat := ds.foldr (fun d m => max d.mask.toNat m) 0

/-- The definition a word selects in a table: the matching one with the numerically largest mask (R86, C2, C3). -/
def selectDef (table : List InstrDef) (w : Word) : Except DecodeError InstrDef :=
  match (matching table w).filter (fun d => d.mask.toNat == largestMask (matching table w)) with
  | [] => .error .noMatch
  | [d] => .ok d
  | _ :: _ :: _ => .error .equalMaskTie

/-- The numeric operand of a word, read as the definition's slot type says (R90). -/
def InstrDef.number (d : InstrDef) (w : Word) : Int :=
  if d.slot1 = .signed8 ∨ d.slot2 = .signed8 ∨ d.slot3 = .signed8 then sext8 (fieldN w) else zext8 (fieldN w)

/-- The instruction of a mnemonic with given operand values; values of slots it does not declare are dropped (R92). -/
def instrOf (m : Mnemonic) (x y z : Reg) (n : Int) : Instr :=
  match m with
  | .halt => .halt
  | .read => .read x
  | .write => .write x
  | .jumpr => .jumpr x
  | .setn => .setn x n
  | .loadn => .loadn x n.toNat
  | .storen => .storen x n.toNat
  | .loadr => .loadr x y
  | .storer => .storer x y
  | .popr => .popr x y
  | .pushr => .pushr x y
  | .addn => .addn x n
  | .nop => .nop
  | .copy => .copy x y
  | .add => .add x y z
  | .neg => .neg x z
  | .sub => .sub x y z
  | .mul => .mul x y z
  | .div => .div x y z
  | .mod => .mod x y z
  | .jumpn => .jumpn n.toNat
  | .calln => .calln x n.toNat
  | .jeqzn => .jeqzn x n.toNat
  | .jnezn => .jnezn x n.toNat
  | .jgtzn => .jgtzn x n.toNat
  | .jltzn => .jltzn x n.toNat

/-- Decoding a word with a table: select a definition, then extract its operands (R86, R89 to R92). -/
def decodeWith (table : List InstrDef) (w : Word) : Except DecodeError Instr :=
  match selectDef table w with
  | .error e => .error e
  | .ok d =>
    if d.slot3.numeric then .error .numericThirdSlot
    else .ok (instrOf d.name (fieldX w) (fieldY w) (fieldZ w) (d.number w))

/-- The decoder: combinational on one word, total, rejecting by name (R88, R92). -/
def decode (w : Word) : Except DecodeError Instr := decodeWith opcodeTable w

/-! ### Encoding (R94) -/

/-- The word of a definition with given operand values, each term present only for a slot the definition declares;
the number is stored as its 8-bit two's complement (R94, R105). -/
def encodeWith (d : InstrDef) (x y z : Reg) (n : Int) : Word :=
  d.opcode ||| (if d.slot1 = .register then BitVec.ofNat 16 x.val <<< 8 else 0)
    ||| (if d.slot2 = .register then BitVec.ofNat 16 y.val <<< 4 else 0)
    ||| (if d.slot3 = .register then BitVec.ofNat 16 z.val else 0)
    ||| (if d.hasNumber then u16 n &&& 0xFF else 0)

/-- The encoder: the one word of an instruction (R80, R94). -/
def encode : Instr → Word
  | .halt => encodeWith (defOf .halt) 0 0 0 0
  | .read x => encodeWith (defOf .read) x 0 0 0
  | .write x => encodeWith (defOf .write) x 0 0 0
  | .jumpr x => encodeWith (defOf .jumpr) x 0 0 0
  | .setn x n => encodeWith (defOf .setn) x 0 0 n
  | .loadn x n => encodeWith (defOf .loadn) x 0 0 n
  | .storen x n => encodeWith (defOf .storen) x 0 0 n
  | .loadr x y => encodeWith (defOf .loadr) x y 0 0
  | .storer x y => encodeWith (defOf .storer) x y 0 0
  | .popr x y => encodeWith (defOf .popr) x y 0 0
  | .pushr x y => encodeWith (defOf .pushr) x y 0 0
  | .addn x n => encodeWith (defOf .addn) x 0 0 n
  | .nop => encodeWith (defOf .nop) 0 0 0 0
  | .copy x y => encodeWith (defOf .copy) x y 0 0
  | .add x y z => encodeWith (defOf .add) x y z 0
  | .neg x z => encodeWith (defOf .neg) x 0 z 0
  | .sub x y z => encodeWith (defOf .sub) x y z 0
  | .mul x y z => encodeWith (defOf .mul) x y z 0
  | .div x y z => encodeWith (defOf .div) x y z 0
  | .mod x y z => encodeWith (defOf .mod) x y z 0
  | .jumpn n => encodeWith (defOf .jumpn) 0 0 0 n
  | .calln x n => encodeWith (defOf .calln) x 0 0 n
  | .jeqzn x n => encodeWith (defOf .jeqzn) x 0 0 n
  | .jnezn x n => encodeWith (defOf .jnezn) x 0 0 n
  | .jgtzn x n => encodeWith (defOf .jgtzn) x 0 0 n
  | .jltzn x n => encodeWith (defOf .jltzn) x 0 0 n

/-! ### Synonymous encodings (R96) -/

/-- The decoder's reading of an instruction's own word: the more specific synonym where there is one, else the
instruction itself (R96, R111). -/
def Instr.canonical : Instr → Instr
  | .copy x y => if x = 0 ∧ y = 0 then .nop else .copy x y
  | .add x y z => if z = 0 then (if x = 0 ∧ y = 0 then .nop else .copy x y) else .add x y z
  | .sub x y z => if y = 0 then .neg x z else .sub x y z
  | .calln x n => if x = 0 then .jumpn n else .calln x n
  | .halt => .halt
  | .read x => .read x
  | .write x => .write x
  | .jumpr x => .jumpr x
  | .setn x n => .setn x n
  | .loadn x n => .loadn x n
  | .storen x n => .storen x n
  | .loadr x y => .loadr x y
  | .storer x y => .storer x y
  | .popr x y => .popr x y
  | .pushr x y => .pushr x y
  | .addn x n => .addn x n
  | .nop => .nop
  | .neg x z => .neg x z
  | .mul x y z => .mul x y z
  | .div x y z => .div x y z
  | .mod x y z => .mod x y z
  | .jumpn n => .jumpn n
  | .jeqzn x n => .jeqzn x n
  | .jnezn x n => .jnezn x n
  | .jgtzn x n => .jgtzn x n
  | .jltzn x n => .jltzn x n

/-! ### The host's question -/

/-- The instruction the decoder reads from an instruction whose bits are `w`. A word has exactly 16 bits (R80); bits
above `nbits` are 0. -/
def decodeTableWord (nbits w : Nat) : Option Instr :=
  if nbits ≤ 16 then
    match decode (BitVec.ofNat 16 (w % 2 ^ nbits)) with
    | .ok i => some i
    | .error _ => none
  else none

end Sys2Proof
end

