-- ==== Sys2Proof/Machine/State.lean ====
section
/-! DEFINITION. The state of the HMMM execution core as plain data (spec/10_state.md), the host's operations on it
(spec/70_reset_and_hazards.md R255), the reasons a step can stop, and the state after reset (R252). -/

namespace Sys2Proof.Machine

/-! ### Memory (R30, R50) -/

/-- Memory: (address, 16-bit word) cells in canonical form, addresses strictly rising, no cell equal to what an
unlisted address reads as (`Memory.wf`). The smallest unit of the spec's memory is the 16-bit word (R57;
notes/assumptions/1.md). -/
abbrev Memory := List (Nat × Word)

/-! ### Exceptions (R200) -/

/-- The six exception kinds (R200). -/
inductive ExcKind where
  /-- Code 1, fatal (R201). -/
  | invalidInstruction
  /-- Code 2, fatal (R202). -/
  | invalidMemoryAccess
  /-- Code 3, fatal (R205). -/
  | executeOutsideSegment
  /-- Code 4, maskable (R206). -/
  | codeSegmentRead
  /-- Code 5, maskable (R207). -/
  | codeSegmentWrite
  /-- Code 6, fatal (R208, D6). -/
  | divideByZero
  deriving DecidableEq, Repr

/-- LAST_EXC, the record of the last exception that stopped the core (R34). `kind` is the 3-bit code of R200, 0 while
`valid` is 0. -/
structure LastExc where
  valid : Bool
  kind : BitVec 3
  /-- The `pc` of the instruction that raised it. -/
  epc : Word
  /-- The address of the access that raised it; 0 for kinds without one. -/
  addr : Word
  deriving DecidableEq, Repr

/-- EXC_EN, the exception breakpoints (R35): for each kind either not enabled or enabled with the id of its exception
breakpoint (R214, R215, R255). -/
structure ExcEnable where
  invalidInstruction : Option BpId
  invalidMemoryAccess : Option BpId
  executeOutsideSegment : Option BpId
  codeSegmentRead : Option BpId
  codeSegmentWrite : Option BpId
  divideByZero : Option BpId
  deriving DecidableEq, Repr

/-! ### Run state and stop report (R32, R33) -/

/-- RUNSTATE (R32). `awaitingInput` carries the destination register of the `read` in progress
(R192; notes/assumptions/9.md). -/
inductive RunState where
  | ready
  | running
  | paused
  | halted
  | awaitingInput (dest : Reg)
  deriving DecidableEq, Repr

/-- STOP_REASON (R33). -/
inductive StopReason where
  | none
  | pause
  | breakpoint
  | dataBreakpoint
  | exception
  | step
  | halt
  | inputEnd
  | fatal
  deriving DecidableEq, Repr

/-! ### Breakpoints (R36, R37) -/

/-- An entry of IBP (R36). -/
structure InstrBp where
  addr : Nat
  id : BpId
  deriving DecidableEq, Repr

/-- The two address spaces of the data-breakpoint comparator (R52). -/
inductive Space where
  | register
  | memory
  deriving DecidableEq, Repr

/-- An entry of DBP (R37). -/
structure DataBp where
  space : Space
  addr : Nat
  onRead : Bool
  onWrite : Bool
  id : BpId
  deriving DecidableEq, Repr

/-! ### Output (R41) -/

/-- One item of OUT (R41, R194, R214, D24). -/
inductive OutItem where
  /-- A value emitted by `write`. -/
  | value (v : Int)
  /-- The report of a fatal exception; its text is presentation (I9). -/
  | report (k : ExcKind)
  deriving DecidableEq, Repr

/-! ### The host (R254, R255) -/

/-- The answer to an input request (R193): an integer, or end of input (a non-numeric terminator or a cancellation). -/
inductive InputAnswer where
  | integer (i : Int)
  | endOfInput
  deriving DecidableEq, Repr

/-- The mode of `configure` (R250). -/
inductive ConfigMode where
  /-- Assembly text (R101 to R106). -/
  | text
  /-- One word a line as 16 binary digits (R100). -/
  | binary
  deriving DecidableEq, Repr

/-- The launch parameters (R8): INIT_REGS for r1 to r15 (R25, D2) and INIT_MEM for the words the program does not
load (R30, D3), an unlisted word of which is `Config.unlistedWord`. -/
structure Launch where
  initRegs : Vector Word 15
  initMem : Memory
  deriving DecidableEq, Repr

/-- The host operations (R255). -/
inductive HostOp where
  | configure (mode : ConfigMode) (source : List Char) (launch : Launch)
  | continue
  | step (filter : Option Mnemonic)
  | pause
  | goto (address : Word)
  | supply (answer : InputAnswer)
  | setInstrBp (entry : InstrBp)
  | clearInstrBps
  | setDataBp (entry : DataBp)
  | clearDataBps
  | setExcBps (enable : ExcEnable)
  | getState
  | getLastException
  deriving DecidableEq, Repr

/-- One item of what the host is going to do (notes/assumptions/5.md). -/
inductive HostEvent where
  /-- The host issues nothing in this slot: the core takes its cycle. -/
  | tick
  /-- The host issues an operation, between two cycles (R254). -/
  | op (o : HostOp)
  deriving DecidableEq, Repr

/-! ### The state -/

/-- Everything the spec gives the machine, and two fields of the model (`hostQ`, `rejected`). -/
structure State where
  /-- r0 to r15 (R20). Slot 0 is not read: `State.reg` reads r0 as 0 (R22; notes/assumptions/28.md). -/
  regs : Vector Word 16
  /-- The program counter (R26). -/
  pc : Word
  /-- M, the 256 memory words (R30). -/
  mem : Memory
  /-- CODE_LIMIT, in [0, 256] (R31). -/
  codeLimit : Nat
  /-- RUNSTATE (R32). -/
  runState : RunState
  /-- STOP_REASON (R33). -/
  stopReason : StopReason
  /-- STOP_IDS (R33). -/
  stopIds : List BpId
  /-- LAST_EXC (R34). -/
  lastExc : LastExc
  /-- EXC_EN (R35). -/
  excEn : ExcEnable
  /-- IBP (R36). -/
  ibp : List InstrBp
  /-- DBP (R37). -/
  dbp : List DataBp
  /-- SUPPRESS (R38). -/
  suppress : Bool
  /-- MASK_LATCH (R38, R216). -/
  maskLatch : Option (ExcKind × Word)
  /-- PAUSE_REQ (R39). -/
  pauseReq : Bool
  /-- MODIFIED, addresses strictly rising (R40). -/
  modified : List Nat
  /-- OUT, oldest first (R41). -/
  out : List OutItem
  /-- STEP_MODE (R44). -/
  stepMode : Bool
  /-- STEP_FILTER (R44). -/
  stepFilter : Option Mnemonic
  /-- The model's: what the host is going to do, next first (notes/assumptions/5.md). -/
  hostQ : List HostEvent
  /-- The model's: the last `configure` was rejected, so the core must not be run (R250, D15;
  notes/assumptions/10.md). -/
  rejected : Bool
  deriving DecidableEq, Repr

/-! ### The reasons a step can stop -/

/-- Faults. Every exception of the spec is taken as a next state, so only the memory port is left. -/
inductive Fault where
  /-- Raised by the memory port (`memRead`, `memWrite`) on an address outside [0, 255], where the spec does not define
  it (R62). Safe: the checks of step 4 and the fetch bound come first, so no step of the machine reaches it. -/
  | undefinedAddress (addr : Int)
  deriving DecidableEq, Repr

/-- Refusals. -/
inductive Refusal where
  /-- Raised by `exec` for an instruction without a meaning; no arm does. Safe. -/
  | notModelled (mnemonic : String)
  /-- Raised by a host operation that the spec does not allow in the present run state (R254, R255;
  notes/assumptions/6.md). Safe: the spec forbids the host to issue it. -/
  | hostOpNotAllowed
  /-- Raised when the core is to run after a rejected `configure`: it must not be run until a successful one
  (R250, D15, I11; notes/assumptions/10.md). Safe: the spec's own verdict is stuck. -/
  | mustNotRun
  /-- Raised for a fetched word whose largest matching mask two definitions share (R87, I4;
  notes/assumptions/21.md). Safe: the spec says refuse, and the opcode table has no such word. -/
  | ambiguousEncoding (w : Word)
  deriving DecidableEq, Repr

/-! ### Reset -/

/-- No exception breakpoint (R35). -/
def ExcEnable.empty : ExcEnable := ⟨none, none, none, none, none, none⟩

/-- LAST_EXC after reset (R34). -/
def LastExc.empty : LastExc := ⟨false, 0, 0, 0⟩

/-- The machine right after reset (R252) with the empty program (R250, D34): CODE_LIMIT 0, nothing listed in memory,
r1 to r15 zero (DESIGN CHOICE, unsafe: notes/assumptions/2.md, 3.md, 4.md), the host has nothing to issue. -/
def State.reset : State where
  regs := Vector.replicate 16 Config.resetRegister
  pc := 0
  mem := []
  codeLimit := 0
  runState := .ready
  stopReason := .none
  stopIds := []
  lastExc := LastExc.empty
  excEn := ExcEnable.empty
  ibp := []
  dbp := []
  suppress := false
  maskLatch := none
  pauseReq := false
  modified := []
  out := []
  stepMode := false
  stepFilter := none
  hostQ := []
  rejected := false

end Sys2Proof.Machine
end

