-- ==== Sys2Proof/Machine/Ops.lean ====
section
/-! DEFINITION. The named operations over registers, memory and run control (spec/10_state.md R20 to R44,
spec/20_memory.md R62), taking an exception and resuming from one (spec/60_exceptions.md R214, R215, R232), and the end of
a cycle (R209 steps 8 and 10). -/

namespace Sys2Proof.Machine

/-! ### Registers (R22, R23) -/

/-- `x[r]`: register 0 always reads as 0 (R11, R22). -/
def State.reg (s : State) (r : Reg) : Word := if r = 0 then 0 else s.regs[r.val]

/-- The register file after `x[r] <- v`: a write to register 0 is ignored (R23). -/
def putReg (regs : Vector Word 16) (r : Reg) (v : Word) : Vector Word 16 :=
  if r = 0 then regs else regs.set r.val v

/-- `x[r] <- v` (R11, R23); the reduction modulo 65536 is `u16` where `v` is made from an integer. -/
def State.setReg (s : State) (r : Reg) (v : Word) : State := { s with regs := putReg s.regs r v }

/-! ### Memory (R30, R50, R62) -/

/-- Canonical form from a lowest address on: addresses strictly rising and below 256, no cell equal to what an
unlisted address reads as. -/
def Memory.wfFrom : Nat → Memory → Bool
  | _, [] => true
  | lo, (a, v) :: m =>
    decide (lo ≤ a) && decide (a < Config.memWords) && decide (v ≠ Config.unlistedWord) && Memory.wfFrom (a + 1) m

/-- The canonical form of memory. -/
def Memory.wf (m : Memory) : Bool := Memory.wfFrom 0 m

/-- The word of an address: its cell, or what an unlisted address reads as. -/
def memGet : Memory → Nat → Word
  | [], _ => Config.unlistedWord
  | (b, v) :: m, a => if a = b then v else memGet m a

/-- Memory with the word of an address replaced, in canonical form: the unlisted value removes the cell. -/
def memPut : Memory → Nat → Word → Memory
  | [], a, v => if v = Config.unlistedWord then [] else [(a, v)]
  | (b, u) :: m, a, v =>
    if a < b then (if v = Config.unlistedWord then (b, u) :: m else (a, v) :: (b, u) :: m)
    else if a = b then (if v = Config.unlistedWord then m else (a, v) :: m)
    else (b, u) :: memPut m a v

/-- The memory whose words 0 to `n - 1` are `f 0` to `f (n - 1)`, before the cells of `rest`. -/
def memTabulate (f : Nat → Word) : Nat → Memory → Memory
  | 0, rest => rest
  | n + 1, rest => memTabulate f n (if f n = Config.unlistedWord then rest else (n, f n) :: rest)

/-- A set of addresses with one more, strictly rising (MODIFIED, R40). -/
def addAddress : List Nat → Nat → List Nat
  | [], a => [a]
  | b :: bs, a => if a < b then a :: b :: bs else if a = b then b :: bs else b :: addAddress bs a

/-- An address is memory exactly when it is in [0, 255] (R50, R55). -/
def isMemoryAddress (a : Int) : Bool := decide (0 ≤ a) && decide (a ≤ 255)

/-- `MemRead(a)`, defined for `a` in [0, 255] only (R62). -/
def State.memRead (s : State) (a : Int) : Option Word :=
  if isMemoryAddress a then some (memGet s.mem a.toNat) else none

/-- `MemWrite(a, v)`, defined for `a` in [0, 255] only: sets the word and adds `a` to MODIFIED (R62). -/
def State.memWrite (s : State) (a : Int) (v : Word) : Option State :=
  if isMemoryAddress a then
    some { s with mem := memPut s.mem a.toNat v, modified := addAddress s.modified a.toNat }
  else none

/-! ### Output (R41) -/

/-- Append an item to OUT (R41, R194, R214). -/
def State.emit (s : State) (o : OutItem) : State := { s with out := s.out ++ [o] }

/-! ### Stops (R209, R33) -/

/-- `stop(s, r, ids)`: the run state, the reason and the ids, no further change (R209). -/
def State.stop (s : State) (rs : RunState) (r : StopReason) (ids : List BpId) : State :=
  { s with runState := rs, stopReason := r, stopIds := ids }

/-! ### Exceptions (R200, R203, R204, R214, R215) -/

/-- The 3-bit code of a kind (R200, D7). -/
def ExcKind.code : ExcKind → BitVec 3
  | .invalidInstruction => 1
  | .invalidMemoryAccess => 2
  | .executeOutsideSegment => 3
  | .codeSegmentRead => 4
  | .codeSegmentWrite => 5
  | .divideByZero => 6

/-- The maskable kinds; the others are fatal (R203, R204). -/
def ExcKind.maskable : ExcKind → Bool
  | .invalidInstruction => false
  | .invalidMemoryAccess => false
  | .executeOutsideSegment => false
  | .codeSegmentRead => true
  | .codeSegmentWrite => true
  | .divideByZero => false

/-- The id of a kind's exception breakpoint, if the kind is in EXC_EN (R35). -/
def ExcEnable.get (e : ExcEnable) : ExcKind → Option BpId
  | .invalidInstruction => e.invalidInstruction
  | .invalidMemoryAccess => e.invalidMemoryAccess
  | .executeOutsideSegment => e.executeOutsideSegment
  | .codeSegmentRead => e.codeSegmentRead
  | .codeSegmentWrite => e.codeSegmentWrite
  | .divideByZero => e.divideByZero

/-- STOP_REASON of a fatal exception: `exception` if its kind is enabled, else `fatal` (R214, D23, C4). -/
def fatalReason (e : ExcEnable) (k : ExcKind) : StopReason :=
  match e.get k with
  | some _ => .exception
  | none => .fatal

/-- STOP_IDS of a fatal exception: the id of its kind's exception breakpoint, if enabled (R214, D23). -/
def fatalIds (e : ExcEnable) (k : ExcKind) : List BpId :=
  match e.get k with
  | some id => [id]
  | none => []

/-- `fatal(k, addr)`, taking a fatal exception: LAST_EXC records it, OUT gets its report, the core halts; registers,
memory and `pc` keep their values (R214, D13). -/
def State.takeFatal (s : State) (k : ExcKind) (addr : Word) : State :=
  { s with
    lastExc := ⟨true, k.code, s.pc, addr⟩
    out := s.out ++ [.report k]
    runState := .halted
    stopReason := fatalReason s.excEn k
    stopIds := fatalIds s.excEn k }

/-- Taking a maskable exception that stops: LAST_EXC records it, MASK_LATCH holds it at this `pc`, the core pauses with
the id of its exception breakpoint (R215). -/
def State.takeMaskable (s : State) (k : ExcKind) (addr : Word) (id : BpId) : State :=
  { s with
    lastExc := ⟨true, k.code, s.pc, addr⟩
    maskLatch := some (k, s.pc)
    runState := .paused
    stopReason := .exception
    stopIds := [id] }

/-- The stop reasons after which a resume arms SUPPRESS (R232, C6, D22). -/
def StopReason.armsSuppress : StopReason → Bool
  | .none => false
  | .pause => false
  | .breakpoint => true
  | .dataBreakpoint => true
  | .exception => true
  | .step => true
  | .halt => false
  | .inputEnd => false
  | .fatal => false

/-- Resuming a ready or paused core at the same `pc`, the only return from a stop or a maskable exception (R218, R232,
R255): SUPPRESS is set after a stop of an arming reason and else keeps its value (notes/assumptions/12.md). -/
def State.resume (s : State) : State :=
  { s with suppress := s.suppress || s.stopReason.armsSuppress, runState := .running }

/-! ### The end of a cycle (R209 steps 8 and 10) -/

/-- Step 8: `pc` takes the target, and MASK_LATCH is emptied if `pc` changes (R209, R216). -/
def State.advance (s : State) (target : Word) : State :=
  { s with pc := target, maskLatch := if target = s.pc then s.maskLatch else none }

/-- A step-mode cycle of this mnemonic stops: there is no filter or the filter is the mnemonic (R209 step 10, R235). -/
def State.stepStops (s : State) (m : Mnemonic) : Bool :=
  s.stepMode && (decide (s.stepFilter = none) || decide (s.stepFilter = some m))

/-- Step 10: SUPPRESS is cleared, and a step-mode cycle whose mnemonic the filter admits stops (R209, R235). -/
def State.endCycle (s : State) (m : Mnemonic) : State :=
  { s with
    suppress := false
    runState := if s.stepStops m then .paused else s.runState
    stopReason := if s.stepStops m then .step else s.stopReason
    stopIds := if s.stepStops m then [] else s.stopIds }

/-- Steps 8 and 10 of a cycle that executed an instruction with this mnemonic and this next `pc` (R209). -/
def State.retire (s : State) (m : Mnemonic) (target : Word) : State := (s.advance target).endCycle m

/-- The address after the executing instruction's: `pc + 1` (R27; notes/assumptions/19.md). -/
def State.nextPc (s : State) : Word := s.pc + 1

end Sys2Proof.Machine
end

