-- ==== Sys2Proof/Machine/Flags.lean ====
section
/-! DEFINITION. The core has no flags (spec/10_state.md R42): the conditional jumps test a register value directly
(spec/43_control.md R170, R173 to R176). -/

namespace Sys2Proof.Machine

/-- The condition of `jeqzn`: the value is zero (R173). -/
def isZero (v : Word) : Bool := decide (v = 0)

/-- The condition of `jnezn`: the value is not zero (R174). -/
def isNonZero (v : Word) : Bool := decide (v ≠ 0)

/-- The condition of `jgtzn`: the signed value is greater than zero (R175, D5). -/
def isPositive (v : Word) : Bool := decide (s16 v > 0)

/-- The condition of `jltzn`: the signed value is less than zero (R176, D5). -/
def isNegative (v : Word) : Bool := decide (s16 v < 0)

/-- The next `pc` of a conditional jump: the immediate target if the condition holds, else `pc + 1` (R170). -/
def branchTarget (s : State) (taken : Bool) (target : Word) : Word := if taken then target else s.nextPc

end Sys2Proof.Machine
end

