-- ==== Sys2Proof/Machine/Operands.lean ====
section
/-! DEFINITION. The operand forms: effective addresses and jump targets (spec/42_memory_ops.md R150,
spec/43_control.md R170), the static access table (spec/60_exceptions.md R211), the checks of step 4 of the cycle
(R212, R213, R231), and what a cycle does with their result (R209, R214, R215). -/

namespace Sys2Proof.Machine

/-! ### Addressing modes and targets -/

/-- Direct: the effective address is the unsigned field N (R150). -/
def eaDirect (n : Nat) : Int := (n : Int)

/-- Register-indirect: the effective address is `x[rY]`, used without wrap (R71, R150). -/
def eaIndirect (s : State) (y : Reg) : Int := ((s.reg y).toNat : Int)

/-- The effective address of `popr`: `x[rY] - 1`, which may be -1 (R71, R156). -/
def eaPop (s : State) (y : Reg) : Int := ((s.reg y).toNat : Int) - 1

/-- An immediate jump target: absolute, the unsigned field N (R170). -/
def targetImmediate (n : Nat) : Word := u16 (n : Int)

/-- A register jump target: the full `x[rX]` (R170). -/
def targetRegister (s : State) (x : Reg) : Word := s.reg x

/-! ### The static access table (R211) -/

/-- The direction of an access. -/
inductive Direction where
  | read
  | write
  deriving DecidableEq, Repr

/-- One access: (space, address, direction) (R63, R211). -/
structure Access where
  space : Space
  addr : Int
  dir : Direction
  deriving DecidableEq, Repr

/-- `read reg r`. -/
def readReg (r : Reg) : Access := ⟨.register, (r.val : Int), .read⟩

/-- `write reg r`. -/
def writeReg (r : Reg) : Access := ⟨.register, (r.val : Int), .write⟩

/-- `read mem a`. -/
def readMem (a : Int) : Access := ⟨.memory, a, .read⟩

/-- `write mem a`. -/
def writeMem (a : Int) : Access := ⟨.memory, a, .write⟩

/-- The accesses of an instruction in declared order, memory addresses from the register values at the start of the
cycle (R211, D10). -/
def accesses (i : Instr) (s : State) : List Access :=
  match i with
  | .halt => []
  | .nop => []
  | .jumpn _ => []
  | .read x => [writeReg x]
  | .write x => [readReg x]
  | .jumpr x => [readReg x]
  | .jeqzn x _ => [readReg x]
  | .jnezn x _ => [readReg x]
  | .jgtzn x _ => [readReg x]
  | .jltzn x _ => [readReg x]
  | .setn x _ => [writeReg x]
  | .calln x _ => [writeReg x]
  | .addn x _ => [readReg x, writeReg x]
  | .copy x y => [readReg y, writeReg x]
  | .neg x z => [readReg z, writeReg x]
  | .add x y z => [readReg y, readReg z, writeReg x]
  | .sub x y z => [readReg y, readReg z, writeReg x]
  | .mul x y z => [readReg y, readReg z, writeReg x]
  | .div x y z => [readReg y, readReg z, writeReg x]
  | .mod x y z => [readReg y, readReg z, writeReg x]
  | .loadn x n => [readMem (eaDirect n), writeReg x]
  | .storen x n => [readReg x, writeMem (eaDirect n)]
  | .loadr x y => [readReg y, readMem (eaIndirect s y), writeReg x]
  | .storer x y => [readReg x, readReg y, writeMem (eaIndirect s y)]
  | .pushr x y => [readReg x, readReg y, writeMem (eaIndirect s y), writeReg y]
  | .popr x y => [readReg y, readMem (eaPop s y), writeReg y, writeReg x]

/-- The instruction fetch as an access: a memory read of `pc` (R64, R231). -/
def fetchAccess (s : State) : Access := readMem (s.pc.toNat : Int)

/-! ### The data-breakpoint comparator (R231) -/

/-- An entry watches an access: same space, same address, the flag of the direction set (R231). -/
def DataBp.watches (e : DataBp) (a : Access) : Bool :=
  decide (e.space = a.space) && decide ((e.addr : Int) = a.addr) &&
    (match a.dir with
      | .read => e.onRead
      | .write => e.onWrite)

/-- The ids an access hits, none while SUPPRESS is set (R212 (c), R231, R232). -/
def watchIds (s : State) (a : Access) : List BpId :=
  if s.suppress then [] else (s.dbp.filter (fun e => e.watches a)).map (fun e => e.id)

/-! ### The checks of step 4 (R212) -/

/-- The maskable kind of a data access to the code segment, by its direction (R206, R207). -/
def segmentKind : Direction → ExcKind
  | .read => .codeSegmentRead
  | .write => .codeSegmentWrite

/-- The access is to no memory address: `invalid-memory-access` (R212 (a)). -/
def Access.outside (a : Access) : Bool := decide (a.space = .memory) && !isMemoryAddress a.addr

/-- The exception breakpoint at which a data access to the code segment stops: its kind is enabled, SUPPRESS is clear,
and the kind is not latched at this `pc` (R212 (b)). -/
def maskableStop (s : State) (a : Access) : Option BpId :=
  if a.space = .memory ∧ a.addr < (s.codeLimit : Int) ∧ s.suppress = false ∧
      s.maskLatch ≠ some (segmentKind a.dir, s.pc) then
    s.excEn.get (segmentKind a.dir)
  else none

/-- What checking some accesses comes to. -/
inductive CheckResult where
  /-- No access stopped the cycle; the data-breakpoint hits so far (R213). -/
  | pass (hits : List BpId)
  /-- A fatal `invalid-memory-access` at this address (R212 (a)). -/
  | fatal (addr : Int)
  /-- An enabled maskable exception at this address, with its breakpoint's id (R212 (b)). -/
  | maskable (k : ExcKind) (addr : Int) (id : BpId)
  deriving DecidableEq, Repr

/-- `check(acc, hits)` for one access, in the rule's order (R212). -/
def checkAccess (s : State) (a : Access) (hits : List BpId) : CheckResult :=
  if a.outside then .fatal a.addr
  else
    match maskableStop s a with
    | some id => .maskable (segmentKind a.dir) a.addr id
    | none => .pass (hits ++ watchIds s a)

/-- The checks of a list of accesses, stopping at the first that stops the cycle (R209 step 4, R213). -/
def checkAll (s : State) : List Access → List BpId → CheckResult
  | [], hits => .pass hits
  | a :: as, hits =>
    match checkAccess s a hits with
    | .pass hits' => checkAll s as hits'
    | .fatal addr => .fatal addr
    | .maskable k addr id => .maskable k addr id

/-- Step 4 of the cycle for a decoded instruction: the fetch watch, then its access table (R209). -/
def checkInstr (i : Instr) (s : State) : CheckResult := checkAll s (accesses i s) (watchIds s (fetchAccess s))

/-- A cycle from step 4 on: the checks, and the instruction's effect (steps 6 to 10) if none of them stops it
(R209, R213 to R215). -/
def guarded (i : Instr) (s : State) (effect : Host.Outcome State Fault Refusal) : Host.Outcome State Fault Refusal :=
  match checkInstr i s with
  | .fatal addr => .next (s.takeFatal .invalidMemoryAccess (u16 addr))
  | .maskable k addr id => .next (s.takeMaskable k (u16 addr) id)
  | .pass [] => effect
  | .pass (id :: ids) => .next (s.stop .paused .dataBreakpoint (id :: ids))

/-! ### The memory port inside an effect (R62) -/

/-- Use the word `MemRead(a)` gives; outside [0, 255] the port is not defined (R62; notes/assumptions/20.md). -/
def withRead (s : State) (a : Int) (k : Word → State) : Host.Outcome State Fault Refusal :=
  match s.memRead a with
  | some v => .next (k v)
  | none => .fault (.undefinedAddress a)

/-- Go on from the state `MemWrite(a, v)` gives; outside [0, 255] the port is not defined (R62;
notes/assumptions/20.md). -/
def withWrite (s : State) (a : Int) (v : Word) (k : State → State) : Host.Outcome State Fault Refusal :=
  match s.memWrite a v with
  | some t => .next (k t)
  | none => .fault (.undefinedAddress a)

end Sys2Proof.Machine
end

