-- ==== Sys2Proof/Machine/Control.lean ====
section
/-! DEFINITION. Control transfer (spec/43_control.md): jumpn, jumpr, jeqzn, jnezn, jgtzn, jltzn, calln. Targets are not
checked here: the next cycle's fetch bound is (R170, R205). -/

namespace Sys2Proof.Machine

/-- `jumpn N` (R171). -/
def execJumpn (n : Nat) (s : State) : Host.Outcome State Fault Refusal :=
  guarded (.jumpn n) s (.next (s.retire .jumpn (targetImmediate n)))

/-- `jumpr rX` (R172). -/
def execJumpr (x : Reg) (s : State) : Host.Outcome State Fault Refusal :=
  guarded (.jumpr x) s (.next (s.retire .jumpr (targetRegister s x)))

/-- `jeqzn rX N` (R173). -/
def execJeqzn (x : Reg) (n : Nat) (s : State) : Host.Outcome State Fault Refusal :=
  guarded (.jeqzn x n) s (.next (s.retire .jeqzn (branchTarget s (isZero (s.reg x)) (targetImmediate n))))

/-- `jnezn rX N` (R174). -/
def execJnezn (x : Reg) (n : Nat) (s : State) : Host.Outcome State Fault Refusal :=
  guarded (.jnezn x n) s (.next (s.retire .jnezn (branchTarget s (isNonZero (s.reg x)) (targetImmediate n))))

/-- `jgtzn rX N` (R175). -/
def execJgtzn (x : Reg) (n : Nat) (s : State) : Host.Outcome State Fault Refusal :=
  guarded (.jgtzn x n) s (.next (s.retire .jgtzn (branchTarget s (isPositive (s.reg x)) (targetImmediate n))))

/-- `jltzn rX N` (R176). -/
def execJltzn (x : Reg) (n : Nat) (s : State) : Host.Outcome State Fault Refusal :=
  guarded (.jltzn x n) s (.next (s.retire .jltzn (branchTarget s (isNegative (s.reg x)) (targetImmediate n))))

/-- `calln rX N`: link `pc + 1`, then jump (R177). -/
def execCalln (x : Reg) (n : Nat) (s : State) : Host.Outcome State Fault Refusal :=
  guarded (.calln x n) s (.next ((s.setReg x s.nextPc).retire .calln (targetImmediate n)))

end Sys2Proof.Machine
end

