-- ==== Sys2Proof/Machine/Arith.lean ====
section
/-! DEFINITION. The ALU and the register-to-register instructions (spec/40_alu.md): add, sub, mul, div, mod, neg, copy. -/

namespace Sys2Proof.Machine

/-- The exact sum reduced modulo 65536 (R120, R126). -/
def aluAdd (a b : Word) : Word := u16 ((a.toNat : Int) + (b.toNat : Int))

/-- The exact difference reduced modulo 65536 (R120, R127). -/
def aluSub (a b : Word) : Word := u16 ((a.toNat : Int) - (b.toNat : Int))

/-- The exact product reduced modulo 65536 (R120, R128). -/
def aluMul (a b : Word) : Word := u16 ((a.toNat : Int) * (b.toNat : Int))

/-- `trunc_div(a, b)`: the quotient rounded toward zero (R10). -/
def truncDiv (a b : Int) : Int := Int.tdiv a b

/-- `trunc_rem(a, b) = a - b * trunc_div(a, b)` (R10). -/
def truncRem (a b : Int) : Int := a - b * truncDiv a b

/-- The signed quotient reduced modulo 65536, for a divisor that is not 0 (R122, R125, R129). -/
def aluDiv (a b : Word) : Word := u16 (truncDiv (s16 a) (s16 b))

/-- The signed remainder reduced modulo 65536, for a divisor that is not 0 (R122, R130). -/
def aluMod (a b : Word) : Word := u16 (truncRem (s16 a) (s16 b))

/-- Write a result to a register and end the cycle at `pc + 1`. -/
def writeResult (s : State) (m : Mnemonic) (x : Reg) (v : Word) : State := (s.setReg x v).retire m s.nextPc

/-- Write a quotient or remainder, or take the fatal `divide-by-zero` before any write (R124, R208, D6). -/
def writeUnlessZero (s : State) (m : Mnemonic) (x : Reg) (divisor v : Word) : State :=
  if s16 divisor = 0 then s.takeFatal .divideByZero 0 else writeResult s m x v

/-- `add rX rY rZ` (R126). -/
def execAdd (x y z : Reg) (s : State) : Host.Outcome State Fault Refusal :=
  guarded (.add x y z) s (.next (writeResult s .add x (aluAdd (s.reg y) (s.reg z))))

/-- `sub rX rY rZ` (R127). -/
def execSub (x y z : Reg) (s : State) : Host.Outcome State Fault Refusal :=
  guarded (.sub x y z) s (.next (writeResult s .sub x (aluSub (s.reg y) (s.reg z))))

/-- `mul rX rY rZ` (R128). -/
def execMul (x y z : Reg) (s : State) : Host.Outcome State Fault Refusal :=
  guarded (.mul x y z) s (.next (writeResult s .mul x (aluMul (s.reg y) (s.reg z))))

/-- `div rX rY rZ` (R129). -/
def execDiv (x y z : Reg) (s : State) : Host.Outcome State Fault Refusal :=
  guarded (.div x y z) s (.next (writeUnlessZero s .div x (s.reg z) (aluDiv (s.reg y) (s.reg z))))

/-- `mod rX rY rZ` (R130). -/
def execMod (x y z : Reg) (s : State) : Host.Outcome State Fault Refusal :=
  guarded (.mod x y z) s (.next (writeUnlessZero s .mod x (s.reg z) (aluMod (s.reg y) (s.reg z))))

/-- `neg rX rZ` (R131). -/
def execNeg (x z : Reg) (s : State) : Host.Outcome State Fault Refusal :=
  guarded (.neg x z) s (.next (writeResult s .neg x (aluSub 0 (s.reg z))))

/-- `copy rX rY` (R132). -/
def execCopy (x y : Reg) (s : State) : Host.Outcome State Fault Refusal :=
  guarded (.copy x y) s (.next (writeResult s .copy x (s.reg y)))

end Sys2Proof.Machine
end

