-- ==== Sys2Proof/Machine/Immediate.lean ====
section
/-! DEFINITION. Immediate set and add (spec/41_immediate.md): setn, addn. -/

namespace Sys2Proof.Machine

/-- `setn rX N` (R140). -/
def execSetn (x : Reg) (n : Int) (s : State) : Host.Outcome State Fault Refusal :=
  guarded (.setn x n) s (.next (writeResult s .setn x (u16 n)))

/-- `addn rX N` (R141). -/
def execAddn (x : Reg) (n : Int) (s : State) : Host.Outcome State Fault Refusal :=
  guarded (.addn x n) s (.next (writeResult s .addn x (u16 (((s.reg x).toNat : Int) + n))))

end Sys2Proof.Machine
end

