-- ==== Sys2Proof/Machine/LoadStore.lean ====
section
/-! DEFINITION. Loads, stores, push and pop (spec/42_memory_ops.md): loadn, storen, loadr, storer, pushr, popr. -/

namespace Sys2Proof.Machine

/-- Load the word of an address into a register and end the cycle at `pc + 1` (R151, R153). -/
def loadFrom (s : State) (m : Mnemonic) (x : Reg) (a : Int) : Host.Outcome State Fault Refusal :=
  withRead s a (fun v => (s.setReg x v).retire m s.nextPc)

/-- Store a register at an address and end the cycle at `pc + 1` (R152, R154). -/
def storeTo (s : State) (m : Mnemonic) (x : Reg) (a : Int) : Host.Outcome State Fault Refusal :=
  withWrite s a (s.reg x) (fun t => t.retire m s.nextPc)

/-- `loadn rX N` (R151). -/
def execLoadn (x : Reg) (n : Nat) (s : State) : Host.Outcome State Fault Refusal :=
  guarded (.loadn x n) s (loadFrom s .loadn x (eaDirect n))

/-- `storen rX N` (R152). -/
def execStoren (x : Reg) (n : Nat) (s : State) : Host.Outcome State Fault Refusal :=
  guarded (.storen x n) s (storeTo s .storen x (eaDirect n))

/-- `loadr rX rY` (R153). -/
def execLoadr (x y : Reg) (s : State) : Host.Outcome State Fault Refusal :=
  guarded (.loadr x y) s (loadFrom s .loadr x (eaIndirect s y))

/-- `storer rX rY` (R154). -/
def execStorer (x y : Reg) (s : State) : Host.Outcome State Fault Refusal :=
  guarded (.storer x y) s (storeTo s .storer x (eaIndirect s y))

/-- `pushr rX rY`: store at the pointer, then increment it (R155, D11). -/
def execPushr (x y : Reg) (s : State) : Host.Outcome State Fault Refusal :=
  guarded (.pushr x y) s
    (withWrite s (eaIndirect s y) (s.reg x)
      (fun t => (t.setReg y (u16 (eaIndirect s y + 1))).retire .pushr s.nextPc))

/-- `popr rX rY`: decrement the pointer, then load; the write to rX is last (R156, D11). -/
def execPopr (x y : Reg) (s : State) : Host.Outcome State Fault Refusal :=
  guarded (.popr x y) s
    (withRead s (eaPop s y)
      (fun v => ((s.setReg y (u16 (eaPop s y))).setReg x v).retire .popr s.nextPc))

end Sys2Proof.Machine
end

