-- ==== Sys2Proof/Machine/System.lean ====
section
/-! DEFINITION. System and input/output instructions (spec/44_system.md): halt, nop, read, write, and the end of a `read`
when the host answers (R192, R193). -/

namespace Sys2Proof.Machine

/-- The host's answer to the `read` in progress (R192, R193): an integer is stored modulo 65536 and the cycle ends with
steps 8 to 10; end of input ends the program cleanly, registers and `pc` unchanged (D14). -/
def answerRead (s : State) (x : Reg) (answer : InputAnswer) : State :=
  match answer with
  | .integer i => ({ s with runState := .running }.setReg x (u16 i)).retire .read s.nextPc
  | .endOfInput => s.stop .halted .inputEnd []

/-- The effect of `read rX` (R192): the input request is answered in the same step if the host's next operation is the
answer, else the core waits in AwaitingInput (notes/assumptions/9.md). -/
def requestInput (s : State) (x : Reg) : State :=
  match s.hostQ with
  | .op (.supply answer) :: rest => answerRead { s with hostQ := rest } x answer
  | _ => { s with runState := .awaitingInput x }

/-- `halt`: the program ends, `pc` unchanged, no steps 8 to 10 (R190, D12). -/
def execHalt (s : State) : Host.Outcome State Fault Refusal :=
  guarded .halt s (.next (s.stop .halted .halt []))

/-- `nop` (R191). -/
def execNop (s : State) : Host.Outcome State Fault Refusal :=
  guarded .nop s (.next (s.retire .nop s.nextPc))

/-- `read rX` (R192). -/
def execRead (x : Reg) (s : State) : Host.Outcome State Fault Refusal :=
  guarded (.read x) s (.next (requestInput s x))

/-- `write rX`: the signed value of rX goes to OUT (R194, D24). -/
def execWrite (x : Reg) (s : State) : Host.Outcome State Fault Refusal :=
  guarded (.write x) s (.next ((s.emit (.value (s16 (s.reg x)))).retire .write s.nextPc))

end Sys2Proof.Machine
end

