-- ==== Sys2Proof/Machine/Dispatch.lean ====
section
/-! DEFINITION. The meaning of every instruction: steps 4 to 10 of the cycle (spec/60_exceptions.md R209), one arm per
constructor, each a direct call of its meaning. -/

namespace Sys2Proof.Machine

def exec (i : Instr) (s : State) : Host.Outcome State Fault Refusal :=
  match i with
  | .halt => Sys2Proof.Machine.execHalt s
  | .read x => Sys2Proof.Machine.execRead x s
  | .write x => Sys2Proof.Machine.execWrite x s
  | .jumpr x => Sys2Proof.Machine.execJumpr x s
  | .setn x n => Sys2Proof.Machine.execSetn x n s
  | .loadn x n => Sys2Proof.Machine.execLoadn x n s
  | .storen x n => Sys2Proof.Machine.execStoren x n s
  | .loadr x y => Sys2Proof.Machine.execLoadr x y s
  | .storer x y => Sys2Proof.Machine.execStorer x y s
  | .popr x y => Sys2Proof.Machine.execPopr x y s
  | .pushr x y => Sys2Proof.Machine.execPushr x y s
  | .addn x n => Sys2Proof.Machine.execAddn x n s
  | .nop => Sys2Proof.Machine.execNop s
  | .copy x y => Sys2Proof.Machine.execCopy x y s
  | .add x y z => Sys2Proof.Machine.execAdd x y z s
  | .neg x z => Sys2Proof.Machine.execNeg x z s
  | .sub x y z => Sys2Proof.Machine.execSub x y z s
  | .mul x y z => Sys2Proof.Machine.execMul x y z s
  | .div x y z => Sys2Proof.Machine.execDiv x y z s
  | .mod x y z => Sys2Proof.Machine.execMod x y z s
  | .jumpn n => Sys2Proof.Machine.execJumpn n s
  | .calln x n => Sys2Proof.Machine.execCalln x n s
  | .jeqzn x n => Sys2Proof.Machine.execJeqzn x n s
  | .jnezn x n => Sys2Proof.Machine.execJnezn x n s
  | .jgtzn x n => Sys2Proof.Machine.execJgtzn x n s
  | .jltzn x n => Sys2Proof.Machine.execJltzn x n s

end Sys2Proof.Machine
end

