-- ==== Sys2Proof/Machine/Text.lean ====
section
/-! DEFINITION. The text forms of spec/30_encoding.md as lists of characters: lines and tokens, numbers, binary words
(R100), operand tokens and their classes (R103, R104), mnemonics and aliases (R107, R108), disassembly (R109, R110). -/

namespace Sys2Proof.Machine

/-! ### Lines and tokens -/

/-- White space inside a line (R101; notes/assumptions/23.md). -/
def isSpace (c : Char) : Bool := c == ' ' || c == '\t' || c == '\r'

/-- Cut a text at the characters that `p` holds of. -/
def splitAtChar (p : Char → Bool) : List Char → List (List Char)
  | [] => [[]]
  | c :: cs =>
    match splitAtChar p cs with
    | [] => [[c]]
    | l :: ls => if p c then [] :: l :: ls else (c :: l) :: ls

/-- The lines of a source text. -/
def sourceLines (source : List Char) : List (List Char) := splitAtChar (fun c => c == '\n') source

/-- The white-space separated tokens of a line (R101). -/
def tokensOf (line : List Char) : List (List Char) := (splitAtChar isSpace line).filter (fun t => !t.isEmpty)

/-- A line up to its comment character `#` (R110). -/
def stripComment (line : List Char) : List Char := line.takeWhile (fun c => c != '#')

/-! ### Numbers (notes/assumptions/22.md) -/

/-- The value of a decimal digit. -/
def digitValue (c : Char) : Option Nat :=
  if 48 ≤ c.toNat ∧ c.toNat ≤ 57 then some (c.toNat - 48) else none

/-- Decimal digits after an accumulated value. -/
def digitsFrom : Nat → List Char → Option Nat
  | acc, [] => some acc
  | acc, c :: cs =>
    match digitValue c with
    | some d => digitsFrom (10 * acc + d) cs
    | none => none

/-- A natural number: one or more decimal digits. -/
def parseNat : List Char → Option Nat
  | [] => none
  | c :: cs => digitsFrom 0 (c :: cs)

/-- An integer: a natural number, or a minus sign and one. -/
def parseInt : List Char → Option Int
  | '-' :: cs => (parseNat cs).map (fun n => -(n : Int))
  | cs => (parseNat cs).map (fun n => (n : Int))

/-! ### Binary text (R100) -/

/-- Binary digits after an accumulated value, the leftmost first (R58, R100). -/
def binaryFrom : Nat → List Char → Nat
  | acc, [] => acc
  | acc, c :: cs => binaryFrom (2 * acc + (if c = '1' then 1 else 0)) cs

/-- Binary text to word: strip non-binary characters, require exactly 16 digits, the leftmost is bit 15 (R58, R100). -/
def parseBinaryWord (text : List Char) : Option Word :=
  let digits := text.filter (fun c => c == '0' || c == '1')
  if digits.length = 16 then some (BitVec.ofNat 16 (binaryFrom 0 digits)) else none

/-- The `Decode` operation on binary text: text that is no word, or a word that does not decode, is rejected
(R88, R100). -/
def decodeBinaryText (text : List Char) : Option Instr :=
  match parseBinaryWord text with
  | some w =>
    match decode w with
    | .ok i => some i
    | .error _ => none
  | none => none

/-! ### Operand tokens (R103, R104) -/

/-- An operand token: a register number or a number. -/
inductive Operand where
  | reg (n : Nat)
  | num (i : Int)
  deriving DecidableEq, Repr

/-- The operand token classes (R103). -/
inductive TokenClass where
  | registerZero
  | validRegister
  | invalidRegister
  | numberEither
  | numberSignedOnly
  | numberUnsignedOnly
  | outOfRange
  deriving DecidableEq, Repr

/-- The class of an operand token (R103). -/
def Operand.tokenClass : Operand → TokenClass
  | .reg n => if n = 0 then .registerZero else if n ≤ 15 then .validRegister else .invalidRegister
  | .num i =>
    if 0 ≤ i ∧ i ≤ 127 then .numberEither
    else if -128 ≤ i ∧ i ≤ -1 then .numberSignedOnly
    else if 128 ≤ i ∧ i ≤ 255 then .numberUnsignedOnly
    else .outOfRange

/-- The value of an operand token: the register's number, or the number. -/
def Operand.value : Operand → Int
  | .reg n => (n : Int)
  | .num i => i

/-- Which token classes a slot accepts (R104). -/
def slotAccepts : Slot → TokenClass → Bool
  | .absent, _ => false
  | .register, c => decide (c = .registerZero) || decide (c = .validRegister)
  | .signed8, c => decide (c = .numberSignedOnly) || decide (c = .numberEither)
  | .unsigned8, c => decide (c = .numberUnsignedOnly) || decide (c = .numberEither)

/-- An operand token's text: the register marker `r` and a number, or a number (R110). -/
def parseOperand : List Char → Option Operand
  | 'r' :: cs => (parseNat cs).map .reg
  | cs => (parseInt cs).map .num

/-! ### Mnemonics and aliases (R95, R107, R108) -/

/-- The text of a canonical mnemonic (R95). -/
def mnemonicText : Mnemonic → List Char
  | .halt => "halt".toList
  | .read => "read".toList
  | .write => "write".toList
  | .jumpr => "jumpr".toList
  | .setn => "setn".toList
  | .loadn => "loadn".toList
  | .storen => "storen".toList
  | .loadr => "loadr".toList
  | .storer => "storer".toList
  | .popr => "popr".toList
  | .pushr => "pushr".toList
  | .addn => "addn".toList
  | .nop => "nop".toList
  | .copy => "copy".toList
  | .add => "add".toList
  | .neg => "neg".toList
  | .sub => "sub".toList
  | .mul => "mul".toList
  | .div => "div".toList
  | .mod => "mod".toList
  | .jumpn => "jumpn".toList
  | .calln => "calln".toList
  | .jeqzn => "jeqzn".toList
  | .jnezn => "jnezn".toList
  | .jgtzn => "jgtzn".toList
  | .jltzn => "jltzn".toList

/-- The aliases and what each stands for (R108). PRESUMED by the spec itself (notes/assumptions/24.md). -/
def aliasTable : List (List Char × Mnemonic) :=
  [("mov".toList, .copy), ("jump".toList, .jumpr), ("jeqz".toList, .jeqzn), ("jnez".toList, .jnezn)] ++
  [("jgtz".toList, .jgtzn), ("jltz".toList, .jltzn), ("call".toList, .calln), ("load".toList, .loadn)] ++
  [("store".toList, .storen), ("loadi".toList, .loadr), ("storei".toList, .storer)]

/-- Name to definition lookup: aliases are resolved first, then the canonical names (R107). -/
def lookupMnemonic (name : List Char) : Option Mnemonic :=
  match aliasTable.find? (fun p => p.1 == name) with
  | some p => some p.2
  | none => Mnemonic.all.find? (fun m => mnemonicText m == name)

/-! ### Disassembly (R109) -/

/-- The operands of an instruction in the order of the text (R106, R109). -/
def instrOperands : Instr → List Operand
  | .halt => []
  | .read x => [.reg x.val]
  | .write x => [.reg x.val]
  | .jumpr x => [.reg x.val]
  | .setn x n => [.reg x.val, .num n]
  | .loadn x n => [.reg x.val, .num n]
  | .storen x n => [.reg x.val, .num n]
  | .loadr x y => [.reg x.val, .reg y.val]
  | .storer x y => [.reg x.val, .reg y.val]
  | .popr x y => [.reg x.val, .reg y.val]
  | .pushr x y => [.reg x.val, .reg y.val]
  | .addn x n => [.reg x.val, .num n]
  | .nop => []
  | .copy x y => [.reg x.val, .reg y.val]
  | .add x y z => [.reg x.val, .reg y.val, .reg z.val]
  | .neg x z => [.reg x.val, .reg z.val]
  | .sub x y z => [.reg x.val, .reg y.val, .reg z.val]
  | .mul x y z => [.reg x.val, .reg y.val, .reg z.val]
  | .div x y z => [.reg x.val, .reg y.val, .reg z.val]
  | .mod x y z => [.reg x.val, .reg y.val, .reg z.val]
  | .jumpn n => [.num n]
  | .calln x n => [.reg x.val, .num n]
  | .jeqzn x n => [.reg x.val, .num n]
  | .jnezn x n => [.reg x.val, .num n]
  | .jgtzn x n => [.reg x.val, .num n]
  | .jltzn x n => [.reg x.val, .num n]

/-- A number as bare decimal, a minus sign before a negative one (R109). -/
def decimalText (i : Int) : List Char :=
  if i < 0 then '-' :: Nat.toDigits 10 i.natAbs else Nat.toDigits 10 i.natAbs

/-- An operand's text: the register marker and the number, or the number (R109, R110). -/
def Operand.text : Operand → List Char
  | .reg n => 'r' :: decimalText (n : Int)
  | .num i => decimalText i

/-- `<mnemonic> <decoded operands>`, single spaces between (R109; notes/assumptions/25.md). -/
def disassemble (i : Instr) : List Char :=
  mnemonicText i.mnemonic ++ (instrOperands i).flatMap (fun o => ' ' :: o.text)

/-- Disassembly of a word, none where it does not decode (R88, R109). -/
def disassembleWord (w : Word) : Option (List Char) :=
  match decode w with
  | .ok i => some (disassemble i)
  | .error _ => none

end Sys2Proof.Machine
end

