-- ==== Sys2Proof/Machine/Assembler.lean ====
section
/-! DEFINITION. The assembler and the binary loader of `configure` (spec/30_encoding.md R101 to R106,
spec/70_reset_and_hazards.md R250): a source text becomes a list of words or is rejected by name. -/

namespace Sys2Proof.Machine

/-- Why a source is rejected (R101, R250). -/
inductive AsmError where
  /-- The line is not a line number and a mnemonic. -/
  | unparsedLine
  /-- The line number is not the running count of non-blank lines (R102). -/
  | wrongLineNumber
  /-- No alias and no canonical mnemonic (R107). -/
  | unknownMnemonic
  /-- Something after the third operand (R101). -/
  | trailingGarbage
  /-- An operand token that is neither a register nor a number. -/
  | unparsedOperand
  /-- An operand absent where the definition requires one (R101). -/
  | missingOperand
  /-- An operand present where the definition expects none (R101). -/
  | unexpectedOperand
  /-- An operand whose class its slot does not accept (R104). -/
  | operandClass
  /-- Binary mode: a line that is not exactly 16 binary digits after stripping (R100). -/
  | notAWord
  /-- More than 256 words (R250, D15). -/
  | programTooLong
  deriving DecidableEq, Repr

/-- The operand a slot takes from the operands of the line: its value (0 for an absent slot) and the operands left. -/
def fillSlot (slot : Slot) (operands : List Operand) : Except AsmError (Int × List Operand) :=
  if slot = .absent then .ok (0, operands)
  else
    match operands with
    | [] => .error .missingOperand
    | o :: rest => if slotAccepts slot o.tokenClass then .ok (o.value, rest) else .error .operandClass

/-- A slot's value as a register number. -/
def slotRegister (v : Int) : Reg := ⟨v.toNat % 16, Nat.mod_lt _ (by decide)⟩

/-- The value of the definition's numeric slot among the values of its slots (R82, R83). -/
def slotNumber (d : InstrDef) (a b c : Int) : Int :=
  if d.slot1.numeric then a else if d.slot2.numeric then b else c

/-- The word of a definition with the operands of a line, in the order of its present slots (R94, R101, R105, R106). -/
def assembleOperands (d : InstrDef) (operands : List Operand) : Except AsmError Word :=
  match fillSlot d.slot1 operands with
  | .error e => .error e
  | .ok (a, rest1) =>
    match fillSlot d.slot2 rest1 with
    | .error e => .error e
    | .ok (b, rest2) =>
      match fillSlot d.slot3 rest2 with
      | .error e => .error e
      | .ok (c, rest3) =>
        match rest3 with
        | [] => .ok (encodeWith d (slotRegister a) (slotRegister b) (slotRegister c) (slotNumber d a b c))
        | _ :: _ => .error .unexpectedOperand

/-- The operand tokens of a line. -/
def parseOperands : List (List Char) → Except AsmError (List Operand)
  | [] => .ok []
  | t :: ts =>
    match parseOperand t with
    | none => .error .unparsedOperand
    | some o =>
      match parseOperands ts with
      | .error e => .error e
      | .ok os => .ok (o :: os)

/-- One line, its tokens given, as the line of number `k` (R101, R102, R105). -/
def assembleLine (k : Nat) (tokens : List (List Char)) : Except AsmError Word :=
  match tokens with
  | number :: name :: rest =>
    match parseNat number with
    | none => .error .unparsedLine
    | some n =>
      if n ≠ k then .error .wrongLineNumber
      else
        match lookupMnemonic name with
        | none => .error .unknownMnemonic
        | some m =>
          if 3 < rest.length then .error .trailingGarbage
          else
            match parseOperands rest with
            | .error e => .error e
            | .ok operands => assembleOperands (defOf m) operands
  | _ => .error .unparsedLine

/-- The lines from number `k` on; one rejected line rejects the whole program (R101). -/
def assembleLines : Nat → List (List (List Char)) → Except AsmError (List Word)
  | _, [] => .ok []
  | k, tokens :: lines =>
    match assembleLine k tokens with
    | .error e => .error e
    | .ok w =>
      match assembleLines (k + 1) lines with
      | .error e => .error e
      | .ok ws => .ok (w :: ws)

/-- Text mode: the non-blank, comment-stripped lines, assembled (R101, R250). -/
def assembleText (source : List Char) : Except AsmError (List Word) :=
  assembleLines 0 (((sourceLines source).map (fun l => tokensOf (stripComment l))).filter (fun ts => !ts.isEmpty))

/-- The words of binary lines (R100, R250). -/
def binaryWords : List (List Char) → Except AsmError (List Word)
  | [] => .ok []
  | l :: ls =>
    match parseBinaryWord l with
    | none => .error .notAWord
    | some w =>
      match binaryWords ls with
      | .error e => .error e
      | .ok ws => .ok (w :: ws)

/-- Binary mode: each non-blank line is one word, whether or not it decodes (R100, R250, D28). -/
def loadBinary (source : List Char) : Except AsmError (List Word) :=
  binaryWords ((sourceLines source).filter (fun l => l.any (fun c => !isSpace c)))

/-- The program of a `configure`: the words of its source, at most 256 of them, or the reason it is rejected
(R250, D15). -/
def programOf (mode : ConfigMode) (source : List Char) : Except AsmError (List Word) :=
  match (match mode with
    | .text => assembleText source
    | .binary => loadBinary source) with
  | .error e => .error e
  | .ok ws => if Config.memWords < ws.length then .error .programTooLong else .ok ws

end Sys2Proof.Machine
end

