-- ==== Sys2Proof/Machine/HostOps.lean ====
section
/-! DEFINITION. The host operations (spec/70_reset_and_hazards.md R250 to R255): what each does to the state, in which
run states it is allowed, and what the host reads. Each takes effect between two cycles (R254). -/

namespace Sys2Proof.Machine

/-! ### configure (R250 to R252) -/

/-- The memory a `configure` loads: the program's words from address 0, then INIT_MEM (R251). -/
def bootMemory (words : List Word) (initMem : Memory) : Memory :=
  memTabulate (fun a => if a < words.length then words.getD a 0 else memGet initMem a) Config.memWords []

/-- r0 to r15 after a `configure`: r1 to r15 are INIT_REGS (R25, R252). -/
def bootRegs (initRegs : Vector Word 15) : Vector Word 16 := #v[(0 : Word)] ++ initRegs

/-- The machine after a successful `configure` with these words (R251, R252). -/
def bootState (words : List Word) (launch : Launch) : State :=
  { State.reset with
    regs := bootRegs launch.initRegs
    mem := bootMemory words launch.initMem
    codeLimit := words.length }

/-- `configure`: on success everything is reset and the program loaded; on rejection no word is loaded and the core must
not be run (R250 to R252, D15; notes/assumptions/10.md). The host's own plan is not machine state and stays. -/
def State.configure (s : State) (mode : ConfigMode) (source : List Char) (launch : Launch) : State :=
  match programOf mode source with
  | .ok words => { bootState words launch with hostQ := s.hostQ }
  | .error _ => { s with rejected := true }

/-! ### Breakpoint sets (R36, R37, R255) -/

/-- A set held as a list, in order of insertion, with one more element (notes/assumptions/14.md). -/
def addEntry {α : Type} [DecidableEq α] (entries : List α) (e : α) : List α :=
  if e ∈ entries then entries else entries ++ [e]

/-! ### What the host reads (R255, R256) -/

/-- What `get-state` reads (R255). -/
structure Snapshot where
  regs : List Word
  mem : Memory
  pc : Word
  modified : List Nat
  deriving DecidableEq, Repr

/-- The answer of `get-state`: registers, memory, `pc`, MODIFIED (R255). -/
def State.snapshot (s : State) : Snapshot where
  regs := (List.finRange 16).map s.reg
  mem := s.mem
  pc := s.pc
  modified := s.modified

/-! ### The effect of an operation (R255) -/

/-- The run state is Ready or Paused. -/
def State.readyOrPaused (s : State) : Bool := decide (s.runState = .ready) || decide (s.runState = .paused)

/-- Operations the host may issue while the core is Running: only `pause` (R254, D26). -/
def HostOp.landsWhileRunning : HostOp → Bool
  | .configure _ _ _ => false
  | .continue => false
  | .step _ => false
  | .pause => true
  | .goto _ => false
  | .supply _ => false
  | .setInstrBp _ => false
  | .clearInstrBps => false
  | .setDataBp _ => false
  | .clearDataBps => false
  | .setExcBps _ => false
  | .getState => false
  | .getLastException => false

/-- `continue` and `step`, after they set the step mode: resume, unless the last `configure` was rejected
(R250, R255, D15). -/
def resumeUnlessRejected (s : State) : Host.Outcome State Fault Refusal :=
  if s.rejected then .refused .mustNotRun else .next s.resume

/-- `goto(address)`: `pc` moves, the latch and SUPPRESS are cleared, the core is Paused with reason `pause`
(R255, D30). A Ready core becomes Paused too, which R240 does not list (DEDUCED, unsafe: notes/assumptions/31.md), and
STOP_IDS is emptied (R33; notes/assumptions/11.md). -/
def State.goto (s : State) (address : Word) : State :=
  { s with
    pc := address
    maskLatch := none
    suppress := false
    runState := .paused
    stopReason := .pause
    stopIds := [] }

/-- `supply(input)`: answers the `read` in progress (R192, R193, R255). Ending the `read` would run the core, so after a
rejected `configure` the answer, an integer or end of input, is refused and the state kept (R250, D15, I11; that this is
how the core is stuck is the model's choice, DESIGN CHOICE, safe: notes/assumptions/10.md). -/
def supplyAnswer (s : State) (answer : InputAnswer) : Host.Outcome State Fault Refusal :=
  match s.runState with
  | .awaitingInput x => if s.rejected then .refused .mustNotRun else .next (answerRead s x answer)
  | .ready => .refused .hostOpNotAllowed
  | .running => .refused .hostOpNotAllowed
  | .paused => .refused .hostOpNotAllowed
  | .halted => .refused .hostOpNotAllowed

/-- An operation allowed in Ready and Paused only. -/
def whenReadyOrPaused (s : State) (k : Host.Outcome State Fault Refusal) : Host.Outcome State Fault Refusal :=
  if s.readyOrPaused then k else .refused .hostOpNotAllowed

/-- An operation that the table of R255 allows in every state that is not Running. In the states where R254 allows it
too it has its effect; in the others the two rules disagree and `Config.hostTableHolds` says (notes/assumptions/7.md). -/
def landWhere (s : State) (agreed : Bool) (k : Host.Outcome State Fault Refusal) : Host.Outcome State Fault Refusal :=
  if s.runState = .running then .refused .hostOpNotAllowed
  else if agreed || Config.hostTableHolds then k
  else .refused .hostOpNotAllowed

/-- `configure`: R254 and R255 agree on Ready, Paused and Halted. -/
def whenConfigurable (s : State) (k : Host.Outcome State Fault Refusal) : Host.Outcome State Fault Refusal :=
  landWhere s (s.readyOrPaused || decide (s.runState = .halted)) k

/-- The breakpoint and get operations: R254 and R255 agree on Ready and Paused. -/
def whenNotRunning (s : State) (k : Host.Outcome State Fault Refusal) : Host.Outcome State Fault Refusal :=
  landWhere s s.readyOrPaused k

/-- The effect of a host operation, row by row of R255; an operation its row does not allow in the present run state is
refused by name (notes/assumptions/6.md). -/
def applyHostOp (o : HostOp) (s : State) : Host.Outcome State Fault Refusal :=
  match o with
  | .configure mode source launch => whenConfigurable s (.next (s.configure mode source launch))
  | .continue => whenReadyOrPaused s (resumeUnlessRejected { s with stepMode := false })
  | .step filter => whenReadyOrPaused s (resumeUnlessRejected { s with stepMode := true, stepFilter := filter })
  | .pause => .next { s with pauseReq := true }
  | .goto address => whenReadyOrPaused s (.next (s.goto address))
  | .supply answer => supplyAnswer s answer
  | .setInstrBp entry => whenNotRunning s (.next { s with ibp := addEntry s.ibp entry })
  | .clearInstrBps => whenNotRunning s (.next { s with ibp := [] })
  | .setDataBp entry => whenNotRunning s (.next { s with dbp := addEntry s.dbp entry })
  | .clearDataBps => whenNotRunning s (.next { s with dbp := [] })
  | .setExcBps enable => whenNotRunning s (.next { s with excEn := enable })
  | .getState => whenNotRunning s (.next s)
  | .getLastException => whenNotRunning s (.next s)

end Sys2Proof.Machine
end

