-- ==== Sys2Proof/Machine/Cycle.lean ====
section
/-! DEFINITION. The execution cycle (spec/60_exceptions.md R209, R210): pause request, fetch bound, instruction
breakpoint, fetch and decode, then the decoded instruction's `exec`; and the turn of the host (R254, R255). -/

namespace Sys2Proof.Machine

/-- The ids of the instruction breakpoints at `pc` (R209 step 3, R230). -/
def instrBpIds (s : State) : List BpId :=
  (s.ibp.filter (fun e => decide (e.addr = s.pc.toNat))).map (fun e => e.id)

/-- A fetched word that does not decode: the fetch watch comes first (steps 4 and 5, R210), then the fatal
`invalid-instruction` (R88, R91, R201); an equal-mask tie is refused (R87, I4). -/
def undecoded (s : State) (w : Word) (e : DecodeError) : Host.Outcome State Fault Refusal :=
  match watchIds s (fetchAccess s) with
  | id :: ids => .next (s.stop .paused .dataBreakpoint (id :: ids))
  | [] =>
    match e with
    | .noMatch => .next (s.takeFatal .invalidInstruction 0)
    | .numericThirdSlot => .next (s.takeFatal .invalidInstruction 0)
    | .equalMaskTie => .refused (.ambiguousEncoding w)

/-- Step 4's fetch, the decoder, and the decoded instruction (R64, R69, R209). -/
def fetchAndExec (s : State) : Host.Outcome State Fault Refusal :=
  match s.memRead (s.pc.toNat : Int) with
  | none => .fault (.undefinedAddress (s.pc.toNat : Int))
  | some w =>
    match decode w with
    | .ok i => exec i s
    | .error e => undecoded s w e

/-- One cycle of a running core (R209). -/
def cycle (s : State) : Host.Outcome State Fault Refusal :=
  if s.pauseReq then .next ({ s with pauseReq := false }.stop .paused .pause [])
  else if s.codeLimit ≤ s.pc.toNat then .next (s.takeFatal .executeOutsideSegment s.pc)
  else if instrBpIds s ≠ [] ∧ s.suppress = false then .next (s.stop .paused .breakpoint (instrBpIds s))
  else fetchAndExec s

/-- The core's turn: a cycle while RUNSTATE = Running and no turn otherwise (R209, R240; notes/assumptions/8.md);
after a rejected `configure` it must not run (R250, I11). -/
def coreTurn (s : State) : Host.Outcome State Fault Refusal :=
  if s.runState = .running then (if s.rejected then .refused .mustNotRun else cycle s) else .next s

/-- One step of machine and host: the host's next operation lands between two cycles if it may be issued now, and waits
for the core to leave Running if it may not; otherwise the core has its turn (R254, R255; notes/assumptions/5.md). -/
def turn (s : State) : Host.Outcome State Fault Refusal :=
  match s.hostQ with
  | [] => coreTurn s
  | .tick :: rest => coreTurn { s with hostQ := rest }
  | .op o :: rest =>
    if s.runState = .running ∧ o.landsWhileRunning = false then coreTurn s
    else applyHostOp o { s with hostQ := rest }

/-! ### Placing a word for the next fetch -/

/-- What the host is going to do, without an operation that would land before the next cycle of a running core. -/
def keepHostQ (q : List HostEvent) : List HostEvent :=
  match q with
  | [] => []
  | .tick :: rest => .tick :: rest
  | .op o :: rest => if o.landsWhileRunning then [] else .op o :: rest

/-- Where the next fetch reads: `pc`, or 0 where `pc` is no memory address. -/
def fetchPc (s : State) : Word := if s.pc.toNat < Config.memWords then s.pc else 0

/-- The state whose next step fetches and runs the word `w`: the word at `pc` inside the code segment, the core running,
nothing pending that would come first (notes/assumptions/4.md). -/
def placeFetchWord (s : State) (nbits w : Nat) : State :=
  { s with
    pc := fetchPc s
    mem := memPut s.mem (fetchPc s).toNat (BitVec.ofNat 16 (w % 2 ^ nbits))
    codeLimit := max s.codeLimit ((fetchPc s).toNat + 1)
    runState := .running
    pauseReq := false
    suppress := s.suppress || !(s.ibp.isEmpty && s.dbp.isEmpty)
    hostQ := keepHostQ s.hostQ
    rejected := false }

end Sys2Proof.Machine
end

