-- ==== Sys2Proof/Machine/Step.lean ====
section
/-! DEFINITION. The step of the machine, and the state whose next step runs a given word. Both only call
Sys2Proof/Machine/Cycle.lean. -/

namespace Sys2Proof.Machine

/-- One step: the host's next operation if it may land now, else one cycle of the core (R209, R254). -/
def step (s : State) : Host.Outcome State Fault Refusal := turn s

/-- `s` with the instruction whose bits are `w` stored where `step` fetches its next instruction; it stands for the
loading of a program from outside the machine (notes/assumptions/4.md). -/
def State.withFetchWord (s : State) (nbits w : Nat) : State := placeFetchWord s nbits w

end Sys2Proof.Machine
end

