-- ==== Sys2Proof/Safety.lean ====
section
/-! DEFINITION. What the claims speak of: the end of a run and its observation (spec/70_reset_and_hazards.md R256), when no
check of a cycle stops an instruction, what an instruction that completes leaves as it was, and the invariant of the
state. -/

namespace Sys2Proof.Machine

/-! ### The end of a run (R256) -/

/-- The run has ended (R256). -/
abbrev State.ended (s : State) : Prop := s.runState = .halted

/-- The run ended cleanly: `halt` or end of input (R256). -/
abbrev State.endedCleanly (s : State) : Prop :=
  s.runState = .halted ∧ (s.stopReason = .halt ∨ s.stopReason = .inputEnd)

/-- The run ended in a fault: a fatal exception, reported as `fatal` or as `exception` (R214, R256). -/
abbrev State.endedInFault (s : State) : Prop :=
  s.runState = .halted ∧ (s.stopReason = .fatal ∨ s.stopReason = .exception)

/-- What an ended run shows (R256). -/
structure Observation where
  out : List OutItem
  mem : Memory
  regs : List Word
  pc : Word
  stopReason : StopReason
  lastExc : LastExc
  deriving DecidableEq, Repr

/-- The observation of a state (R256). -/
def State.observe (s : State) : Observation where
  out := s.out
  mem := s.mem
  regs := (List.finRange 16).map s.reg
  pc := s.pc
  stopReason := s.stopReason
  lastExc := s.lastExc

/-! ### When an instruction executes -/

/-- A data-breakpoint entry watches an access: same space, same address, the flag of the direction set (R231). -/
abbrev WatchedBy (e : DataBp) (a : Access) : Prop :=
  e.space = a.space ∧ (e.addr : Int) = a.addr ∧
    ((a.dir = .read ∧ e.onRead = true) ∨ (a.dir = .write ∧ e.onWrite = true))

/-- No data breakpoint stops the cycle of the instruction: SUPPRESS is set, or no entry watches the fetch, a memory read
of `pc`, or an access (R212 (c), R231). -/
abbrev Unwatched (i : Instr) (s : State) : Prop :=
  s.suppress = true ∨ ∀ e ∈ s.dbp, ∀ a ∈ readMem (s.pc.toNat : Int) :: accesses i s, ¬ WatchedBy e a

/-- Every memory access of the instruction is in [0, 255] (R212 (a)). -/
abbrev InsideMemory (i : Instr) (s : State) : Prop :=
  ∀ a ∈ accesses i s, a.space = .memory → 0 ≤ a.addr ∧ a.addr ≤ 255

/-- No maskable exception stops the instruction: a memory access below CODE_LIMIT is of a kind that is not enabled, or
suppressed, or latched at this `pc` (R212 (b), R216). -/
abbrev Unmasked (i : Instr) (s : State) : Prop :=
  ∀ a ∈ accesses i s, a.space = .memory → a.addr < (s.codeLimit : Int) →
    s.excEn.get (segmentKind a.dir) = none ∨ s.suppress = true ∨ s.maskLatch = some (segmentKind a.dir, s.pc)

/-- No check of step 4 stops the instruction, in the words of R212. -/
abbrev Undisturbed (i : Instr) (s : State) : Prop := InsideMemory i s ∧ Unmasked i s ∧ Unwatched i s

/-! ### What an instruction leaves as it was -/

/-- The configuration the host sets, which no instruction writes: CODE_LIMIT, EXC_EN, IBP, DBP, PAUSE_REQ, STEP_MODE,
STEP_FILTER and the model's `rejected`. -/
abbrev SameConfig (s t : State) : Prop :=
  t.codeLimit = s.codeLimit ∧ t.excEn = s.excEn ∧ t.ibp = s.ibp ∧ t.dbp = s.dbp ∧ t.pauseReq = s.pauseReq ∧
    t.stepMode = s.stepMode ∧ t.stepFilter = s.stepFilter ∧ t.rejected = s.rejected

/-- Every memory word and MODIFIED are unchanged. -/
abbrev SameMemory (s t : State) : Prop := (∀ a, t.memRead a = s.memRead a) ∧ t.modified = s.modified

/-- Every register is unchanged. -/
abbrev SameRegs (s t : State) : Prop := ∀ r, t.reg r = s.reg r

/-- Every register but one is unchanged. -/
abbrev SameRegsBut (x : Reg) (s t : State) : Prop := ∀ r, r ≠ x → t.reg r = s.reg r

/-- `x[x] <- v` was done: the register holds the value, register 0 still reads 0 (R22, R23). -/
abbrev RegHolds (t : State) (x : Reg) (v : Word) : Prop := t.reg x = if x = 0 then 0 else v

/-- What steps 8 and 10 of a cycle with this mnemonic and next `pc` leave, and what no instruction that completes
touches: the host's configuration, LAST_EXC, and the run state, reason and ids unless step mode stops (R209, R216,
R235). -/
abbrev Retired (m : Mnemonic) (target : Word) (s t : State) : Prop :=
  SameConfig s t ∧ t.lastExc = s.lastExc ∧ t.pc = target ∧ t.suppress = false ∧
    t.maskLatch = (if target = s.pc then s.maskLatch else none) ∧
    (if s.stepMode = true ∧ (s.stepFilter = none ∨ s.stepFilter = some m)
      then t.runState = .paused ∧ t.stopReason = .step ∧ t.stopIds = []
      else t.runState = s.runState ∧ t.stopReason = s.stopReason ∧ t.stopIds = s.stopIds)

/-- The part of `Retired`'s frame that no completing instruction but `write` and `read` touches: OUT and the host's
plan. -/
abbrev SameChannels (s t : State) : Prop := t.out = s.out ∧ t.hostQ = s.hostQ

/-- The instruction completes: it writes this value to register `x` (nothing if that is r0), goes to `pc + 1`, and leaves
every other register, memory, OUT, the host's plan and the host's configuration as they were. -/
abbrev WritesRegister (i : Instr) (x : Reg) (v : Word) (s : State) : Prop :=
  ∃ t, exec i s = .next t ∧ RegHolds t x v ∧ SameRegsBut x s t ∧ SameMemory s t ∧ SameChannels s t ∧
    Retired i.mnemonic (s.pc + 1) s t

/-- The instruction completes: it only moves `pc` to this target, and leaves every register, memory, OUT, the host's plan
and the host's configuration as they were. -/
abbrev TransfersTo (i : Instr) (target : Word) (s : State) : Prop :=
  ∃ t, exec i s = .next t ∧ SameRegs s t ∧ SameMemory s t ∧ SameChannels s t ∧ Retired i.mnemonic target s t

/-- The one memory word at `a` was written (R62): it reads the value, every other address reads as before, and `a` joined
MODIFIED. -/
abbrev StoredAt (a : Int) (v : Word) (s t : State) : Prop :=
  (0 ≤ a ∧ a ≤ 255) ∧ t.memRead a = some v ∧ (∀ b, b ≠ a → t.memRead b = s.memRead b) ∧
    (∀ b, b ∈ t.modified ↔ b = a.toNat ∨ b ∈ s.modified)

/-- A stop of the cycle before its effect leaves everything but the stop report as it was: registers, memory, `pc`, OUT,
LAST_EXC, the suppression state and the host's configuration (R209). -/
abbrev StoppedWith (rs : RunState) (r : StopReason) (ids : List BpId) (s t : State) : Prop :=
  t.runState = rs ∧ t.stopReason = r ∧ t.stopIds = ids ∧ SameRegs s t ∧ SameMemory s t ∧ SameConfig s t ∧
    SameChannels s t ∧ t.pc = s.pc ∧ t.lastExc = s.lastExc ∧ t.suppress = s.suppress ∧ t.maskLatch = s.maskLatch

/-- What a fatal exception leaves (R214): LAST_EXC, the report in OUT, Halted with the reason and ids that EXC_EN gives,
and nothing else changed. -/
abbrev HaltedBy (k : ExcKind) (addr : Word) (s t : State) : Prop :=
  t.lastExc = ⟨true, k.code, s.pc, addr⟩ ∧ t.out = s.out ++ [.report k] ∧ t.runState = .halted ∧
    (match s.excEn.get k with
      | some id => t.stopReason = .exception ∧ t.stopIds = [id]
      | none => t.stopReason = .fatal ∧ t.stopIds = []) ∧
    SameRegs s t ∧ SameMemory s t ∧ SameConfig s t ∧ t.pc = s.pc ∧ t.suppress = s.suppress ∧
    t.maskLatch = s.maskLatch ∧ t.hostQ = s.hostQ

/-- What a maskable exception that stops leaves (R215): LAST_EXC, MASK_LATCH, Paused with its breakpoint's id, and
nothing else changed. -/
abbrev PausedBy (k : ExcKind) (addr : Word) (id : BpId) (s t : State) : Prop :=
  t.lastExc = ⟨true, k.code, s.pc, addr⟩ ∧ t.maskLatch = some (k, s.pc) ∧ t.runState = .paused ∧
    t.stopReason = .exception ∧ t.stopIds = [id] ∧
    SameRegs s t ∧ SameMemory s t ∧ SameConfig s t ∧ SameChannels s t ∧ t.pc = s.pc ∧ t.suppress = s.suppress

/-- An outcome with its next state changed, a fault or refusal as it is. -/
def mapNext (f : State → State) (o : Host.Outcome State Fault Refusal) : Host.Outcome State Fault Refusal :=
  match o with
  | .next t => .next (f t)
  | .fault r => .fault r
  | .refused r => .refused r

/-! ### When the core takes a cycle -/

/-- The next step is a cycle of the core with the host's plan unchanged: Running, not rejected, and no host operation
lands now (R209, R254). -/
abbrev TakesCycle (s : State) : Prop :=
  s.runState = .running ∧ s.rejected = false ∧
    (s.hostQ = [] ∨ ∃ o rest, s.hostQ = .op o :: rest ∧ o.landsWhileRunning = false)

/-- The cycle reaches its fetch: no pause request, `pc` inside the code segment, no instruction breakpoint that stops
(R209 steps 1 to 3). -/
abbrev ReachesFetch (s : State) : Prop :=
  s.pauseReq = false ∧ s.pc.toNat < s.codeLimit ∧
    (s.suppress = true ∨ ∀ e ∈ s.ibp, e.addr ≠ s.pc.toNat)

/-! ### When a host operation lands -/

/-- A host operation gives this next state where R254 and R255 agree that it may land. Elsewhere the free value
`Config.hostTableHolds` says whether it lands or is refused (notes/assumptions/7.md). -/
abbrev Lands (agreed : Prop) (s t : State) : Prop :=
  (agreed → step s = .next t) ∧
    (¬ agreed → step s = if Config.hostTableHolds then .next t else .refused .hostOpNotAllowed)

/-! ### The invariant -/

/-- Addresses strictly rising from a lowest one on, and below 256 (MODIFIED, R40). -/
def risingFrom : Nat → List Nat → Bool
  | _, [] => true
  | lo, a :: as => decide (lo ≤ a) && decide (a < Config.memWords) && risingFrom (a + 1) as

/-- The storage of the state is canonical: memory's form, CODE_LIMIT in [0, 256] (R31), nothing in r0's slot (R22),
MODIFIED a set of memory addresses (R40). -/
abbrev State.StorageInv (s : State) : Prop :=
  s.mem.wf = true ∧ s.codeLimit ≤ Config.memWords ∧ s.regs[0] = 0 ∧ risingFrom 0 s.modified = true

/-- STOP_IDS is empty unless the reason is a breakpoint, a data breakpoint or an exception (R33). -/
abbrev State.StopIdsInv (s : State) : Prop :=
  s.stopIds = [] ∨ s.stopReason = .breakpoint ∨ s.stopReason = .dataBreakpoint ∨ s.stopReason = .exception

/-- LAST_EXC is all zero until an exception is recorded, and then holds the code of a kind; its address is 0 for the
kinds without one, codes 1 and 6 (R34, R200). -/
abbrev State.LastExcInv (s : State) : Prop :=
  s.lastExc = LastExc.empty ∨
    (s.lastExc.valid = true ∧ s.lastExc.kind ≠ 0 ∧ s.lastExc.kind ≠ 7 ∧
      (s.lastExc.kind = 1 ∨ s.lastExc.kind = 6 → s.lastExc.addr = 0))

/-- MASK_LATCH holds only maskable kinds (R215, R216). -/
abbrev State.LatchInv (s : State) : Prop :=
  ∀ k p, s.maskLatch = some (k, p) → k.maskable = true

/-- The stop report agrees with the run state: none while Ready, a pausing reason while Paused, a halting reason while
Halted (R32, R33, R240). -/
abbrev State.ReportInv (s : State) : Prop :=
  (s.runState = .ready → s.stopReason = .none) ∧
  (s.runState = .paused → s.stopReason = .pause ∨ s.stopReason = .breakpoint ∨ s.stopReason = .dataBreakpoint ∨
    s.stopReason = .exception ∨ s.stopReason = .step) ∧
  (s.runState = .halted → s.stopReason = .halt ∨ s.stopReason = .inputEnd ∨ s.stopReason = .fatal ∨
    s.stopReason = .exception)

/-- The invariant of the machine. -/
abbrev State.Inv (s : State) : Prop :=
  s.StorageInv ∧ s.StopIdsInv ∧ s.LastExcInv ∧ s.LatchInv ∧ s.ReportInv

end Sys2Proof.Machine
end

