-- ==== Sys2Proof/Certificates/Slice0/Obligations.lean ====
section
/-! DEFINITION. The statements about this model, for the provers. Each cites the rules of spec/ it formalises. -/

open Sys2Proof Sys2Proof.Machine

/-! ### Decoder, encoder, assembler (30_encoding) -/

/-- Words written out from the encodings of R95 decode to the instructions they stand for, one per family. -/
def Obligations.SampleWordsDecode : Prop :=
  decode 0x6123 = .ok (.add 1 2 3) ∧ decode 0x9312 = .ok (.div 3 1 2) ∧ decode 0x51FF = .ok (.addn 1 (-1)) ∧
    decode 0x4EF3 = .ok (.pushr 14 15) ∧ decode 0x2180 = .ok (.loadn 1 128) ∧ decode 0xBE05 = .ok (.calln 14 5) ∧
    decode 0x0E03 = .ok (.jumpr 14) ∧ decode 0x0102 = .ok (.write 1) ∧ decode 0x0100 = .error .noMatch

/-- The masks derived by R84 are the mask column of the opcode table (R95), and every row meets the slot invariant
(R82). -/
def Obligations.DerivedMasksOfTheTable : Prop :=
  opcodeTable.map InstrDef.mask =
    ([0xFFFF, 0xF0FF, 0xF0FF, 0xF0FF, 0xF000, 0xF000, 0xF000, 0xF00F, 0xF00F, 0xF00F, 0xF00F, 0xF000, 0xFFFF] ++
      [0xF00F, 0xF000, 0xF0F0, 0xF000, 0xF000, 0xF000, 0xF000, 0xFF00, 0xF000, 0xF000, 0xF000, 0xF000, 0xF000]) ∧
    ∀ d ∈ opcodeTable, d.slotsOk = true

/-- A decoded word is read by a definition that matches it, and no matching definition has a larger mask; where decoding
fails, no definition matches (R85, R86). -/
def Obligations.DecoderSelectsLargestMask : Prop :=
  ∀ w : Word,
    (∀ i, decode w = .ok i →
      ((defOf i.mnemonic).opcode ^^^ w) &&& (defOf i.mnemonic).mask = 0 ∧
        ∀ d ∈ opcodeTable, (d.opcode ^^^ w) &&& d.mask = 0 → d.mask.toNat ≤ (defOf i.mnemonic).mask.toNat) ∧
    (∀ e, decode w = .error e → ∀ d ∈ opcodeTable, (d.opcode ^^^ w) &&& d.mask ≠ 0)

/-- With the opcode table no two definitions that match one word have equal masks, so no decoding is a tie (R87). -/
def Obligations.NoEqualMaskTie : Prop :=
  (∀ (w : Word) (d e : InstrDef), d ∈ opcodeTable → e ∈ opcodeTable → d.matchesWord w = true →
    e.matchesWord w = true → d.mask = e.mask → d = e) ∧
    ∀ w : Word, decode w ≠ .error .equalMaskTie

/-- The words that do not decode are those of the opcode nibbles 0 and 4 that R97 lists. -/
def Obligations.InvalidWordsCharacterised : Prop :=
  ∀ w : Word, decode w = .error .noMatch ↔
    (w >>> 12 = 0 ∧ w ≠ 0 ∧ w &&& 0x00FF ≠ 1 ∧ w &&& 0x00FF ≠ 2 ∧ w &&& 0x00FF ≠ 3) ∨
      (w >>> 12 = 4 ∧ 4 ≤ (w &&& 0x000F).toNat)

/-- Decoding the word of a well-formed instruction gives the instruction, or its more specific synonym where R96 names
one; so an instruction that is its own canonical reading comes back unchanged (R94, R96, R112). -/
def Obligations.DecodeOfEncode : Prop :=
  (∀ i : Instr, i.wf = true → decode (encode i) = .ok i.canonical) ∧
    ∀ i : Instr, i.wf = true → i.canonical = i → decode (encode i) = .ok i

/-- Encoding a decoded word gives the word again, and what the decoder answers is well formed and its own canonical
reading (R94). -/
def Obligations.EncodeOfDecode : Prop :=
  ∀ (w : Word) (i : Instr), decode w = .ok i → encode i = w ∧ i.wf = true ∧ i.canonical = i

/-- The two readings of a synonymous word have the same effect on registers, memory and `pc`, where no data breakpoint
tells their access tables apart (R96). -/
def Obligations.SynonymsHaveSameEffect : Prop :=
  ∀ s : State, (s.suppress = true ∨ s.dbp = []) →
    ∀ i ∈ [Instr.copy 0 0, .add 0 0 0] ++ (List.finRange 16).flatMap (fun x => (List.finRange 16).flatMap
        (fun y => [Instr.add x y 0, .sub x 0 y])) ++ (List.range 256).map (fun n => Instr.calln 0 n),
      ∃ t u, exec i s = .next t ∧ exec i.canonical s = .next u ∧ SameRegs t u ∧ SameMemory t u ∧ u.pc = t.pc

/-- Assembling an instruction's own operands, in the order of the text, gives its word (R94, R105, R106). -/
def Obligations.AssembledOperandsAreEncoded : Prop :=
  ∀ i : Instr, i.wf = true → assembleOperands (defOf i.mnemonic) (instrOperands i) = .ok (encode i)

/-- A register slot accepts r0 to r15 and no number, a signed slot the numbers in [-128, 127], an unsigned slot the
numbers in [0, 255], and neither of these a register (R103, R104). -/
def Obligations.SlotsAcceptTheirRanges : Prop :=
  (∀ n, slotAccepts .register (Operand.reg n).tokenClass = true ↔ n ≤ 15) ∧
    (∀ i, slotAccepts .register (Operand.num i).tokenClass = false) ∧
    (∀ i, slotAccepts .signed8 (Operand.num i).tokenClass = true ↔ -128 ≤ i ∧ i ≤ 127) ∧
    (∀ n, slotAccepts .signed8 (Operand.reg n).tokenClass = false) ∧
    (∀ i, slotAccepts .unsigned8 (Operand.num i).tokenClass = true ↔ 0 ≤ i ∧ i ≤ 255) ∧
    (∀ n, slotAccepts .unsigned8 (Operand.reg n).tokenClass = false) ∧
    (∀ slot, slotAccepts slot .invalidRegister = false ∧ slotAccepts slot .outOfRange = false)

/-- Binary text is a word exactly when it has 16 binary digits after the other characters are stripped, and the digit at
position `k` from the left is then bit `15 - k` (R58, R100). -/
def Obligations.BinaryTextIsMsbFirst : Prop :=
  ∀ text : List Char,
    ((text.filter (fun c => c == '0' || c == '1')).length ≠ 16 → parseBinaryWord text = none) ∧
    ((text.filter (fun c => c == '0' || c == '1')).length = 16 →
      ∃ w, parseBinaryWord text = some w ∧
        ∀ k, k < 16 → (w.getLsbD (15 - k) = true ↔
          (text.filter (fun c => c == '0' || c == '1'))[k]? = some '1'))

/-- In an accepted program the line of index `k` carries the number `k`, and it assembles to the word at address `k`; so
the first line is numbered 0 (R102). -/
def Obligations.AssembledLinesStandAtTheirNumbers : Prop :=
  ∀ (lines : List (List (List Char))) (words : List Word), assembleLines 0 lines = .ok words →
    words.length = lines.length ∧
      ∀ k line, lines[k]? = some line →
        (∃ number rest, line = number :: rest ∧ parseNat number = some k) ∧
          ∃ w, words[k]? = some w ∧ assembleLine k line = .ok w

/-- The disassembly of a well-formed instruction, put after the number of its address on a line of text, assembles to a
word that decodes to the instruction or its more specific synonym (R101, R109, R112). -/
def Obligations.AssembledTextDecodes : Prop :=
  ∀ (k : Nat) (i : Instr), k < 256 → i.wf = true →
    ∃ w, assembleLine k (tokensOf (stripComment (decimalText k ++ ' ' :: disassemble i))) = .ok w ∧
      decode w = .ok i.canonical

/-! ### Registers and memory (10_state, 20_memory) -/

/-- Register 0 reads 0 whatever is written to it; a write to any other register is read back and leaves the others
alone (R22, R23). -/
def Obligations.RegisterZeroIsHardWired : Prop :=
  ∀ (s : State) (r : Reg) (v : Word),
    s.reg 0 = 0 ∧ (s.setReg r v).reg 0 = 0 ∧ s.setReg 0 v = s ∧ (r ≠ 0 → (s.setReg r v).reg r = v) ∧
      ∀ q, q ≠ r → (s.setReg r v).reg q = s.reg q

/-- No instruction changes a register that its access table does not list as written (R24, R211). -/
def Obligations.RegisterWritesFollowAccessTable : Prop :=
  ∀ (i : Instr) (s t : State) (r : Reg), exec i s = .next t → writeReg r ∉ accesses i s → t.reg r = s.reg r

/-- No instruction depends on a register that its access table does not list: with another value there it does the same
to everything else and leaves that value (R24, R211). -/
def Obligations.UnnamedRegistersDoNotMatter : Prop :=
  ∀ (i : Instr) (s : State) (r : Reg) (v : Word),
    readReg r ∉ accesses i s → writeReg r ∉ accesses i s →
      exec i (s.setReg r v) = mapNext (fun t => t.setReg r v) (exec i s)

/-- The memory port reads and writes exactly the addresses 0 to 255; a write is read back, leaves every other word alone,
joins MODIFIED and keeps the canonical form (R62). -/
def Obligations.MemoryPortReadsWhatWasWritten : Prop :=
  ∀ (s : State) (a : Int) (v : Word), s.mem.wf = true →
    (0 ≤ a ∧ a ≤ 255 → ∃ t, s.memWrite a v = some t ∧ StoredAt a v s t ∧ t.mem.wf = true) ∧
      (¬ (0 ≤ a ∧ a ≤ 255) → s.memRead a = none ∧ s.memWrite a v = none)

/-- No instruction changes a memory word, or adds an address to MODIFIED, that its access table does not list as written
(R40, R62, R211). -/
def Obligations.MemoryWritesFollowAccessTable : Prop :=
  ∀ (i : Instr) (s t : State) (a : Nat), exec i s = .next t → writeMem (a : Int) ∉ accesses i s →
    t.memRead (a : Int) = s.memRead (a : Int) ∧ (a ∈ t.modified ↔ a ∈ s.modified)

/-- A word stored at `pc` is what the next cycle fetches and runs (R69). -/
def Obligations.StoredWordIsFetched : Prop :=
  ∀ (s t : State) (a : Int) (v : Word) (i : Instr), s.mem.wf = true → s.memWrite a v = some t →
    (t.pc.toNat : Int) = a → TakesCycle t → ReachesFetch t → decode v = .ok i → step t = exec i t

/-- No instruction changes CODE_LIMIT or the host's configuration: EXC_EN, IBP, DBP, PAUSE_REQ, STEP_MODE, STEP_FILTER
(R31, 10_state section 4). -/
def Obligations.InstructionsKeepHostConfiguration : Prop :=
  ∀ (i : Instr) (s t : State), exec i s = .next t → SameConfig s t

/-! ### Arithmetic (40_alu, 41_immediate) -/

/-- `add`, `sub` and `mul` write the exact result modulo 65536, the same whether the operands are read unsigned or
signed, and nothing else (R120, R126 to R128). -/
def Obligations.AddSubMulResult : Prop :=
  ∀ (x y z : Reg) (s : State),
    (Undisturbed (.add x y z) s →
      WritesRegister (.add x y z) x (BitVec.ofInt 16 ((s.reg y).toNat + (s.reg z).toNat)) s ∧
        WritesRegister (.add x y z) x (BitVec.ofInt 16 ((s.reg y).toInt + (s.reg z).toInt)) s) ∧
    (Undisturbed (.sub x y z) s →
      WritesRegister (.sub x y z) x (BitVec.ofInt 16 (((s.reg y).toNat : Int) - (s.reg z).toNat)) s ∧
        WritesRegister (.sub x y z) x (BitVec.ofInt 16 ((s.reg y).toInt - (s.reg z).toInt)) s) ∧
    (Undisturbed (.mul x y z) s →
      WritesRegister (.mul x y z) x (BitVec.ofInt 16 ((s.reg y).toNat * (s.reg z).toNat)) s ∧
        WritesRegister (.mul x y z) x (BitVec.ofInt 16 ((s.reg y).toInt * (s.reg z).toInt)) s)

/-- `div` and `mod` with a divisor that is not 0 write the quotient and the remainder of the signed operands: the
remainder is 0 or has the dividend's sign and is smaller than the divisor, so the quotient is truncated toward zero
(R122, R129, R130). -/
def Obligations.DivModResult : Prop :=
  ∀ (x y z : Reg) (s : State), (s.reg z).toInt ≠ 0 →
    ∃ q r : Int, (s.reg y).toInt = (s.reg z).toInt * q + r ∧ r.natAbs < (s.reg z).toInt.natAbs ∧
      (r = 0 ∨ r.sign = ((s.reg y).toInt).sign) ∧
      (Undisturbed (.div x y z) s → WritesRegister (.div x y z) x (BitVec.ofInt 16 q) s) ∧
      (Undisturbed (.mod x y z) s → WritesRegister (.mod x y z) x (BitVec.ofInt 16 r) s)

/-- `div` and `mod` with divisor 0 take the fatal `divide-by-zero`: no register is written, `pc` is unchanged, the core
halts (R124, R208, R214). -/
def Obligations.DivideByZeroIsFatal : Prop :=
  ∀ (x y z : Reg) (s : State), s.reg z = 0 →
    (Undisturbed (.div x y z) s → ∃ t, exec (.div x y z) s = .next t ∧ HaltedBy .divideByZero 0 s t) ∧
    (Undisturbed (.mod x y z) s → ∃ t, exec (.mod x y z) s = .next t ∧ HaltedBy .divideByZero 0 s t)

/-- `neg` writes the negated value, `copy` the value itself (R131, R132). -/
def Obligations.NegCopyResult : Prop :=
  ∀ (x y : Reg) (s : State),
    (Undisturbed (.neg x y) s → WritesRegister (.neg x y) x (-(s.reg y)) s) ∧
    (Undisturbed (.copy x y) s → WritesRegister (.copy x y) x (s.reg y) s)

/-- `setn` writes the signed constant, `addn` adds it to the register (R140, R141). -/
def Obligations.ImmediateResult : Prop :=
  ∀ (x : Reg) (n : Int) (s : State),
    (Undisturbed (.setn x n) s → WritesRegister (.setn x n) x (BitVec.ofInt 16 n) s) ∧
    (Undisturbed (.addn x n) s → WritesRegister (.addn x n) x (s.reg x + BitVec.ofInt 16 n) s)

/-! ### Loads and stores (42_memory_ops) -/

/-- `loadn` and `loadr` write the word at the effective address (R150, R151, R153). -/
def Obligations.LoadResult : Prop :=
  ∀ (x y : Reg) (n : Nat) (s : State),
    (Undisturbed (.loadn x n) s →
      ∃ v, s.memRead (eaDirect n) = some v ∧ WritesRegister (.loadn x n) x v s) ∧
    (Undisturbed (.loadr x y) s →
      ∃ v, s.memRead (eaIndirect s y) = some v ∧ WritesRegister (.loadr x y) x v s)

/-- `storen` and `storer` write the register to the effective address and nothing else (R150, R152, R154). -/
def Obligations.StoreResult : Prop :=
  ∀ (x y : Reg) (n : Nat) (s : State), s.mem.wf = true →
    (Undisturbed (.storen x n) s →
      ∃ t, exec (.storen x n) s = .next t ∧ StoredAt (eaDirect n) (s.reg x) s t ∧ SameRegs s t ∧ SameChannels s t ∧
        Retired .storen (s.pc + 1) s t) ∧
    (Undisturbed (.storer x y) s →
      ∃ t, exec (.storer x y) s = .next t ∧ StoredAt (eaIndirect s y) (s.reg x) s t ∧ SameRegs s t ∧
        SameChannels s t ∧ Retired .storer (s.pc + 1) s t)

/-- `pushr` stores rX at the pointer rY and then increments rY (R155). -/
def Obligations.PushResult : Prop :=
  ∀ (x y : Reg) (s : State), s.mem.wf = true → Undisturbed (.pushr x y) s →
    ∃ t, exec (.pushr x y) s = .next t ∧ StoredAt (eaIndirect s y) (s.reg x) s t ∧ RegHolds t y (s.reg y + 1) ∧
      SameRegsBut y s t ∧ SameChannels s t ∧ Retired .pushr (s.pc + 1) s t

/-- `popr` decrements the pointer rY and loads the word there into rX, rX being written last (R156). -/
def Obligations.PopResult : Prop :=
  ∀ (x y : Reg) (s : State), Undisturbed (.popr x y) s →
    ∃ t v, exec (.popr x y) s = .next t ∧ s.memRead (eaPop s y) = some v ∧ RegHolds t x v ∧
      (y ≠ x → RegHolds t y (s.reg y - 1)) ∧ (∀ r, r ≠ x → r ≠ y → t.reg r = s.reg r) ∧ SameMemory s t ∧
      SameChannels s t ∧ Retired .popr (s.pc + 1) s t

/-- An effective address outside [0, 255] is always a fatal `invalid-memory-access`, whatever SUPPRESS, EXC_EN,
MASK_LATCH and DBP hold, and only `loadr`, `storer`, `pushr` and `popr` can raise it (R202, R214, R233). -/
def Obligations.OutsideMemoryIsFatal : Prop :=
  (∀ (x y : Reg) (s : State),
    (255 < (s.reg y).toNat →
      (∃ t, exec (.loadr x y) s = .next t ∧ HaltedBy .invalidMemoryAccess (s.reg y) s t) ∧
      (∃ t, exec (.storer x y) s = .next t ∧ HaltedBy .invalidMemoryAccess (s.reg y) s t) ∧
      (∃ t, exec (.pushr x y) s = .next t ∧ HaltedBy .invalidMemoryAccess (s.reg y) s t)) ∧
    (s.reg y = 0 ∨ 256 < (s.reg y).toNat →
      ∃ t, exec (.popr x y) s = .next t ∧ HaltedBy .invalidMemoryAccess (s.reg y - 1) s t)) ∧
  ∀ (i : Instr) (s : State), i.wf = true → ¬ InsideMemory i s →
    i.mnemonic = .loadr ∨ i.mnemonic = .storer ∨ i.mnemonic = .pushr ∨ i.mnemonic = .popr

/-- A data access to the code segment whose kind is enabled, with SUPPRESS clear and the kind not latched at this `pc`,
pauses the core before the access; while the kind is latched at this `pc` it does not stop: the instruction does what it
would do with any other enable of that kind, none included (R206, R207, R212, R215, R216). -/
def Obligations.EnabledSegmentAccessPauses : Prop :=
  (∀ (i : Instr) (s : State) (a : Int) (id : BpId), 0 ≤ a → a ≤ 255 → a < (s.codeLimit : Int) → s.suppress = false →
    (readMem a ∈ accesses i s → s.excEn.codeSegmentRead = some id →
      s.maskLatch ≠ some (.codeSegmentRead, s.pc) →
      ∃ t, exec i s = .next t ∧ PausedBy .codeSegmentRead (BitVec.ofInt 16 a) id s t) ∧
    (writeMem a ∈ accesses i s → s.excEn.codeSegmentWrite = some id →
      s.maskLatch ≠ some (.codeSegmentWrite, s.pc) →
      ∃ t, exec i s = .next t ∧ PausedBy .codeSegmentWrite (BitVec.ofInt 16 a) id s t)) ∧
  ∀ (i : Instr) (s : State) (enable : Option BpId),
    (s.maskLatch = some (.codeSegmentRead, s.pc) →
      exec i { s with excEn := { s.excEn with codeSegmentRead := enable } } =
        mapNext (fun t => { t with excEn := { s.excEn with codeSegmentRead := enable } }) (exec i s)) ∧
    (s.maskLatch = some (.codeSegmentWrite, s.pc) →
      exec i { s with excEn := { s.excEn with codeSegmentWrite := enable } } =
        mapNext (fun t => { t with excEn := { s.excEn with codeSegmentWrite := enable } }) (exec i s))

/-- With neither maskable kind enabled, where the code segment ends does not matter to any instruction: execution
proceeds unaffected (R204). -/
def Obligations.DisabledSegmentChecksDoNotMatter : Prop :=
  ∀ (i : Instr) (s : State) (limit : Nat), s.excEn.codeSegmentRead = none → s.excEn.codeSegmentWrite = none →
    exec i { s with codeLimit := limit } = mapNext (fun t => { t with codeLimit := limit }) (exec i s)

/-! ### Control transfer (43_control) -/

/-- `jumpn` goes to its immediate target, `jumpr` to the full register value; neither target is checked
(R170 to R172). -/
def Obligations.JumpTargets : Prop :=
  ∀ (x : Reg) (n : Nat) (s : State),
    (Undisturbed (.jumpn n) s → TransfersTo (.jumpn n) (BitVec.ofNat 16 n) s) ∧
    (Undisturbed (.jumpr x) s → TransfersTo (.jumpr x) (s.reg x) s)

/-- The conditional jumps go to their target if the register is zero, not zero, positive, negative, and to `pc + 1` else
(R173 to R176). -/
def Obligations.ConditionalJumps : Prop :=
  ∀ (x : Reg) (n : Nat) (s : State),
    (Undisturbed (.jeqzn x n) s →
      TransfersTo (.jeqzn x n) (if s.reg x = 0 then BitVec.ofNat 16 n else s.pc + 1) s) ∧
    (Undisturbed (.jnezn x n) s →
      TransfersTo (.jnezn x n) (if s.reg x ≠ 0 then BitVec.ofNat 16 n else s.pc + 1) s) ∧
    (Undisturbed (.jgtzn x n) s →
      TransfersTo (.jgtzn x n) (if 0 < (s.reg x).toInt then BitVec.ofNat 16 n else s.pc + 1) s) ∧
    (Undisturbed (.jltzn x n) s →
      TransfersTo (.jltzn x n) (if (s.reg x).toInt < 0 then BitVec.ofNat 16 n else s.pc + 1) s)

/-- `calln` links `pc + 1` and goes to its target (R177). -/
def Obligations.CallLinks : Prop :=
  ∀ (x : Reg) (n : Nat) (s : State), Undisturbed (.calln x n) s →
    ∃ t, exec (.calln x n) s = .next t ∧ RegHolds t x (s.pc + 1) ∧ SameRegsBut x s t ∧ SameMemory s t ∧
      SameChannels s t ∧ Retired .calln (BitVec.ofNat 16 n) s t

/-! ### System and input/output (44_system) -/

/-- `halt` halts with reason `halt` and no ids and changes nothing else, `pc` included (R190). That the ids are emptied is
the model's reading of R33 (notes/assumptions/11.md). -/
def Obligations.HaltEndsProgram : Prop :=
  ∀ s : State, Undisturbed .halt s → ∃ t, exec .halt s = .next t ∧ StoppedWith .halted .halt [] s t

/-- `nop` only advances `pc` (R191). -/
def Obligations.NopOnlyAdvances : Prop :=
  ∀ s : State, Undisturbed .nop s → TransfersTo .nop (s.pc + 1) s

/-- `write` appends the signed value of the register to OUT and advances `pc` (R194). -/
def Obligations.WriteEmitsSignedValue : Prop :=
  ∀ (x : Reg) (s : State), Undisturbed (.write x) s →
    ∃ t, exec (.write x) s = .next t ∧ t.out = s.out ++ [.value (s.reg x).toInt] ∧ SameRegs s t ∧ SameMemory s t ∧
      t.hostQ = s.hostQ ∧ Retired .write (s.pc + 1) s t

/-- `read` with the host's answer next: an integer is stored modulo 65536 and the cycle ends at `pc + 1`; end of input
halts cleanly with registers and `pc` unchanged (R192, R193). That the answer is taken in the same step is the model's
choice (notes/assumptions/9.md); that a clean end empties STOP_IDS is its reading of R33 (notes/assumptions/11.md). -/
def Obligations.ReadStoresAnswer : Prop :=
  ∀ (x : Reg) (s : State) (rest : List HostEvent), Undisturbed (.read x) s →
    (∀ v, s.hostQ = .op (.supply (.integer v)) :: rest →
      ∃ t, exec (.read x) s = .next t ∧ RegHolds t x (BitVec.ofInt 16 v) ∧ SameRegsBut x s t ∧ SameMemory s t ∧
        t.out = s.out ∧ t.hostQ = rest ∧ Retired .read (s.pc + 1) { s with runState := .running } t) ∧
    (s.hostQ = .op (.supply .endOfInput) :: rest →
      ∃ t, exec (.read x) s = .next t ∧ StoppedWith .halted .inputEnd [] { s with hostQ := rest } t)

/-- `read` without an answer waits in AwaitingInput, nothing else changed; the answer then ends it as R192 says, an
integer stored modulo 65536 or a clean end, unless a rejected `configure` came in between (R192, R193, R239, R255). That
the cycle is cut at the wait is the model's choice (notes/assumptions/9.md); that a clean end empties STOP_IDS is its
reading of R33 (notes/assumptions/11.md). -/
def Obligations.ReadWaitsForAnswer : Prop :=
  (∀ (x : Reg) (s : State), Undisturbed (.read x) s → (∀ a rest, s.hostQ ≠ .op (.supply a) :: rest) →
    ∃ t, exec (.read x) s = .next t ∧ t = { s with runState := .awaitingInput x }) ∧
  (∀ (x : Reg) (s : State) (rest : List HostEvent), s.runState = .awaitingInput x → s.rejected = false →
    (∀ v, s.hostQ = .op (.supply (.integer v)) :: rest →
      ∃ t, step s = .next t ∧ RegHolds t x (BitVec.ofInt 16 v) ∧ SameRegsBut x s t ∧ SameMemory s t ∧
        t.out = s.out ∧ t.hostQ = rest ∧ Retired .read (s.pc + 1) { s with runState := .running } t) ∧
    (s.hostQ = .op (.supply .endOfInput) :: rest →
      ∃ t, step s = .next t ∧ StoppedWith .halted .inputEnd [] { s with hostQ := rest } t))

/-! ### The cycle (60_exceptions) -/

/-- A step of a running core that reaches its fetch runs the instruction the fetched word decodes to; a slot the host
lets pass only shortens its plan (R64, R209). -/
def Obligations.StepRunsDecodedInstruction : Prop :=
  (∀ (s : State) (w : Word) (i : Instr), TakesCycle s → ReachesFetch s → s.memRead (s.pc.toNat : Int) = some w →
    decode w = .ok i → step s = exec i s) ∧
  ∀ (s : State) (rest : List HostEvent) (w : Word) (i : Instr), s.hostQ = .tick :: rest → s.runState = .running →
    s.rejected = false → ReachesFetch s → s.memRead (s.pc.toNat : Int) = some w → decode w = .ok i →
    step s = exec i { s with hostQ := rest }

/-- A pause request stops a running core before anything else in its cycle, and is cleared (R209, R210, R219). -/
def Obligations.PauseRequestComesFirst : Prop :=
  ∀ s : State, TakesCycle s → s.pauseReq = true →
    ∃ t, step s = .next t ∧ t.pauseReq = false ∧ StoppedWith .paused .pause [] { s with pauseReq := false } t

/-- A cycle with `pc` at or above CODE_LIMIT takes the fatal `execute-outside-segment`, whatever breakpoints are set
(R205, R214, R233). -/
def Obligations.FetchOutsideSegmentIsFatal : Prop :=
  ∀ s : State, TakesCycle s → s.pauseReq = false → s.codeLimit ≤ s.pc.toNat →
    ∃ t, step s = .next t ∧ HaltedBy .executeOutsideSegment s.pc s t

/-- A cycle at an address with instruction breakpoints stops with their ids, before the fetch (R209, R230). The order of
the ids is the model's reading (notes/assumptions/13.md). -/
def Obligations.InstructionBreakpointPauses : Prop :=
  ∀ s : State, TakesCycle s → s.pauseReq = false → s.pc.toNat < s.codeLimit → s.suppress = false →
    (∃ e ∈ s.ibp, e.addr = s.pc.toNat) →
    ∃ t, step s = .next t ∧
      StoppedWith .paused .breakpoint ((s.ibp.filter (fun e => e.addr == s.pc.toNat)).map InstrBp.id) s t

/-- A fetched word that no definition matches takes the fatal `invalid-instruction`, unless the fetch is watched: then
the data breakpoint stops first (R88, R201, R210, R214). The order of the ids of one access is the model's reading
(notes/assumptions/13.md). -/
def Obligations.UndecodedWordIsFatal : Prop :=
  ∀ (s : State) (w : Word), TakesCycle s → ReachesFetch s → s.memRead (s.pc.toNat : Int) = some w →
    decode w = .error .noMatch →
    ∃ t, step s = .next t ∧
      if watchIds s (fetchAccess s) = [] then HaltedBy .invalidInstruction 0 s t
      else StoppedWith .paused .dataBreakpoint (watchIds s (fetchAccess s)) s t

/-- An access hits every data breakpoint of its space and address whose flag for its direction is set; the hits of the
fetch and of all accesses of an instruction are reported together, in access order, before its effect. Where no entry is
hit none stops: the instruction does what it would do without data breakpoints (R213, R231, R232). The order of the ids
within one access and the repeat of an id that two accesses hit are the model's reading (notes/assumptions/13.md). -/
def Obligations.DataBreakpointsAccumulate : Prop :=
  (∀ (e : DataBp) (a : Access), e.watches a = true ↔
    e.space = a.space ∧ (e.addr : Int) = a.addr ∧
      ((a.dir = .read ∧ e.onRead = true) ∨ (a.dir = .write ∧ e.onWrite = true))) ∧
  (∀ (i : Instr) (s : State), s.suppress = false → InsideMemory i s → Unmasked i s →
    (readMem (s.pc.toNat : Int) :: accesses i s).flatMap
      (fun a => (s.dbp.filter (fun e => e.watches a)).map DataBp.id) ≠ [] →
    ∃ t, exec i s = .next t ∧
      StoppedWith .paused .dataBreakpoint ((readMem (s.pc.toNat : Int) :: accesses i s).flatMap
        (fun a => (s.dbp.filter (fun e => e.watches a)).map DataBp.id)) s t) ∧
  ∀ (i : Instr) (s : State), Unwatched i s →
    exec i { s with dbp := [] } = mapNext (fun t => { t with dbp := [] }) (exec i s)

/-- Resuming, by `continue` or `step`, after a breakpoint, data-breakpoint, exception or step stop runs the instruction
at `pc`, whatever else the host plans but a pause: no comparator and no maskable exception stops it again
(R215, R218, R232). -/
def Obligations.ResumeRunsStoppedInstruction : Prop :=
  ∀ (s : State) (o : HostOp) (rest : List HostEvent) (w : Word) (i : Instr),
    (o = .continue ∨ ∃ filter, o = .step filter) → s.hostQ = .op o :: rest → s.runState = .paused →
    s.rejected = false → s.pauseReq = false →
    s.stopReason ∈ [StopReason.breakpoint, .dataBreakpoint, .exception, .step] →
    s.pc.toNat < s.codeLimit → s.memRead (s.pc.toNat : Int) = some w → decode w = .ok i →
    InsideMemory i s →
    ∃ t, step s = .next t ∧ t.suppress = true ∧ SameRegs s t ∧ SameMemory s t ∧ t.pc = s.pc ∧ t.hostQ = rest ∧
      Undisturbed i t ∧
      (rest = [] ∨ (∃ p later, rest = .op p :: later ∧ p ≠ .pause) → step t = exec i t) ∧
      ∀ later, rest = .tick :: later →
        step t = exec i { t with hostQ := later } ∧ Undisturbed i { t with hostQ := later }

/-- The run-state transitions of a step (R240): the rows of R240, `goto` from Ready to Paused (R255; the model's reading,
notes/assumptions/31.md), and a `read` answered in step mode, whose cycle runs and pauses at once (R235). Ready is entered
by `configure` only, and by that only from a core that is not Running (R254). -/
def Obligations.RunStateTransitions : Prop :=
  ∀ s t : State, step s = .next t →
    (t.runState = s.runState ∨
      (t.runState = .ready ∧ s.runState ≠ .running ∧
        ∃ mode source launch rest, s.hostQ = .op (.configure mode source launch) :: rest) ∨
      (s.runState = .ready ∧ (t.runState = .running ∨ t.runState = .paused)) ∨
      (s.runState = .running ∧
        (t.runState = .paused ∨ t.runState = .halted ∨ ∃ x, t.runState = .awaitingInput x)) ∨
      ((∃ x, s.runState = .awaitingInput x) ∧
        (t.runState = .running ∨ t.runState = .halted ∨
          (t.runState = .paused ∧ t.stopReason = .step ∧ s.stepMode = true))) ∨
      (s.runState = .paused ∧ t.runState = .running))

/-- A halted core never resumes: until a `configure`, every step leaves it halted with its registers, memory, `pc`, OUT
and stop report (R218, R240). -/
def Obligations.HaltedIsTerminal : Prop :=
  ∀ s t : State, s.runState = .halted → step s = .next t →
    (∀ mode source launch rest, s.hostQ ≠ .op (.configure mode source launch) :: rest) →
    t.runState = .halted ∧ SameRegs s t ∧ SameMemory s t ∧ t.pc = s.pc ∧ t.out = s.out ∧
      t.stopReason = s.stopReason ∧ t.stopIds = s.stopIds ∧ t.lastExc = s.lastExc

/-- A core that is not Running takes no cycle: while the host issues nothing the state stays (R209, R239). -/
def Obligations.IdleCoreWaits : Prop :=
  ∀ s : State, s.runState ≠ .running → s.hostQ = [] → step s = .next s

/-! ### Reset and the host (70_reset_and_hazards) -/

/-- A successful `configure` of a core that is not Running loads the program from address 0 and INIT_MEM above it, sets
CODE_LIMIT to the program's length without entering MODIFIED, and resets everything else: r0 to 0, r1 to r15 to INIT_REGS,
`pc` to 0, the run state to Ready and every other field to its reset value (R251, R252). In AwaitingInput R254 and R255
disagree whether it lands (notes/assumptions/7.md); `hostQ` and `rejected` are the model's own fields
(notes/assumptions/5.md, 10.md). -/
def Obligations.ConfigureLoadsAndResets : Prop :=
  ∀ (s : State) (mode : ConfigMode) (source : List Char) (launch : Launch) (rest : List HostEvent)
    (words : List Word), s.runState ≠ .running → s.hostQ = .op (.configure mode source launch) :: rest →
    programOf mode source = .ok words →
    ∃ t, Lands (∀ x, s.runState ≠ .awaitingInput x) s t ∧ words.length ≤ 256 ∧ t.codeLimit = words.length ∧
      (∀ (a : Nat) (w : Word), words[a]? = some w → t.memRead (a : Int) = some w) ∧
      (∀ a : Nat, words.length ≤ a → a ≤ 255 → t.memRead (a : Int) = some (memGet launch.initMem a)) ∧
      t.reg 0 = 0 ∧ (∀ k : Fin 15, t.reg k.succ = launch.initRegs[k.val]) ∧
      t.pc = 0 ∧ t.runState = .ready ∧ t.stopReason = .none ∧ t.stopIds = [] ∧ t.lastExc = LastExc.empty ∧
      t.excEn = ExcEnable.empty ∧ t.ibp = [] ∧ t.dbp = [] ∧ t.suppress = false ∧ t.maskLatch = none ∧
      t.pauseReq = false ∧ t.modified = [] ∧ t.out = [] ∧ t.stepMode = false ∧ t.stepFilter = none ∧
      t.hostQ = rest ∧ t.rejected = false

/-- A rejected `configure` loads no word and changes nothing but the mark that the core must not be run; a marked core
answers no resume by `continue` or `step`, no cycle, and no end of a `read` in progress, whatever the host plans; and a
program of more than 256 words is rejected (R250, D15, I11). The mark and the refusals are the model's choice
(notes/assumptions/10.md), and so is whether a `configure` lands in AwaitingInput (notes/assumptions/7.md). -/
def Obligations.RejectedConfigureMustNotRun : Prop :=
  (∀ (s : State) (mode : ConfigMode) (source : List Char) (launch : Launch) (rest : List HostEvent) (e : AsmError),
    s.runState ≠ .running → s.hostQ = .op (.configure mode source launch) :: rest → programOf mode source = .error e →
    Lands (∀ x, s.runState ≠ .awaitingInput x) s { s with hostQ := rest, rejected := true }) ∧
  (∀ (s : State) (rest : List HostEvent), s.rejected = true →
    ((s.runState = .ready ∨ s.runState = .paused) →
      (s.hostQ = .op .continue :: rest ∨ ∃ filter, s.hostQ = .op (.step filter) :: rest) →
      step s = .refused .mustNotRun) ∧
    (s.runState = .running →
      (s.hostQ = [] ∨ s.hostQ = .tick :: rest ∨ ∃ o, o ≠ .pause ∧ s.hostQ = .op o :: rest) →
      step s = .refused .mustNotRun) ∧
    (∀ x a, s.runState = .awaitingInput x → s.hostQ = .op (.supply a) :: rest → step s = .refused .mustNotRun)) ∧
  ∀ (mode : ConfigMode) (source : List Char) (words : List Word), programOf mode source = .ok words →
    words.length ≤ 256

/-- `continue` and `step` resume a ready or paused core: Running, the step mode set, SUPPRESS armed after the four
reasons of R232, nothing else changed (R232, R235, R255). -/
def Obligations.ContinueAndStepResume : Prop :=
  ∀ (s : State) (rest : List HostEvent), (s.runState = .ready ∨ s.runState = .paused) → s.rejected = false →
    (s.hostQ = .op .continue :: rest →
      step s = .next { s with
        hostQ := rest, stepMode := false, runState := .running
        suppress := s.suppress || decide (s.stopReason = .breakpoint ∨ s.stopReason = .dataBreakpoint ∨
          s.stopReason = .exception ∨ s.stopReason = .step) }) ∧
    (∀ filter, s.hostQ = .op (.step filter) :: rest →
      step s = .next { s with
        hostQ := rest, stepMode := true, stepFilter := filter, runState := .running
        suppress := s.suppress || decide (s.stopReason = .breakpoint ∨ s.stopReason = .dataBreakpoint ∨
          s.stopReason = .exception ∨ s.stopReason = .step) })

/-- The other rows of R255: `pause` sets PAUSE_REQ in any state; `goto` moves `pc` of a ready or paused core, clears the
latch and SUPPRESS and pauses it; the breakpoint operations change their sets, and the get operations change nothing,
while the core is not Running. In Halted and AwaitingInput R254 and R255 disagree whether the last two land
(notes/assumptions/7.md); that `goto` pauses a ready core follows R255 against R240 (notes/assumptions/31.md), and that it
empties STOP_IDS is the model's reading of R33 (notes/assumptions/11.md). -/
def Obligations.HostOperationRows : Prop :=
  ∀ (s : State) (rest : List HostEvent),
    (s.hostQ = .op .pause :: rest → step s = .next { s with hostQ := rest, pauseReq := true }) ∧
    (∀ a, (s.runState = .ready ∨ s.runState = .paused) → s.hostQ = .op (.goto a) :: rest →
      step s = .next { s with
        hostQ := rest, pc := a, maskLatch := none, suppress := false, runState := .paused, stopReason := .pause
        stopIds := [] }) ∧
    (s.runState ≠ .running →
      (∀ e, s.hostQ = .op (.setInstrBp e) :: rest → ∃ entries, (∀ b, b ∈ entries ↔ b = e ∨ b ∈ s.ibp) ∧
        Lands (s.runState = .ready ∨ s.runState = .paused) s { s with hostQ := rest, ibp := entries }) ∧
      (s.hostQ = .op .clearInstrBps :: rest →
        Lands (s.runState = .ready ∨ s.runState = .paused) s { s with hostQ := rest, ibp := [] }) ∧
      (∀ e, s.hostQ = .op (.setDataBp e) :: rest → ∃ entries, (∀ b, b ∈ entries ↔ b = e ∨ b ∈ s.dbp) ∧
        Lands (s.runState = .ready ∨ s.runState = .paused) s { s with hostQ := rest, dbp := entries }) ∧
      (s.hostQ = .op .clearDataBps :: rest →
        Lands (s.runState = .ready ∨ s.runState = .paused) s { s with hostQ := rest, dbp := [] }) ∧
      (∀ e, s.hostQ = .op (.setExcBps e) :: rest →
        Lands (s.runState = .ready ∨ s.runState = .paused) s { s with hostQ := rest, excEn := e }) ∧
      (s.hostQ = .op .getState :: rest →
        Lands (s.runState = .ready ∨ s.runState = .paused) s { s with hostQ := rest }) ∧
      (s.hostQ = .op .getLastException :: rest →
        Lands (s.runState = .ready ∨ s.runState = .paused) s { s with hostQ := rest }))

/-- An operation outside the run states of its row of R255 is refused, and while the core is Running every operation but
`pause` waits: the core takes its cycle and the operation stays next. That it is refused and that it waits are the model's
choices (R254, R255; notes/assumptions/5.md, 6.md). -/
def Obligations.HostOperationOutsideItsStates : Prop :=
  ∀ (s : State) (o : HostOp) (rest : List HostEvent), s.hostQ = .op o :: rest →
    ((s.runState = .halted ∨ ∃ x, s.runState = .awaitingInput x) →
      (o = .continue ∨ (∃ f, o = .step f) ∨ ∃ a, o = .goto a) → step s = .refused .hostOpNotAllowed) ∧
    ((s.runState = .ready ∨ s.runState = .paused ∨ s.runState = .halted) →
      (∃ a, o = .supply a) → step s = .refused .hostOpNotAllowed) ∧
    (s.runState = .running → s.rejected = false → o ≠ .pause → step s = cycle s)

/-! ### The invariant and the outcomes of a step -/

/-- The state after reset meets the invariant. -/
def Obligations.ResetMeetsInvariant : Prop := State.reset.Inv

/-- Every step from a state that meets the invariant gives a state that meets it: memory canonical, CODE_LIMIT in
[0, 256], nothing in r0's slot, MODIFIED a set of addresses, STOP_IDS empty unless the reason has ids, LAST_EXC a code
of a kind or zero, MASK_LATCH a maskable kind, the stop report fitting the run state (R22, R30, R31, R33, R34, R40). -/
def Obligations.StepKeepsInvariant : Prop :=
  ∀ s t : State, s.Inv → step s = .next t → t.Inv

/-- No step faults: every address that reaches the memory port has passed a check, the fetch through the bound by
CODE_LIMIT and a data access through step 4 (R62, R64, R212). -/
def Obligations.NoStepFaults : Prop :=
  ∀ (s : State) (f : Fault), s.codeLimit ≤ 256 → step s ≠ .fault f

/-- A step is refused only for what the host does: an operation it may not issue now, or running after a rejected
`configure`; no instruction is refused. -/
def Obligations.RefusalsComeFromTheHost : Prop :=
  ∀ (s : State) (r : Refusal), step s = .refused r →
    (r = .hostOpNotAllowed ∧ ∃ o rest, s.hostQ = .op o :: rest) ∨ (r = .mustNotRun ∧ s.rejected = true)

/-- OUT only grows, by one item a step at most, until a `configure` (R41, R194, R214). -/
def Obligations.OutputOnlyGrows : Prop :=
  ∀ s t : State, step s = .next t →
    (∀ mode source launch rest, s.hostQ ≠ .op (.configure mode source launch) :: rest) →
    t.out = s.out ∨ ∃ item, t.out = s.out ++ [item]
end

