-- ==== Sys2Proof/Laws/Numbers.lean ====
section
/-! SUPPORT. The number readings of spec/00_scope.md R10 and the ALU's results as bit-vector operations. -/

namespace Sys2Proof

theorem s16_eq_toInt (v : Word) : s16 v = v.toInt := by
  unfold s16
  rw [BitVec.toInt_eq_toNat_cond]
  split <;> split <;> first | rfl | omega

@[simp] theorem u16_toNat_cast (v : Word) : u16 (v.toNat : Int) = v := by
  simp [u16]

@[simp] theorem u16_s16 (v : Word) : u16 (s16 v) = v := by
  rw [s16_eq_toInt]
  simp [u16]

/-- `u16` of an integer is the integer modulo 65536 (R10). -/
theorem u16_toNat (i : Int) : ((u16 i).toNat : Int) = i % 65536 := by
  unfold u16
  rw [BitVec.toNat_ofInt]
  omega

theorem s16_range (v : Word) : -32768 ≤ s16 v ∧ s16 v < 32768 := by
  have := v.isLt
  unfold s16
  split <;> omega

theorem s16_eq_zero_iff (v : Word) : s16 v = 0 ↔ v = 0 := by
  have h := v.isLt
  unfold s16
  constructor
  · intro hz
    apply BitVec.eq_of_toNat_eq
    split at hz <;> simp <;> omega
  · rintro rfl
    decide

namespace Machine

theorem aluAdd_eq (a b : Word) : aluAdd a b = a + b := by
  apply BitVec.eq_of_toNat_eq
  have := u16_toNat ((a.toNat : Int) + b.toNat)
  rw [BitVec.toNat_add]
  unfold aluAdd
  omega

theorem aluSub_eq (a b : Word) : aluSub a b = a - b := by
  apply BitVec.eq_of_toNat_eq
  have := u16_toNat ((a.toNat : Int) - b.toNat)
  have ha := a.isLt
  have hb := b.isLt
  rw [BitVec.toNat_sub]
  unfold aluSub
  omega

theorem aluMul_eq (a b : Word) : aluMul a b = a * b := by
  unfold aluMul u16
  rw [BitVec.ofInt_mul]
  simp

theorem truncRem_eq_tmod (a b : Int) : truncRem a b = Int.tmod a b := by
  unfold truncRem truncDiv
  have := Int.mul_tdiv_add_tmod a b
  omega

end Machine

end Sys2Proof
end

