-- ==== Sys2Proof/Laws/State.lean ====
section
/-! SUPPORT. One lemma per field of State per update, each true by rfl: later proofs unfold no record update. -/

namespace Sys2Proof.Machine

/-! ### setReg -/

@[simp] theorem setReg_regs (s : State) (r : Reg) (v : Word) : (s.setReg r v).regs = putReg s.regs r v := rfl
@[simp] theorem setReg_pc (s : State) (r : Reg) (v : Word) : (s.setReg r v).pc = s.pc := rfl
@[simp] theorem setReg_mem (s : State) (r : Reg) (v : Word) : (s.setReg r v).mem = s.mem := rfl
@[simp] theorem setReg_codeLimit (s : State) (r : Reg) (v : Word) : (s.setReg r v).codeLimit = s.codeLimit := rfl
@[simp] theorem setReg_runState (s : State) (r : Reg) (v : Word) : (s.setReg r v).runState = s.runState := rfl
@[simp] theorem setReg_stopReason (s : State) (r : Reg) (v : Word) : (s.setReg r v).stopReason = s.stopReason := rfl
@[simp] theorem setReg_stopIds (s : State) (r : Reg) (v : Word) : (s.setReg r v).stopIds = s.stopIds := rfl
@[simp] theorem setReg_lastExc (s : State) (r : Reg) (v : Word) : (s.setReg r v).lastExc = s.lastExc := rfl
@[simp] theorem setReg_excEn (s : State) (r : Reg) (v : Word) : (s.setReg r v).excEn = s.excEn := rfl
@[simp] theorem setReg_ibp (s : State) (r : Reg) (v : Word) : (s.setReg r v).ibp = s.ibp := rfl
@[simp] theorem setReg_dbp (s : State) (r : Reg) (v : Word) : (s.setReg r v).dbp = s.dbp := rfl
@[simp] theorem setReg_suppress (s : State) (r : Reg) (v : Word) : (s.setReg r v).suppress = s.suppress := rfl
@[simp] theorem setReg_maskLatch (s : State) (r : Reg) (v : Word) : (s.setReg r v).maskLatch = s.maskLatch := rfl
@[simp] theorem setReg_pauseReq (s : State) (r : Reg) (v : Word) : (s.setReg r v).pauseReq = s.pauseReq := rfl
@[simp] theorem setReg_modified (s : State) (r : Reg) (v : Word) : (s.setReg r v).modified = s.modified := rfl
@[simp] theorem setReg_out (s : State) (r : Reg) (v : Word) : (s.setReg r v).out = s.out := rfl
@[simp] theorem setReg_stepMode (s : State) (r : Reg) (v : Word) : (s.setReg r v).stepMode = s.stepMode := rfl
@[simp] theorem setReg_stepFilter (s : State) (r : Reg) (v : Word) : (s.setReg r v).stepFilter = s.stepFilter := rfl
@[simp] theorem setReg_hostQ (s : State) (r : Reg) (v : Word) : (s.setReg r v).hostQ = s.hostQ := rfl
@[simp] theorem setReg_rejected (s : State) (r : Reg) (v : Word) : (s.setReg r v).rejected = s.rejected := rfl

/-! ### emit -/

@[simp] theorem emit_regs (s : State) (o : OutItem) : (s.emit o).regs = s.regs := rfl
@[simp] theorem emit_pc (s : State) (o : OutItem) : (s.emit o).pc = s.pc := rfl
@[simp] theorem emit_mem (s : State) (o : OutItem) : (s.emit o).mem = s.mem := rfl
@[simp] theorem emit_codeLimit (s : State) (o : OutItem) : (s.emit o).codeLimit = s.codeLimit := rfl
@[simp] theorem emit_runState (s : State) (o : OutItem) : (s.emit o).runState = s.runState := rfl
@[simp] theorem emit_stopReason (s : State) (o : OutItem) : (s.emit o).stopReason = s.stopReason := rfl
@[simp] theorem emit_stopIds (s : State) (o : OutItem) : (s.emit o).stopIds = s.stopIds := rfl
@[simp] theorem emit_lastExc (s : State) (o : OutItem) : (s.emit o).lastExc = s.lastExc := rfl
@[simp] theorem emit_excEn (s : State) (o : OutItem) : (s.emit o).excEn = s.excEn := rfl
@[simp] theorem emit_ibp (s : State) (o : OutItem) : (s.emit o).ibp = s.ibp := rfl
@[simp] theorem emit_dbp (s : State) (o : OutItem) : (s.emit o).dbp = s.dbp := rfl
@[simp] theorem emit_suppress (s : State) (o : OutItem) : (s.emit o).suppress = s.suppress := rfl
@[simp] theorem emit_maskLatch (s : State) (o : OutItem) : (s.emit o).maskLatch = s.maskLatch := rfl
@[simp] theorem emit_pauseReq (s : State) (o : OutItem) : (s.emit o).pauseReq = s.pauseReq := rfl
@[simp] theorem emit_modified (s : State) (o : OutItem) : (s.emit o).modified = s.modified := rfl
@[simp] theorem emit_out (s : State) (o : OutItem) : (s.emit o).out = s.out ++ [o] := rfl
@[simp] theorem emit_stepMode (s : State) (o : OutItem) : (s.emit o).stepMode = s.stepMode := rfl
@[simp] theorem emit_stepFilter (s : State) (o : OutItem) : (s.emit o).stepFilter = s.stepFilter := rfl
@[simp] theorem emit_hostQ (s : State) (o : OutItem) : (s.emit o).hostQ = s.hostQ := rfl
@[simp] theorem emit_rejected (s : State) (o : OutItem) : (s.emit o).rejected = s.rejected := rfl

/-! ### stop -/

@[simp] theorem stop_regs (s : State) (rs : RunState) (r : StopReason) (ids : List BpId) : (s.stop rs r ids).regs = s.regs := rfl
@[simp] theorem stop_pc (s : State) (rs : RunState) (r : StopReason) (ids : List BpId) : (s.stop rs r ids).pc = s.pc := rfl
@[simp] theorem stop_mem (s : State) (rs : RunState) (r : StopReason) (ids : List BpId) : (s.stop rs r ids).mem = s.mem := rfl
@[simp] theorem stop_codeLimit (s : State) (rs : RunState) (r : StopReason) (ids : List BpId) : (s.stop rs r ids).codeLimit = s.codeLimit := rfl
@[simp] theorem stop_runState (s : State) (rs : RunState) (r : StopReason) (ids : List BpId) : (s.stop rs r ids).runState = rs := rfl
@[simp] theorem stop_stopReason (s : State) (rs : RunState) (r : StopReason) (ids : List BpId) : (s.stop rs r ids).stopReason = r := rfl
@[simp] theorem stop_stopIds (s : State) (rs : RunState) (r : StopReason) (ids : List BpId) : (s.stop rs r ids).stopIds = ids := rfl
@[simp] theorem stop_lastExc (s : State) (rs : RunState) (r : StopReason) (ids : List BpId) : (s.stop rs r ids).lastExc = s.lastExc := rfl
@[simp] theorem stop_excEn (s : State) (rs : RunState) (r : StopReason) (ids : List BpId) : (s.stop rs r ids).excEn = s.excEn := rfl
@[simp] theorem stop_ibp (s : State) (rs : RunState) (r : StopReason) (ids : List BpId) : (s.stop rs r ids).ibp = s.ibp := rfl
@[simp] theorem stop_dbp (s : State) (rs : RunState) (r : StopReason) (ids : List BpId) : (s.stop rs r ids).dbp = s.dbp := rfl
@[simp] theorem stop_suppress (s : State) (rs : RunState) (r : StopReason) (ids : List BpId) : (s.stop rs r ids).suppress = s.suppress := rfl
@[simp] theorem stop_maskLatch (s : State) (rs : RunState) (r : StopReason) (ids : List BpId) : (s.stop rs r ids).maskLatch = s.maskLatch := rfl
@[simp] theorem stop_pauseReq (s : State) (rs : RunState) (r : StopReason) (ids : List BpId) : (s.stop rs r ids).pauseReq = s.pauseReq := rfl
@[simp] theorem stop_modified (s : State) (rs : RunState) (r : StopReason) (ids : List BpId) : (s.stop rs r ids).modified = s.modified := rfl
@[simp] theorem stop_out (s : State) (rs : RunState) (r : StopReason) (ids : List BpId) : (s.stop rs r ids).out = s.out := rfl
@[simp] theorem stop_stepMode (s : State) (rs : RunState) (r : StopReason) (ids : List BpId) : (s.stop rs r ids).stepMode = s.stepMode := rfl
@[simp] theorem stop_stepFilter (s : State) (rs : RunState) (r : StopReason) (ids : List BpId) : (s.stop rs r ids).stepFilter = s.stepFilter := rfl
@[simp] theorem stop_hostQ (s : State) (rs : RunState) (r : StopReason) (ids : List BpId) : (s.stop rs r ids).hostQ = s.hostQ := rfl
@[simp] theorem stop_rejected (s : State) (rs : RunState) (r : StopReason) (ids : List BpId) : (s.stop rs r ids).rejected = s.rejected := rfl

/-! ### takeFatal -/

@[simp] theorem takeFatal_regs (s : State) (k : ExcKind) (a : Word) : (s.takeFatal k a).regs = s.regs := rfl
@[simp] theorem takeFatal_pc (s : State) (k : ExcKind) (a : Word) : (s.takeFatal k a).pc = s.pc := rfl
@[simp] theorem takeFatal_mem (s : State) (k : ExcKind) (a : Word) : (s.takeFatal k a).mem = s.mem := rfl
@[simp] theorem takeFatal_codeLimit (s : State) (k : ExcKind) (a : Word) : (s.takeFatal k a).codeLimit = s.codeLimit := rfl
@[simp] theorem takeFatal_runState (s : State) (k : ExcKind) (a : Word) : (s.takeFatal k a).runState = .halted := rfl
@[simp] theorem takeFatal_stopReason (s : State) (k : ExcKind) (a : Word) : (s.takeFatal k a).stopReason = fatalReason s.excEn k := rfl
@[simp] theorem takeFatal_stopIds (s : State) (k : ExcKind) (a : Word) : (s.takeFatal k a).stopIds = fatalIds s.excEn k := rfl
@[simp] theorem takeFatal_lastExc (s : State) (k : ExcKind) (a : Word) : (s.takeFatal k a).lastExc = ⟨true, k.code, s.pc, a⟩ := rfl
@[simp] theorem takeFatal_excEn (s : State) (k : ExcKind) (a : Word) : (s.takeFatal k a).excEn = s.excEn := rfl
@[simp] theorem takeFatal_ibp (s : State) (k : ExcKind) (a : Word) : (s.takeFatal k a).ibp = s.ibp := rfl
@[simp] theorem takeFatal_dbp (s : State) (k : ExcKind) (a : Word) : (s.takeFatal k a).dbp = s.dbp := rfl
@[simp] theorem takeFatal_suppress (s : State) (k : ExcKind) (a : Word) : (s.takeFatal k a).suppress = s.suppress := rfl
@[simp] theorem takeFatal_maskLatch (s : State) (k : ExcKind) (a : Word) : (s.takeFatal k a).maskLatch = s.maskLatch := rfl
@[simp] theorem takeFatal_pauseReq (s : State) (k : ExcKind) (a : Word) : (s.takeFatal k a).pauseReq = s.pauseReq := rfl
@[simp] theorem takeFatal_modified (s : State) (k : ExcKind) (a : Word) : (s.takeFatal k a).modified = s.modified := rfl
@[simp] theorem takeFatal_out (s : State) (k : ExcKind) (a : Word) : (s.takeFatal k a).out = s.out ++ [.report k] := rfl
@[simp] theorem takeFatal_stepMode (s : State) (k : ExcKind) (a : Word) : (s.takeFatal k a).stepMode = s.stepMode := rfl
@[simp] theorem takeFatal_stepFilter (s : State) (k : ExcKind) (a : Word) : (s.takeFatal k a).stepFilter = s.stepFilter := rfl
@[simp] theorem takeFatal_hostQ (s : State) (k : ExcKind) (a : Word) : (s.takeFatal k a).hostQ = s.hostQ := rfl
@[simp] theorem takeFatal_rejected (s : State) (k : ExcKind) (a : Word) : (s.takeFatal k a).rejected = s.rejected := rfl

/-! ### takeMaskable -/

@[simp] theorem takeMaskable_regs (s : State) (k : ExcKind) (a : Word) (id : BpId) : (s.takeMaskable k a id).regs = s.regs := rfl
@[simp] theorem takeMaskable_pc (s : State) (k : ExcKind) (a : Word) (id : BpId) : (s.takeMaskable k a id).pc = s.pc := rfl
@[simp] theorem takeMaskable_mem (s : State) (k : ExcKind) (a : Word) (id : BpId) : (s.takeMaskable k a id).mem = s.mem := rfl
@[simp] theorem takeMaskable_codeLimit (s : State) (k : ExcKind) (a : Word) (id : BpId) : (s.takeMaskable k a id).codeLimit = s.codeLimit := rfl
@[simp] theorem takeMaskable_runState (s : State) (k : ExcKind) (a : Word) (id : BpId) : (s.takeMaskable k a id).runState = .paused := rfl
@[simp] theorem takeMaskable_stopReason (s : State) (k : ExcKind) (a : Word) (id : BpId) : (s.takeMaskable k a id).stopReason = .exception := rfl
@[simp] theorem takeMaskable_stopIds (s : State) (k : ExcKind) (a : Word) (id : BpId) : (s.takeMaskable k a id).stopIds = [id] := rfl
@[simp] theorem takeMaskable_lastExc (s : State) (k : ExcKind) (a : Word) (id : BpId) : (s.takeMaskable k a id).lastExc = ⟨true, k.code, s.pc, a⟩ := rfl
@[simp] theorem takeMaskable_excEn (s : State) (k : ExcKind) (a : Word) (id : BpId) : (s.takeMaskable k a id).excEn = s.excEn := rfl
@[simp] theorem takeMaskable_ibp (s : State) (k : ExcKind) (a : Word) (id : BpId) : (s.takeMaskable k a id).ibp = s.ibp := rfl
@[simp] theorem takeMaskable_dbp (s : State) (k : ExcKind) (a : Word) (id : BpId) : (s.takeMaskable k a id).dbp = s.dbp := rfl
@[simp] theorem takeMaskable_suppress (s : State) (k : ExcKind) (a : Word) (id : BpId) : (s.takeMaskable k a id).suppress = s.suppress := rfl
@[simp] theorem takeMaskable_maskLatch (s : State) (k : ExcKind) (a : Word) (id : BpId) : (s.takeMaskable k a id).maskLatch = some (k, s.pc) := rfl
@[simp] theorem takeMaskable_pauseReq (s : State) (k : ExcKind) (a : Word) (id : BpId) : (s.takeMaskable k a id).pauseReq = s.pauseReq := rfl
@[simp] theorem takeMaskable_modified (s : State) (k : ExcKind) (a : Word) (id : BpId) : (s.takeMaskable k a id).modified = s.modified := rfl
@[simp] theorem takeMaskable_out (s : State) (k : ExcKind) (a : Word) (id : BpId) : (s.takeMaskable k a id).out = s.out := rfl
@[simp] theorem takeMaskable_stepMode (s : State) (k : ExcKind) (a : Word) (id : BpId) : (s.takeMaskable k a id).stepMode = s.stepMode := rfl
@[simp] theorem takeMaskable_stepFilter (s : State) (k : ExcKind) (a : Word) (id : BpId) : (s.takeMaskable k a id).stepFilter = s.stepFilter := rfl
@[simp] theorem takeMaskable_hostQ (s : State) (k : ExcKind) (a : Word) (id : BpId) : (s.takeMaskable k a id).hostQ = s.hostQ := rfl
@[simp] theorem takeMaskable_rejected (s : State) (k : ExcKind) (a : Word) (id : BpId) : (s.takeMaskable k a id).rejected = s.rejected := rfl

/-! ### resume -/

@[simp] theorem resume_regs (s : State) : (s.resume).regs = s.regs := rfl
@[simp] theorem resume_pc (s : State) : (s.resume).pc = s.pc := rfl
@[simp] theorem resume_mem (s : State) : (s.resume).mem = s.mem := rfl
@[simp] theorem resume_codeLimit (s : State) : (s.resume).codeLimit = s.codeLimit := rfl
@[simp] theorem resume_runState (s : State) : (s.resume).runState = .running := rfl
@[simp] theorem resume_stopReason (s : State) : (s.resume).stopReason = s.stopReason := rfl
@[simp] theorem resume_stopIds (s : State) : (s.resume).stopIds = s.stopIds := rfl
@[simp] theorem resume_lastExc (s : State) : (s.resume).lastExc = s.lastExc := rfl
@[simp] theorem resume_excEn (s : State) : (s.resume).excEn = s.excEn := rfl
@[simp] theorem resume_ibp (s : State) : (s.resume).ibp = s.ibp := rfl
@[simp] theorem resume_dbp (s : State) : (s.resume).dbp = s.dbp := rfl
@[simp] theorem resume_suppress (s : State) : (s.resume).suppress = (s.suppress || s.stopReason.armsSuppress) := rfl
@[simp] theorem resume_maskLatch (s : State) : (s.resume).maskLatch = s.maskLatch := rfl
@[simp] theorem resume_pauseReq (s : State) : (s.resume).pauseReq = s.pauseReq := rfl
@[simp] theorem resume_modified (s : State) : (s.resume).modified = s.modified := rfl
@[simp] theorem resume_out (s : State) : (s.resume).out = s.out := rfl
@[simp] theorem resume_stepMode (s : State) : (s.resume).stepMode = s.stepMode := rfl
@[simp] theorem resume_stepFilter (s : State) : (s.resume).stepFilter = s.stepFilter := rfl
@[simp] theorem resume_hostQ (s : State) : (s.resume).hostQ = s.hostQ := rfl
@[simp] theorem resume_rejected (s : State) : (s.resume).rejected = s.rejected := rfl

/-! ### advance -/

@[simp] theorem advance_regs (s : State) (target : Word) : (s.advance target).regs = s.regs := rfl
@[simp] theorem advance_pc (s : State) (target : Word) : (s.advance target).pc = target := rfl
@[simp] theorem advance_mem (s : State) (target : Word) : (s.advance target).mem = s.mem := rfl
@[simp] theorem advance_codeLimit (s : State) (target : Word) : (s.advance target).codeLimit = s.codeLimit := rfl
@[simp] theorem advance_runState (s : State) (target : Word) : (s.advance target).runState = s.runState := rfl
@[simp] theorem advance_stopReason (s : State) (target : Word) : (s.advance target).stopReason = s.stopReason := rfl
@[simp] theorem advance_stopIds (s : State) (target : Word) : (s.advance target).stopIds = s.stopIds := rfl
@[simp] theorem advance_lastExc (s : State) (target : Word) : (s.advance target).lastExc = s.lastExc := rfl
@[simp] theorem advance_excEn (s : State) (target : Word) : (s.advance target).excEn = s.excEn := rfl
@[simp] theorem advance_ibp (s : State) (target : Word) : (s.advance target).ibp = s.ibp := rfl
@[simp] theorem advance_dbp (s : State) (target : Word) : (s.advance target).dbp = s.dbp := rfl
@[simp] theorem advance_suppress (s : State) (target : Word) : (s.advance target).suppress = s.suppress := rfl
@[simp] theorem advance_maskLatch (s : State) (target : Word) : (s.advance target).maskLatch = if target = s.pc then s.maskLatch else none := rfl
@[simp] theorem advance_pauseReq (s : State) (target : Word) : (s.advance target).pauseReq = s.pauseReq := rfl
@[simp] theorem advance_modified (s : State) (target : Word) : (s.advance target).modified = s.modified := rfl
@[simp] theorem advance_out (s : State) (target : Word) : (s.advance target).out = s.out := rfl
@[simp] theorem advance_stepMode (s : State) (target : Word) : (s.advance target).stepMode = s.stepMode := rfl
@[simp] theorem advance_stepFilter (s : State) (target : Word) : (s.advance target).stepFilter = s.stepFilter := rfl
@[simp] theorem advance_hostQ (s : State) (target : Word) : (s.advance target).hostQ = s.hostQ := rfl
@[simp] theorem advance_rejected (s : State) (target : Word) : (s.advance target).rejected = s.rejected := rfl

/-! ### endCycle -/

@[simp] theorem endCycle_regs (s : State) (m : Mnemonic) : (s.endCycle m).regs = s.regs := rfl
@[simp] theorem endCycle_pc (s : State) (m : Mnemonic) : (s.endCycle m).pc = s.pc := rfl
@[simp] theorem endCycle_mem (s : State) (m : Mnemonic) : (s.endCycle m).mem = s.mem := rfl
@[simp] theorem endCycle_codeLimit (s : State) (m : Mnemonic) : (s.endCycle m).codeLimit = s.codeLimit := rfl
@[simp] theorem endCycle_runState (s : State) (m : Mnemonic) : (s.endCycle m).runState = if s.stepStops m then .paused else s.runState := rfl
@[simp] theorem endCycle_stopReason (s : State) (m : Mnemonic) : (s.endCycle m).stopReason = if s.stepStops m then .step else s.stopReason := rfl
@[simp] theorem endCycle_stopIds (s : State) (m : Mnemonic) : (s.endCycle m).stopIds = if s.stepStops m then [] else s.stopIds := rfl
@[simp] theorem endCycle_lastExc (s : State) (m : Mnemonic) : (s.endCycle m).lastExc = s.lastExc := rfl
@[simp] theorem endCycle_excEn (s : State) (m : Mnemonic) : (s.endCycle m).excEn = s.excEn := rfl
@[simp] theorem endCycle_ibp (s : State) (m : Mnemonic) : (s.endCycle m).ibp = s.ibp := rfl
@[simp] theorem endCycle_dbp (s : State) (m : Mnemonic) : (s.endCycle m).dbp = s.dbp := rfl
@[simp] theorem endCycle_suppress (s : State) (m : Mnemonic) : (s.endCycle m).suppress = false := rfl
@[simp] theorem endCycle_maskLatch (s : State) (m : Mnemonic) : (s.endCycle m).maskLatch = s.maskLatch := rfl
@[simp] theorem endCycle_pauseReq (s : State) (m : Mnemonic) : (s.endCycle m).pauseReq = s.pauseReq := rfl
@[simp] theorem endCycle_modified (s : State) (m : Mnemonic) : (s.endCycle m).modified = s.modified := rfl
@[simp] theorem endCycle_out (s : State) (m : Mnemonic) : (s.endCycle m).out = s.out := rfl
@[simp] theorem endCycle_stepMode (s : State) (m : Mnemonic) : (s.endCycle m).stepMode = s.stepMode := rfl
@[simp] theorem endCycle_stepFilter (s : State) (m : Mnemonic) : (s.endCycle m).stepFilter = s.stepFilter := rfl
@[simp] theorem endCycle_hostQ (s : State) (m : Mnemonic) : (s.endCycle m).hostQ = s.hostQ := rfl
@[simp] theorem endCycle_rejected (s : State) (m : Mnemonic) : (s.endCycle m).rejected = s.rejected := rfl

/-! ### retire -/

@[simp] theorem retire_regs (s : State) (m : Mnemonic) (target : Word) : (s.retire m target).regs = s.regs := rfl
@[simp] theorem retire_pc (s : State) (m : Mnemonic) (target : Word) : (s.retire m target).pc = target := rfl
@[simp] theorem retire_mem (s : State) (m : Mnemonic) (target : Word) : (s.retire m target).mem = s.mem := rfl
@[simp] theorem retire_codeLimit (s : State) (m : Mnemonic) (target : Word) : (s.retire m target).codeLimit = s.codeLimit := rfl
@[simp] theorem retire_runState (s : State) (m : Mnemonic) (target : Word) : (s.retire m target).runState = if s.stepStops m then .paused else s.runState := rfl
@[simp] theorem retire_stopReason (s : State) (m : Mnemonic) (target : Word) : (s.retire m target).stopReason = if s.stepStops m then .step else s.stopReason := rfl
@[simp] theorem retire_stopIds (s : State) (m : Mnemonic) (target : Word) : (s.retire m target).stopIds = if s.stepStops m then [] else s.stopIds := rfl
@[simp] theorem retire_lastExc (s : State) (m : Mnemonic) (target : Word) : (s.retire m target).lastExc = s.lastExc := rfl
@[simp] theorem retire_excEn (s : State) (m : Mnemonic) (target : Word) : (s.retire m target).excEn = s.excEn := rfl
@[simp] theorem retire_ibp (s : State) (m : Mnemonic) (target : Word) : (s.retire m target).ibp = s.ibp := rfl
@[simp] theorem retire_dbp (s : State) (m : Mnemonic) (target : Word) : (s.retire m target).dbp = s.dbp := rfl
@[simp] theorem retire_suppress (s : State) (m : Mnemonic) (target : Word) : (s.retire m target).suppress = false := rfl
@[simp] theorem retire_maskLatch (s : State) (m : Mnemonic) (target : Word) : (s.retire m target).maskLatch = if target = s.pc then s.maskLatch else none := rfl
@[simp] theorem retire_pauseReq (s : State) (m : Mnemonic) (target : Word) : (s.retire m target).pauseReq = s.pauseReq := rfl
@[simp] theorem retire_modified (s : State) (m : Mnemonic) (target : Word) : (s.retire m target).modified = s.modified := rfl
@[simp] theorem retire_out (s : State) (m : Mnemonic) (target : Word) : (s.retire m target).out = s.out := rfl
@[simp] theorem retire_stepMode (s : State) (m : Mnemonic) (target : Word) : (s.retire m target).stepMode = s.stepMode := rfl
@[simp] theorem retire_stepFilter (s : State) (m : Mnemonic) (target : Word) : (s.retire m target).stepFilter = s.stepFilter := rfl
@[simp] theorem retire_hostQ (s : State) (m : Mnemonic) (target : Word) : (s.retire m target).hostQ = s.hostQ := rfl
@[simp] theorem retire_rejected (s : State) (m : Mnemonic) (target : Word) : (s.retire m target).rejected = s.rejected := rfl

/-! ### goto -/

@[simp] theorem goto_regs (s : State) (a : Word) : (s.goto a).regs = s.regs := rfl
@[simp] theorem goto_pc (s : State) (a : Word) : (s.goto a).pc = a := rfl
@[simp] theorem goto_mem (s : State) (a : Word) : (s.goto a).mem = s.mem := rfl
@[simp] theorem goto_codeLimit (s : State) (a : Word) : (s.goto a).codeLimit = s.codeLimit := rfl
@[simp] theorem goto_runState (s : State) (a : Word) : (s.goto a).runState = .paused := rfl
@[simp] theorem goto_stopReason (s : State) (a : Word) : (s.goto a).stopReason = .pause := rfl
@[simp] theorem goto_stopIds (s : State) (a : Word) : (s.goto a).stopIds = [] := rfl
@[simp] theorem goto_lastExc (s : State) (a : Word) : (s.goto a).lastExc = s.lastExc := rfl
@[simp] theorem goto_excEn (s : State) (a : Word) : (s.goto a).excEn = s.excEn := rfl
@[simp] theorem goto_ibp (s : State) (a : Word) : (s.goto a).ibp = s.ibp := rfl
@[simp] theorem goto_dbp (s : State) (a : Word) : (s.goto a).dbp = s.dbp := rfl
@[simp] theorem goto_suppress (s : State) (a : Word) : (s.goto a).suppress = false := rfl
@[simp] theorem goto_maskLatch (s : State) (a : Word) : (s.goto a).maskLatch = none := rfl
@[simp] theorem goto_pauseReq (s : State) (a : Word) : (s.goto a).pauseReq = s.pauseReq := rfl
@[simp] theorem goto_modified (s : State) (a : Word) : (s.goto a).modified = s.modified := rfl
@[simp] theorem goto_out (s : State) (a : Word) : (s.goto a).out = s.out := rfl
@[simp] theorem goto_stepMode (s : State) (a : Word) : (s.goto a).stepMode = s.stepMode := rfl
@[simp] theorem goto_stepFilter (s : State) (a : Word) : (s.goto a).stepFilter = s.stepFilter := rfl
@[simp] theorem goto_hostQ (s : State) (a : Word) : (s.goto a).hostQ = s.hostQ := rfl
@[simp] theorem goto_rejected (s : State) (a : Word) : (s.goto a).rejected = s.rejected := rfl

/-! ### reads through an update -/

@[simp] theorem emit_reg (s : State) (o : OutItem) (q : Reg) : (s.emit o).reg q = s.reg q := rfl
@[simp] theorem stop_reg (s : State) (rs : RunState) (r : StopReason) (ids : List BpId) (q : Reg) : (s.stop rs r ids).reg q = s.reg q := rfl
@[simp] theorem takeFatal_reg (s : State) (k : ExcKind) (a : Word) (q : Reg) : (s.takeFatal k a).reg q = s.reg q := rfl
@[simp] theorem takeMaskable_reg (s : State) (k : ExcKind) (a : Word) (id : BpId) (q : Reg) : (s.takeMaskable k a id).reg q = s.reg q := rfl
@[simp] theorem resume_reg (s : State) (q : Reg) : (s.resume).reg q = s.reg q := rfl
@[simp] theorem advance_reg (s : State) (target : Word) (q : Reg) : (s.advance target).reg q = s.reg q := rfl
@[simp] theorem endCycle_reg (s : State) (m : Mnemonic) (q : Reg) : (s.endCycle m).reg q = s.reg q := rfl
@[simp] theorem retire_reg (s : State) (m : Mnemonic) (target : Word) (q : Reg) : (s.retire m target).reg q = s.reg q := rfl
@[simp] theorem goto_reg (s : State) (a : Word) (q : Reg) : (s.goto a).reg q = s.reg q := rfl
@[simp] theorem setReg_memRead (s : State) (r : Reg) (v : Word) (b : Int) : (s.setReg r v).memRead b = s.memRead b := rfl
@[simp] theorem emit_memRead (s : State) (o : OutItem) (b : Int) : (s.emit o).memRead b = s.memRead b := rfl
@[simp] theorem stop_memRead (s : State) (rs : RunState) (r : StopReason) (ids : List BpId) (b : Int) : (s.stop rs r ids).memRead b = s.memRead b := rfl
@[simp] theorem takeFatal_memRead (s : State) (k : ExcKind) (a : Word) (b : Int) : (s.takeFatal k a).memRead b = s.memRead b := rfl
@[simp] theorem takeMaskable_memRead (s : State) (k : ExcKind) (a : Word) (id : BpId) (b : Int) : (s.takeMaskable k a id).memRead b = s.memRead b := rfl
@[simp] theorem resume_memRead (s : State) (b : Int) : (s.resume).memRead b = s.memRead b := rfl
@[simp] theorem advance_memRead (s : State) (target : Word) (b : Int) : (s.advance target).memRead b = s.memRead b := rfl
@[simp] theorem endCycle_memRead (s : State) (m : Mnemonic) (b : Int) : (s.endCycle m).memRead b = s.memRead b := rfl
@[simp] theorem retire_memRead (s : State) (m : Mnemonic) (target : Word) (b : Int) : (s.retire m target).memRead b = s.memRead b := rfl
@[simp] theorem goto_memRead (s : State) (a : Word) (b : Int) : (s.goto a).memRead b = s.memRead b := rfl

end Sys2Proof.Machine
end

