-- ==== Sys2Proof/Laws/Storage.lean ====
section
/-! SUPPORT. Registers and memory: read after write, what a write leaves alone, the canonical forms and that every
operation keeps them (spec/10_state.md R22, R23, R30, R40, spec/20_memory.md R62). -/

namespace Sys2Proof.Machine

/-! ### Registers -/

@[simp] theorem reg_zero (s : State) : s.reg 0 = 0 := rfl

theorem reg_of_ne (s : State) {r : Reg} (h : r ≠ 0) : s.reg r = s.regs[r.val] := by
  simp [State.reg, h]

@[simp] theorem setReg_zero (s : State) (v : Word) : s.setReg 0 v = s := rfl

/-- Reading a register after a write (R22, R23). -/
theorem setReg_reg (s : State) (r q : Reg) (v : Word) :
    (s.setReg r v).reg q = if q = 0 then 0 else if q = r then v else s.reg q := by
  unfold State.reg State.setReg putReg
  by_cases hq : q = 0
  · simp [hq]
  · by_cases hr : r = 0
    · subst hr
      simp [hq]
    · by_cases h : q = r
      · subst h
        simp [hq]
      · have hv : r.val ≠ q.val := fun e => h (Fin.ext e.symm)
        simp [hq, hr, h, Vector.getElem_set_ne _ _ hv]

@[simp] theorem setReg_reg_same (s : State) (r : Reg) (v : Word) :
    (s.setReg r v).reg r = if r = 0 then 0 else v := by
  simp [setReg_reg]

theorem setReg_reg_of_ne (s : State) {r q : Reg} (v : Word) (h : q ≠ r) : (s.setReg r v).reg q = s.reg q := by
  rw [setReg_reg]
  by_cases hq : q = 0
  · simp [hq]
  · simp [hq, h]

/-- Register r0's slot is never written. -/
theorem putReg_slot_zero (regs : Vector Word 16) (r : Reg) (v : Word) : (putReg regs r v)[0] = regs[0] := by
  unfold putReg
  by_cases h : r = 0
  · simp [h]
  · have hv : r.val ≠ 0 := fun e => h (Fin.ext e)
    simp [h, Vector.getElem_set_ne _ _ hv]

/-! ### Memory -/

theorem memGet_nil (a : Nat) : memGet [] a = 0 := rfl

theorem wfFrom_mono {lo lo' : Nat} {m : Memory} (h : lo' ≤ lo) (hw : Memory.wfFrom lo m = true) :
    Memory.wfFrom lo' m = true := by
  cases m with
  | nil => rfl
  | cons c m =>
    simp only [Memory.wfFrom, Bool.and_eq_true, decide_eq_true_eq] at hw ⊢
    exact ⟨⟨⟨by omega, hw.1.1.2⟩, hw.1.2⟩, hw.2⟩

/-- Below the lowest address of a canonical memory nothing is listed. -/
theorem memGet_below {lo : Nat} {m : Memory} (hw : Memory.wfFrom lo m = true) {a : Nat} (h : a < lo) :
    memGet m a = 0 := by
  induction m generalizing lo with
  | nil => rfl
  | cons c m ih =>
    simp only [Memory.wfFrom, Bool.and_eq_true, decide_eq_true_eq] at hw
    simp only [memGet]
    rw [if_neg (by omega)]
    exact ih hw.2 (by omega)

/-- A write leaves every other word alone, canonical form or not. -/
theorem memGet_memPut_of_ne (m : Memory) {a b : Nat} (v : Word) (h : b ≠ a) :
    memGet (memPut m a v) b = memGet m b := by
  induction m with
  | nil =>
    simp only [memPut]
    split
    · rfl
    · simp [memGet, h]
  | cons c m ih =>
    simp only [memPut]
    split
    · split
      · rfl
      · simp [memGet, h]
    · split
      · rename_i hac
        subst hac
        split
        · simp [memGet, h]
        · simp [memGet, h]
      · simp [memGet, ih]

/-- Reading back a written word, in a canonical memory. -/
theorem memGet_memPut_same {m : Memory} {lo : Nat} (hw : Memory.wfFrom lo m = true) (a : Nat) (v : Word) :
    memGet (memPut m a v) a = v := by
  induction m generalizing lo with
  | nil =>
    simp only [memPut]
    split
    · rename_i hv
      rw [hv]
      rfl
    · simp [memGet]
  | cons c m ih =>
    simp only [Memory.wfFrom, Bool.and_eq_true, decide_eq_true_eq] at hw
    simp only [memPut]
    split
    · split
      · rename_i h1 hv
        rw [hv]
        simp only [memGet]
        rw [if_neg (by omega)]
        exact memGet_below hw.2 (by omega)
      · simp [memGet]
    · split
      · rename_i hac
        split
        · rename_i hv
          rw [hv]
          exact memGet_below hw.2 (by omega)
        · simp [memGet]
      · rename_i hne
        simp only [memGet]
        rw [if_neg hne]
        exact ih hw.2

/-- A write keeps the canonical form. -/
theorem wfFrom_memPut {m : Memory} {lo a : Nat} (hw : Memory.wfFrom lo m = true) (hlo : lo ≤ a) (ha : a < 256)
    (v : Word) : Memory.wfFrom lo (memPut m a v) = true := by
  induction m generalizing lo with
  | nil =>
    simp only [memPut]
    split
    · rfl
    · rename_i hv
      simp only [Memory.wfFrom, Bool.and_eq_true, decide_eq_true_eq]
      exact ⟨⟨⟨hlo, ha⟩, hv⟩, trivial⟩
  | cons c m ih =>
    have hw0 := hw
    simp only [Memory.wfFrom, Bool.and_eq_true, decide_eq_true_eq] at hw
    simp only [memPut]
    split
    · split
      · exact hw0
      · rename_i hlt hv
        simp only [Memory.wfFrom, Bool.and_eq_true, decide_eq_true_eq]
        exact ⟨⟨⟨hlo, ha⟩, hv⟩, ⟨⟨by omega, hw.1.1.2⟩, hw.1.2⟩, hw.2⟩
    · split
      · rename_i hac
        split
        · exact wfFrom_mono (by omega) hw.2
        · rename_i hv
          simp only [Memory.wfFrom, Bool.and_eq_true, decide_eq_true_eq]
          subst hac
          exact ⟨⟨⟨hlo, ha⟩, hv⟩, hw.2⟩
      · rename_i h1 h2
        simp only [Memory.wfFrom, Bool.and_eq_true, decide_eq_true_eq]
        exact ⟨hw.1, ih hw.2 (by omega)⟩

theorem wf_memPut {m : Memory} {a : Nat} (hw : m.wf = true) (ha : a < 256) (v : Word) :
    Memory.wf (memPut m a v) = true :=
  wfFrom_memPut hw (Nat.zero_le a) ha v

/-- `memTabulate` makes a canonical memory. -/
theorem wf_memTabulate (f : Nat → Word) (n : Nat) (hn : n ≤ 256) (rest : Memory)
    (hr : Memory.wfFrom n rest = true) : Memory.wf (memTabulate f n rest) = true := by
  induction n generalizing rest with
  | zero => exact hr
  | succ n ih =>
    apply ih (by omega)
    split
    · exact wfFrom_mono (by omega) hr
    · rename_i hv
      simp only [Memory.wfFrom, Bool.and_eq_true, decide_eq_true_eq]
      exact ⟨⟨⟨le_refl n, by simp [Config.memWords]; omega⟩, hv⟩, hr⟩

/-- The words of `memTabulate`. -/
theorem memGet_memTabulate (f : Nat → Word) (n : Nat) (hn : n ≤ 256) (rest : Memory)
    (hr : Memory.wfFrom n rest = true) (a : Nat) :
    memGet (memTabulate f n rest) a = if a < n then f a else memGet rest a := by
  induction n generalizing rest with
  | zero => simp [memTabulate]
  | succ n ih =>
    simp only [memTabulate]
    by_cases hf : f n = Config.unlistedWord
    · rw [if_pos hf, ih (by omega) rest (wfFrom_mono (by omega) hr)]
      by_cases hlt : a < n
      · rw [if_pos hlt, if_pos (by omega)]
      · by_cases he : a = n
        · subst he
          rw [if_neg hlt, if_pos (by omega), hf]
          exact memGet_below hr (by omega)
        · rw [if_neg hlt, if_neg (by omega)]
    · have hc : Memory.wfFrom n ((n, f n) :: rest) = true := by
        simp only [Memory.wfFrom, Bool.and_eq_true, decide_eq_true_eq]
        exact ⟨⟨⟨le_refl n, by simp only [Config.memWords]; omega⟩, hf⟩, hr⟩
      rw [if_neg hf, ih (by omega) _ hc]
      by_cases hlt : a < n
      · rw [if_pos hlt, if_pos (by omega)]
      · by_cases he : a = n
        · subst he
          simp [memGet]
        · rw [if_neg hlt, if_neg (by omega)]
          simp [memGet, he]

/-! ### The memory port -/

/-- `MemRead` answers exactly on [0, 255], with the word (R62). -/
theorem memRead_eq_some_iff (s : State) (a : Int) (v : Word) :
    s.memRead a = some v ↔ (0 ≤ a ∧ a ≤ 255) ∧ memGet s.mem a.toNat = v := by
  simp [State.memRead, isMemoryAddress]

/-- `MemWrite` answers exactly on [0, 255], with the word and MODIFIED changed (R62). -/
theorem memWrite_eq_some_iff (s t : State) (a : Int) (v : Word) :
    s.memWrite a v = some t ↔ (0 ≤ a ∧ a ≤ 255) ∧
      t = { s with mem := memPut s.mem a.toNat v, modified := addAddress s.modified a.toNat } := by
  unfold State.memWrite
  by_cases h : isMemoryAddress a = true
  · have h' : 0 ≤ a ∧ a ≤ 255 := by simpa [isMemoryAddress] using h
    rw [if_pos h, Option.some.injEq, and_iff_right h']
    exact eq_comm
  · have h' : ¬ (0 ≤ a ∧ a ≤ 255) := by simpa [isMemoryAddress] using h
    simp only [if_neg h, h', false_and, reduceCtorEq]

/-! ### MODIFIED -/

theorem risingFrom_mono {lo lo' : Nat} {as : List Nat} (h : lo' ≤ lo) (hr : risingFrom lo as = true) :
    risingFrom lo' as = true := by
  cases as with
  | nil => rfl
  | cons a as =>
    simp only [risingFrom, Bool.and_eq_true, decide_eq_true_eq] at hr ⊢
    exact ⟨⟨by omega, hr.1.2⟩, hr.2⟩

/-- The set of addresses stays a set (R40). -/
theorem risingFrom_addAddress {as : List Nat} {lo a : Nat} (hr : risingFrom lo as = true) (hlo : lo ≤ a)
    (ha : a < 256) : risingFrom lo (addAddress as a) = true := by
  induction as generalizing lo with
  | nil =>
    simp only [addAddress, risingFrom, Bool.and_eq_true, decide_eq_true_eq]
    exact ⟨⟨hlo, ha⟩, trivial⟩
  | cons b bs ih =>
    have hr0 := hr
    simp only [risingFrom, Bool.and_eq_true, decide_eq_true_eq] at hr
    simp only [addAddress]
    split
    · simp only [risingFrom, Bool.and_eq_true, decide_eq_true_eq]
      exact ⟨⟨hlo, ha⟩, ⟨by omega, hr.1.2⟩, hr.2⟩
    · split
      · exact hr0
      · simp only [risingFrom, Bool.and_eq_true, decide_eq_true_eq]
        exact ⟨hr.1, ih hr.2 (by omega)⟩

/-- Membership after an address is added (R40, R62). -/
theorem mem_addAddress (as : List Nat) (a b : Nat) : b ∈ addAddress as a ↔ b = a ∨ b ∈ as := by
  induction as with
  | nil => simp [addAddress]
  | cons c cs ih =>
    simp only [addAddress]
    split
    · simp
    · split
      · rename_i h
        subst h
        simp
      · simp only [List.mem_cons, ih]
        tauto

end Sys2Proof.Machine
end

