-- ==== Sys2Proof/Laws/Checks.lean ====
section
/-! SUPPORT. What the checks of step 4 can come to (spec/60_exceptions.md R212, R213), what `guarded` does with it, and the
effect of each instruction once the checks have passed. -/

namespace Sys2Proof.Machine

/-! ### checkAccess, checkAll -/

theorem checkAccess_pass_iff (s : State) (a : Access) (hits hits' : List BpId) :
    checkAccess s a hits = .pass hits' ↔
      a.outside = false ∧ maskableStop s a = none ∧ hits' = hits ++ watchIds s a := by
  unfold checkAccess
  cases ho : a.outside <;> cases hm : maskableStop s a <;> simp
  exact eq_comm

/-- The checks pass exactly when no access is outside memory and no maskable exception stops; the hits are those of the
accesses, in order (R212, R213). -/
theorem checkAll_pass_iff (s : State) (as : List Access) (hits hits' : List BpId) :
    checkAll s as hits = .pass hits' ↔
      (∀ a ∈ as, a.outside = false) ∧ (∀ a ∈ as, maskableStop s a = none) ∧
        hits' = hits ++ as.flatMap (watchIds s) := by
  induction as generalizing hits with
  | nil =>
    simp [checkAll]
    exact eq_comm
  | cons a as ih =>
    simp only [checkAll]
    cases hc : checkAccess s a hits with
    | pass h1 =>
      obtain ⟨h2, h3, rfl⟩ := (checkAccess_pass_iff s a hits h1).mp hc
      simp [ih, h2, h3]
    | fatal addr =>
      simp only [reduceCtorEq, false_iff, not_and]
      intro h1 h2
      have := (checkAccess_pass_iff s a hits (hits ++ watchIds s a)).mpr
        ⟨h1 a (by simp), h2 a (by simp), rfl⟩
      rw [this] at hc
      cases hc
    | maskable k addr id =>
      simp only [reduceCtorEq, false_iff, not_and]
      intro h1 h2
      have := (checkAccess_pass_iff s a hits (hits ++ watchIds s a)).mpr
        ⟨h1 a (by simp), h2 a (by simp), rfl⟩
      rw [this] at hc
      cases hc

/-- A fatal verdict comes from an access that is outside memory (R212 (a)). -/
theorem checkAll_fatal (s : State) (as : List Access) (hits : List BpId) (addr : Int)
    (h : checkAll s as hits = .fatal addr) : ∃ a ∈ as, a.outside = true ∧ a.addr = addr := by
  induction as generalizing hits with
  | nil => simp [checkAll] at h
  | cons a as ih =>
    simp only [checkAll] at h
    cases hc : checkAccess s a hits with
    | pass h1 =>
      rw [hc] at h
      obtain ⟨b, hb, h2⟩ := ih h1 h
      exact ⟨b, by simp [hb], h2⟩
    | fatal addr' =>
      rw [hc] at h
      unfold checkAccess at hc
      cases ho : a.outside
      · cases hm : maskableStop s a <;> simp [ho, hm] at hc
      · simp [ho] at hc h
        exact ⟨a, by simp, ho, by rw [hc, h]⟩
    | maskable k addr' id =>
      rw [hc] at h
      cases h

/-- A maskable verdict comes from an access that stops (R212 (b)); its kind is a maskable one. -/
theorem checkAll_maskable (s : State) (as : List Access) (hits : List BpId) (k : ExcKind) (addr : Int) (id : BpId)
    (h : checkAll s as hits = .maskable k addr id) :
    ∃ a ∈ as, a.outside = false ∧ maskableStop s a = some id ∧ k = segmentKind a.dir ∧ a.addr = addr := by
  induction as generalizing hits with
  | nil => simp [checkAll] at h
  | cons a as ih =>
    simp only [checkAll] at h
    cases hc : checkAccess s a hits with
    | pass h1 =>
      rw [hc] at h
      obtain ⟨b, hb, h2⟩ := ih h1 h
      exact ⟨b, by simp [hb], h2⟩
    | fatal addr' =>
      rw [hc] at h
      cases h
    | maskable k' addr' id' =>
      rw [hc] at h
      unfold checkAccess at hc
      cases ho : a.outside
      · cases hm : maskableStop s a
        · simp [ho, hm] at hc
        · simp [ho, hm] at hc h
          obtain ⟨rfl, rfl, rfl⟩ := hc
          obtain ⟨rfl, rfl, rfl⟩ := h
          exact ⟨a, by simp, ho, hm, rfl, rfl⟩
      · simp [ho] at hc

/-! ### Undisturbed in the terms of the checks -/

theorem outside_eq_false_iff (a : Access) :
    a.outside = false ↔ (a.space = .memory → 0 ≤ a.addr ∧ a.addr ≤ 255) := by
  unfold Access.outside
  cases a.space <;> simp [isMemoryAddress]

theorem maskableStop_eq_none_iff (s : State) (a : Access) :
    maskableStop s a = none ↔ (a.space = .memory → a.addr < (s.codeLimit : Int) →
      s.excEn.get (segmentKind a.dir) = none ∨ s.suppress = true ∨ s.maskLatch = some (segmentKind a.dir, s.pc)) := by
  unfold maskableStop
  split
  · rename_i h
    simp [h.1, h.2.1, h.2.2.1, h.2.2.2]
  · rename_i h
    simp only [true_iff]
    intro h1 h2
    by_contra hn
    simp only [not_or, Bool.not_eq_true] at hn
    exact h ⟨h1, h2, hn.2.1, hn.2.2⟩

theorem watches_iff (e : DataBp) (a : Access) : e.watches a = true ↔ WatchedBy e a := by
  unfold DataBp.watches
  cases h : a.dir <;> simp [h, and_assoc]

theorem watchIds_eq_nil_iff (s : State) (a : Access) :
    watchIds s a = [] ↔ s.suppress = true ∨ ∀ e ∈ s.dbp, ¬ WatchedBy e a := by
  unfold watchIds
  cases s.suppress <;> simp [← watches_iff]

theorem unwatched_iff (i : Instr) (s : State) :
    Unwatched i s ↔ ∀ a ∈ fetchAccess s :: accesses i s, watchIds s a = [] := by
  constructor
  · rintro (h | h) a ha
    · exact (watchIds_eq_nil_iff s a).mpr (.inl h)
    · exact (watchIds_eq_nil_iff s a).mpr (.inr fun e he => h e he a ha)
  · intro h
    by_cases hs : s.suppress = true
    · exact .inl hs
    · exact .inr fun e he a ha => ((watchIds_eq_nil_iff s a).mp (h a ha)).resolve_left hs e he

/-- An instruction is undisturbed exactly when none of the checks of step 4 answers anything (R209 step 4, R212). -/
theorem undisturbed_iff (i : Instr) (s : State) :
    Undisturbed i s ↔ (∀ a ∈ accesses i s, a.outside = false) ∧ (∀ a ∈ accesses i s, maskableStop s a = none) ∧
      ∀ a ∈ fetchAccess s :: accesses i s, watchIds s a = [] := by
  rw [← unwatched_iff]
  simp only [outside_eq_false_iff, maskableStop_eq_none_iff]

/-- The checks of an instruction pass with no hit exactly when it is undisturbed. -/
theorem checkInstr_pass_nil_iff (i : Instr) (s : State) : checkInstr i s = .pass [] ↔ Undisturbed i s := by
  unfold checkInstr
  rw [checkAll_pass_iff, undisturbed_iff]
  constructor
  · rintro ⟨h1, h2, h3⟩
    refine ⟨h1, h2, fun a ha => ?_⟩
    have h4 := List.append_eq_nil_iff.mp h3.symm
    rcases List.mem_cons.mp ha with rfl | ha
    · exact h4.1
    · exact List.flatMap_eq_nil_iff.mp h4.2 a ha
  · rintro ⟨h1, h2, h3⟩
    refine ⟨h1, h2, ?_⟩
    rw [h3 _ (List.mem_cons_self ..)]
    symm
    exact List.flatMap_eq_nil_iff.mpr fun a ha => h3 a (List.mem_cons_of_mem _ ha)

/-! ### guarded -/

theorem guarded_of_undisturbed {i : Instr} {s : State} (h : Undisturbed i s)
    (e : Host.Outcome State Fault Refusal) : guarded i s e = e := by
  unfold guarded
  rw [(checkInstr_pass_nil_iff i s).mpr h]

/-- Everything a guarded effect can answer: one of the three stops of step 4, or the effect of an undisturbed
instruction (R209, R213 to R215). -/
theorem guarded_cases (i : Instr) (s : State) (e : Host.Outcome State Fault Refusal) :
    (∃ a ∈ accesses i s, a.outside = true ∧ guarded i s e = .next (s.takeFatal .invalidMemoryAccess (u16 a.addr))) ∨
    (∃ a ∈ accesses i s, ∃ id, a.outside = false ∧ maskableStop s a = some id ∧
      guarded i s e = .next (s.takeMaskable (segmentKind a.dir) (u16 a.addr) id)) ∨
    ((∀ a ∈ accesses i s, a.outside = false) ∧ (∀ a ∈ accesses i s, maskableStop s a = none) ∧
      ∃ id ids, (fetchAccess s :: accesses i s).flatMap (watchIds s) = id :: ids ∧
        guarded i s e = .next (s.stop .paused .dataBreakpoint (id :: ids))) ∨
    (Undisturbed i s ∧ guarded i s e = e) := by
  cases hc : checkInstr i s with
  | fatal addr =>
    obtain ⟨a, ha, ho, rfl⟩ := checkAll_fatal _ _ _ _ hc
    exact .inl ⟨a, ha, ho, by simp [guarded, hc]⟩
  | maskable k addr id =>
    obtain ⟨a, ha, ho, hm, rfl, rfl⟩ := checkAll_maskable _ _ _ _ _ _ hc
    exact .inr (.inl ⟨a, ha, id, ho, hm, by simp [guarded, hc]⟩)
  | pass hits =>
    cases hits with
    | nil =>
      have hu := (checkInstr_pass_nil_iff i s).mp hc
      exact .inr (.inr (.inr ⟨hu, guarded_of_undisturbed hu e⟩))
    | cons id ids =>
      obtain ⟨h1, h2, h3⟩ := (checkAll_pass_iff _ _ _ _).mp hc
      exact .inr (.inr (.inl ⟨h1, h2, id, ids, by simpa using h3.symm, by simp [guarded, hc]⟩))

/-! ### The effect of each instruction -/

/-- The effect of an instruction once step 4 has passed: steps 6 to 10 (R209). -/
def effect (i : Instr) (s : State) : Host.Outcome State Fault Refusal :=
  match i with
  | .halt => .next (s.stop .halted .halt [])
  | .read x => .next (requestInput s x)
  | .write x => .next ((s.emit (.value (s16 (s.reg x)))).retire .write s.nextPc)
  | .jumpr x => .next (s.retire .jumpr (targetRegister s x))
  | .setn x n => .next (writeResult s .setn x (u16 n))
  | .loadn x n => loadFrom s .loadn x (eaDirect n)
  | .storen x n => storeTo s .storen x (eaDirect n)
  | .loadr x y => loadFrom s .loadr x (eaIndirect s y)
  | .storer x y => storeTo s .storer x (eaIndirect s y)
  | .popr x y =>
    withRead s (eaPop s y) (fun v => ((s.setReg y (u16 (eaPop s y))).setReg x v).retire .popr s.nextPc)
  | .pushr x y =>
    withWrite s (eaIndirect s y) (s.reg x)
      (fun t => (t.setReg y (u16 (eaIndirect s y + 1))).retire .pushr s.nextPc)
  | .addn x n => .next (writeResult s .addn x (u16 (((s.reg x).toNat : Int) + n)))
  | .nop => .next (s.retire .nop s.nextPc)
  | .copy x y => .next (writeResult s .copy x (s.reg y))
  | .add x y z => .next (writeResult s .add x (aluAdd (s.reg y) (s.reg z)))
  | .neg x z => .next (writeResult s .neg x (aluSub 0 (s.reg z)))
  | .sub x y z => .next (writeResult s .sub x (aluSub (s.reg y) (s.reg z)))
  | .mul x y z => .next (writeResult s .mul x (aluMul (s.reg y) (s.reg z)))
  | .div x y z => .next (writeUnlessZero s .div x (s.reg z) (aluDiv (s.reg y) (s.reg z)))
  | .mod x y z => .next (writeUnlessZero s .mod x (s.reg z) (aluMod (s.reg y) (s.reg z)))
  | .jumpn n => .next (s.retire .jumpn (targetImmediate n))
  | .calln x n => .next ((s.setReg x s.nextPc).retire .calln (targetImmediate n))
  | .jeqzn x n => .next (s.retire .jeqzn (branchTarget s (isZero (s.reg x)) (targetImmediate n)))
  | .jnezn x n => .next (s.retire .jnezn (branchTarget s (isNonZero (s.reg x)) (targetImmediate n)))
  | .jgtzn x n => .next (s.retire .jgtzn (branchTarget s (isPositive (s.reg x)) (targetImmediate n)))
  | .jltzn x n => .next (s.retire .jltzn (branchTarget s (isNegative (s.reg x)) (targetImmediate n)))

/-- Every meaning is its effect behind the checks of step 4. -/
theorem exec_eq_guarded (i : Instr) (s : State) : exec i s = guarded i s (effect i s) := by
  cases i <;> rfl

theorem exec_of_undisturbed {i : Instr} {s : State} (h : Undisturbed i s) : exec i s = effect i s := by
  rw [exec_eq_guarded, guarded_of_undisturbed h]

/-- Everything `exec` can answer. -/
theorem exec_cases (i : Instr) (s : State) :
    (∃ a ∈ accesses i s, a.outside = true ∧ exec i s = .next (s.takeFatal .invalidMemoryAccess (u16 a.addr))) ∨
    (∃ a ∈ accesses i s, ∃ id, a.outside = false ∧ maskableStop s a = some id ∧
      exec i s = .next (s.takeMaskable (segmentKind a.dir) (u16 a.addr) id)) ∨
    ((∀ a ∈ accesses i s, a.outside = false) ∧ (∀ a ∈ accesses i s, maskableStop s a = none) ∧
      ∃ id ids, (fetchAccess s :: accesses i s).flatMap (watchIds s) = id :: ids ∧
        exec i s = .next (s.stop .paused .dataBreakpoint (id :: ids))) ∨
    (Undisturbed i s ∧ exec i s = effect i s) := by
  rw [exec_eq_guarded]
  exact guarded_cases i s (effect i s)

/-! ### The memory port of an undisturbed instruction -/

theorem isMemoryAddress_iff (a : Int) : isMemoryAddress a = true ↔ 0 ≤ a ∧ a ≤ 255 := by
  simp [isMemoryAddress]

theorem readMem_outside (a : Int) : (readMem a).outside = false ↔ 0 ≤ a ∧ a ≤ 255 := by
  unfold readMem Access.outside
  simp [isMemoryAddress_iff]

theorem writeMem_outside (a : Int) : (writeMem a).outside = false ↔ 0 ≤ a ∧ a ≤ 255 := by
  unfold writeMem Access.outside
  simp [isMemoryAddress_iff]

theorem withRead_of_mem {s : State} {a : Int} (h : 0 ≤ a ∧ a ≤ 255) (k : Word → State) :
    withRead s a k = .next (k (memGet s.mem a.toNat)) := by
  unfold withRead
  rw [(memRead_eq_some_iff s a _).mpr ⟨h, rfl⟩]

theorem withWrite_of_mem {s : State} {a : Int} (h : 0 ≤ a ∧ a ≤ 255) (v : Word) (k : State → State) :
    withWrite s a v k =
      .next (k { s with mem := memPut s.mem a.toNat v, modified := addAddress s.modified a.toNat }) := by
  unfold withWrite
  rw [(memWrite_eq_some_iff s _ a v).mpr ⟨h, rfl⟩]

end Sys2Proof.Machine
end

