-- ==== Sys2Proof/Laws/Steps.lean ====
section
/-! SUPPORT. What a cycle and a step can do (spec/60_exceptions.md R209, spec/70_reset_and_hazards.md R254, R255): each is
taken apart once here. -/

namespace Sys2Proof.Machine

/-- Every cycle is one of: the pause stop, the fatal fetch bound, the breakpoint stop, or the fetch (R209, R210). -/
theorem cycle_cases (s : State) :
    (s.pauseReq = true ∧ cycle s = .next ({ s with pauseReq := false }.stop .paused .pause [])) ∨
    (s.pauseReq = false ∧ s.codeLimit ≤ s.pc.toNat ∧
      cycle s = .next (s.takeFatal .executeOutsideSegment s.pc)) ∨
    (s.pauseReq = false ∧ s.pc.toNat < s.codeLimit ∧ instrBpIds s ≠ [] ∧ s.suppress = false ∧
      cycle s = .next (s.stop .paused .breakpoint (instrBpIds s))) ∨
    (s.pauseReq = false ∧ s.pc.toNat < s.codeLimit ∧ (instrBpIds s = [] ∨ s.suppress = true) ∧
      cycle s = fetchAndExec s) := by
  unfold cycle
  cases hp : s.pauseReq
  · by_cases hl : s.codeLimit ≤ s.pc.toNat
    · exact .inr (.inl ⟨rfl, hl, by simp [hl]⟩)
    · by_cases hb : instrBpIds s ≠ [] ∧ s.suppress = false
      · exact .inr (.inr (.inl ⟨rfl, by omega, hb.1, hb.2, by simp [hl, hb]⟩))
      · refine .inr (.inr (.inr ⟨rfl, by omega, ?_, by simp [hl, hb]⟩))
        cases hs : s.suppress
        · exact .inl (by simpa [hs] using hb)
        · exact .inr rfl
  · exact .inl ⟨rfl, by simp⟩

/-- A fetch answers the port's fault, an instruction's `exec`, or the verdict on an undecoded word. -/
theorem fetchAndExec_cases (s : State) :
    (s.memRead (s.pc.toNat : Int) = none ∧ fetchAndExec s = .fault (.undefinedAddress (s.pc.toNat : Int))) ∨
    (∃ w, s.memRead (s.pc.toNat : Int) = some w ∧
      ((∃ i, decode w = .ok i ∧ fetchAndExec s = exec i s) ∨
        (∃ e, decode w = .error e ∧ fetchAndExec s = undecoded s w e))) := by
  unfold fetchAndExec
  cases hm : s.memRead (s.pc.toNat : Int) with
  | none => exact .inl ⟨rfl, rfl⟩
  | some w =>
    refine .inr ⟨w, rfl, ?_⟩
    cases hd : decode w with
    | ok i => exact .inl ⟨i, rfl, by simp [hd]⟩
    | error e => exact .inr ⟨e, rfl, by simp [hd]⟩

/-- Every step is the core's turn, with the host's plan as it was or one tick shorter, or the landing of the host's next
operation (R254). -/
theorem step_cases (s : State) :
    (step s = coreTurn s ∧
      (s.hostQ = [] ∨ ∃ o rest, s.hostQ = .op o :: rest ∧ s.runState = .running ∧ o.landsWhileRunning = false)) ∨
    (∃ rest, s.hostQ = .tick :: rest ∧ step s = coreTurn { s with hostQ := rest }) ∨
    (∃ o rest, s.hostQ = .op o :: rest ∧ (s.runState = .running → o.landsWhileRunning = true) ∧
      step s = applyHostOp o { s with hostQ := rest }) := by
  unfold step turn
  cases hq : s.hostQ with
  | nil => exact .inl ⟨rfl, .inl rfl⟩
  | cons e rest =>
    cases e with
    | tick => exact .inr (.inl ⟨rest, rfl, rfl⟩)
    | op o =>
      by_cases h : s.runState = .running ∧ o.landsWhileRunning = false
      · exact .inl ⟨by simp [h], .inr ⟨o, rest, rfl, h.1, h.2⟩⟩
      · refine .inr (.inr ⟨o, rest, rfl, fun hr => ?_, by simp [h]⟩)
        cases hl : o.landsWhileRunning
        · exact absurd ⟨hr, hl⟩ h
        · rfl

/-- The core's turn is a cycle, an idle slot, or the refusal after a rejected `configure`. -/
theorem coreTurn_cases (s : State) :
    (s.runState = .running ∧ s.rejected = false ∧ coreTurn s = cycle s) ∨
    (s.runState = .running ∧ s.rejected = true ∧ coreTurn s = .refused .mustNotRun) ∨
    (s.runState ≠ .running ∧ coreTurn s = .next s) := by
  unfold coreTurn
  by_cases hr : s.runState = .running
  · cases hj : s.rejected
    · exact .inl ⟨hr, rfl, by simp [hr]⟩
    · exact .inr (.inl ⟨hr, rfl, by simp [hr]⟩)
  · exact .inr (.inr ⟨hr, by simp [hr]⟩)

/-- A step that takes a cycle is that cycle. -/
theorem step_of_takesCycle {s : State} (h : TakesCycle s) : step s = cycle s := by
  obtain ⟨hr, hj, hq⟩ := h
  have hc : coreTurn s = cycle s := by simp [coreTurn, hr, hj]
  unfold step turn
  rcases hq with hq | ⟨o, rest, hq, hl⟩
  · simp [hq, hc]
  · simp [hq, hr, hl, hc]

/-! ### Which host operations land (R254, R255) -/

/-- Where R254 and R255 agree such an operation has its effect. -/
theorem landWhere_agreed {s : State} (hr : s.runState ≠ .running) (k : Host.Outcome State Fault Refusal) :
    landWhere s true k = k := by
  simp [landWhere, hr]

/-- Where they disagree it has its effect or is refused, as the free value says. -/
theorem landWhere_open {s : State} (hr : s.runState ≠ .running) (k : Host.Outcome State Fault Refusal) :
    landWhere s false k = if Config.hostTableHolds then k else .refused .hostOpNotAllowed := by
  simp [landWhere, hr]

/-- Everything such an operation can answer. -/
theorem landWhere_cases (s : State) (agreed : Bool) (k : Host.Outcome State Fault Refusal) :
    landWhere s agreed k = .refused .hostOpNotAllowed ∨ (s.runState ≠ .running ∧ landWhere s agreed k = k) := by
  unfold landWhere
  split
  · exact .inl rfl
  · split
    · exact .inr ⟨‹_›, rfl⟩
    · exact .inl rfl

/-- Everything `supply` can answer: the end of the `read` in progress, the refusal after a rejected `configure`, or the
refusal outside AwaitingInput (R192, R250, R255). -/
theorem supplyAnswer_cases (s : State) (answer : InputAnswer) :
    (∃ x, s.runState = .awaitingInput x ∧ s.rejected = false ∧ supplyAnswer s answer = .next (answerRead s x answer)) ∨
    (∃ x, s.runState = .awaitingInput x ∧ s.rejected = true ∧ supplyAnswer s answer = .refused .mustNotRun) ∨
    ((∀ x, s.runState ≠ .awaitingInput x) ∧ supplyAnswer s answer = .refused .hostOpNotAllowed) := by
  unfold supplyAnswer
  cases s.runState <;> cases s.rejected <;> simp

end Sys2Proof.Machine
end

