-- ==== Sys2Proof/Laws/Effects.lean ====
section
/-! SUPPORT. Each shared operation once, in the terms of Sys2Proof/Safety.lean: the end of a cycle, a stop, a taken
exception, a memory write. -/

namespace Sys2Proof.Machine

theorem stepStops_iff (s : State) (m : Mnemonic) :
    s.stepStops m = true ↔ s.stepMode = true ∧ (s.stepFilter = none ∨ s.stepFilter = some m) := by
  simp [State.stepStops]

/-- Steps 8 and 10 from a state whose effect left `pc`, the latch, the configuration, LAST_EXC and the stop report as
they were (R209). -/
theorem retired_retire {s u : State} (m : Mnemonic) (target : Word) (hp : u.pc = s.pc)
    (hm : u.maskLatch = s.maskLatch) (hc : SameConfig s u) (hl : u.lastExc = s.lastExc)
    (hr : u.runState = s.runState ∧ u.stopReason = s.stopReason ∧ u.stopIds = s.stopIds) :
    Retired m target s (u.retire m target) := by
  obtain ⟨h1, h2, h3, h4, h5, h6, h7, h8⟩ := hc
  have hs : u.stepStops m = s.stepStops m := by simp [State.stepStops, h6, h7]
  refine ⟨⟨h1, h2, h3, h4, h5, h6, h7, h8⟩, hl, rfl, rfl, by simp [hm, hp], ?_⟩
  by_cases h : s.stepStops m = true
  · rw [if_pos ((stepStops_iff s m).mp h)]
    simp [hs, h]
  · rw [if_neg (fun x => h ((stepStops_iff s m).mpr x))]
    simpa [hs, h] using hr

theorem sameConfig_refl (s : State) : SameConfig s s := ⟨rfl, rfl, rfl, rfl, rfl, rfl, rfl, rfl⟩

/-- A stop before the effect (R209). -/
theorem stoppedWith_stop (s : State) (rs : RunState) (r : StopReason) (ids : List BpId) :
    StoppedWith rs r ids s (s.stop rs r ids) :=
  ⟨rfl, rfl, rfl, fun _ => rfl, ⟨fun _ => rfl, rfl⟩, sameConfig_refl s, ⟨rfl, rfl⟩, rfl, rfl, rfl, rfl⟩

/-- A fatal exception taken (R214). -/
theorem haltedBy_takeFatal (s : State) (k : ExcKind) (addr : Word) : HaltedBy k addr s (s.takeFatal k addr) := by
  refine ⟨rfl, rfl, rfl, ?_, fun _ => rfl, ⟨fun _ => rfl, rfl⟩, sameConfig_refl s, rfl, rfl, rfl, rfl⟩
  simp only [takeFatal_stopReason, takeFatal_stopIds, fatalReason, fatalIds]
  cases s.excEn.get k <;> simp

/-- A maskable exception taken (R215). -/
theorem pausedBy_takeMaskable (s : State) (k : ExcKind) (addr : Word) (id : BpId) :
    PausedBy k addr id s (s.takeMaskable k addr id) :=
  ⟨rfl, rfl, rfl, rfl, rfl, fun _ => rfl, ⟨fun _ => rfl, rfl⟩, sameConfig_refl s, ⟨rfl, rfl⟩, rfl, rfl⟩

/-- A memory write through the port (R62). -/
theorem storedAt_memPut {s : State} (hw : s.mem.wf = true) {a : Int} (ha : 0 ≤ a ∧ a ≤ 255) (v : Word) :
    StoredAt a v s { s with mem := memPut s.mem a.toNat v, modified := addAddress s.modified a.toNat } := by
  refine ⟨ha, (memRead_eq_some_iff _ _ _).mpr ⟨ha, memGet_memPut_same hw _ _⟩, ?_, fun b => mem_addAddress _ _ _⟩
  intro b hb
  unfold State.memRead
  by_cases h : isMemoryAddress b = true
  · rw [if_pos h, if_pos h, memGet_memPut_of_ne]
    have := (isMemoryAddress_iff b).mp h
    omega
  · rw [if_neg h, if_neg h]

theorem u16_toNat_add_one (v : Word) : u16 ((v.toNat : Int) + 1) = v + 1 := by
  simp [u16, BitVec.ofInt_add]

theorem u16_toNat_sub_one (v : Word) : u16 ((v.toNat : Int) - 1) = v - 1 := by
  have h := aluSub_eq v 1
  simpa [aluSub] using h

theorem targetImmediate_eq (n : Nat) : targetImmediate n = BitVec.ofNat 16 n := by
  simp [targetImmediate, u16]

end Sys2Proof.Machine
end

