-- ==== Sys2Proof/Laws/PerInstr.lean ====
section
/-! SUPPORT. The families of facts proved instruction by instruction (LAWS.json). -/

namespace Sys2Proof.Laws

/-- Operand bits that all lie outside a mask leave a template matched (R84, R85). -/
theorem template_matched (t a b c n m : Word) (ha : a &&& m = 0) (hb : b &&& m = 0) (hc : c &&& m = 0)
    (hn : n &&& m = 0) : (t ^^^ (t ||| a ||| b ||| c ||| n)) &&& m = 0 := by
  ext i hi
  have ha' := congrArg (fun v => v[i]) ha
  have hb' := congrArg (fun v => v[i]) hb
  have hc' := congrArg (fun v => v[i]) hc
  have hn' := congrArg (fun v => v[i]) hn
  simp at ha' hb' hc' hn' ⊢
  cases hm : m[i]
  · simp
  · simp_all

/-- The number field lies outside a mask that does not fix it. -/
theorem low_byte_outside (v m : Word) (h : (0xFF : Word) &&& m = 0) : (v &&& 0xFF) &&& m = 0 := by
  rw [BitVec.and_assoc, h]
  exact BitVec.and_zero

/-- An operand field the definition does not declare is empty, one it declares lies outside its mask (R82 to R84). -/
theorem matchesWord_encodeWith (d : InstrDef) (x y z : Reg) (n : Int)
    (hx : ∀ r : Reg, (if d.slot1 = .register then BitVec.ofNat 16 r.val <<< 8 else 0) &&& d.mask = 0)
    (hy : ∀ r : Reg, (if d.slot2 = .register then BitVec.ofNat 16 r.val <<< 4 else 0) &&& d.mask = 0)
    (hz : ∀ r : Reg, (if d.slot3 = .register then BitVec.ofNat 16 r.val else 0) &&& d.mask = 0)
    (hn : d.hasNumber = false ∨ (0xFF : Word) &&& d.mask = 0) : d.matchesWord (encodeWith d x y z n) = true := by
  unfold InstrDef.matchesWord encodeWith
  refine decide_eq_true (template_matched _ _ _ _ _ _ (hx x) (hy y) (hz z) ?_)
  rcases hn with hn | hn
  · simp [hn]
  · split
    · exact low_byte_outside _ _ hn
    · simp

end Sys2Proof.Laws

namespace Sys2Proof.Laws.EncodeMatches

/-- The definition of an instruction matches the instruction's own word: no operand, whatever its value, touches a bit
that the derived mask fixes (spec/30_encoding.md R84, R85, R94). -/
def Statement (i : Instr) : Prop := (defOf i.mnemonic).matchesWord (encode i) = true

theorem halt : Statement (.halt) :=
  matchesWord_encodeWith (defOf .halt) _ _ _ _ (by decide) (by decide) (by decide) (by decide)

theorem read (x : Reg) : Statement (.read x) :=
  matchesWord_encodeWith (defOf .read) _ _ _ _ (by decide) (by decide) (by decide) (by decide)

theorem write (x : Reg) : Statement (.write x) :=
  matchesWord_encodeWith (defOf .write) _ _ _ _ (by decide) (by decide) (by decide) (by decide)

theorem jumpr (x : Reg) : Statement (.jumpr x) :=
  matchesWord_encodeWith (defOf .jumpr) _ _ _ _ (by decide) (by decide) (by decide) (by decide)

theorem setn (x : Reg) (n : Int) : Statement (.setn x n) :=
  matchesWord_encodeWith (defOf .setn) _ _ _ _ (by decide) (by decide) (by decide) (by decide)

theorem loadn (x : Reg) (n : Nat) : Statement (.loadn x n) :=
  matchesWord_encodeWith (defOf .loadn) _ _ _ _ (by decide) (by decide) (by decide) (by decide)

theorem storen (x : Reg) (n : Nat) : Statement (.storen x n) :=
  matchesWord_encodeWith (defOf .storen) _ _ _ _ (by decide) (by decide) (by decide) (by decide)

theorem loadr (x y : Reg) : Statement (.loadr x y) :=
  matchesWord_encodeWith (defOf .loadr) _ _ _ _ (by decide) (by decide) (by decide) (by decide)

theorem storer (x y : Reg) : Statement (.storer x y) :=
  matchesWord_encodeWith (defOf .storer) _ _ _ _ (by decide) (by decide) (by decide) (by decide)

theorem popr (x y : Reg) : Statement (.popr x y) :=
  matchesWord_encodeWith (defOf .popr) _ _ _ _ (by decide) (by decide) (by decide) (by decide)

theorem pushr (x y : Reg) : Statement (.pushr x y) :=
  matchesWord_encodeWith (defOf .pushr) _ _ _ _ (by decide) (by decide) (by decide) (by decide)

theorem addn (x : Reg) (n : Int) : Statement (.addn x n) :=
  matchesWord_encodeWith (defOf .addn) _ _ _ _ (by decide) (by decide) (by decide) (by decide)

theorem nop : Statement (.nop) :=
  matchesWord_encodeWith (defOf .nop) _ _ _ _ (by decide) (by decide) (by decide) (by decide)

theorem copy (x y : Reg) : Statement (.copy x y) :=
  matchesWord_encodeWith (defOf .copy) _ _ _ _ (by decide) (by decide) (by decide) (by decide)

theorem add (x y z : Reg) : Statement (.add x y z) :=
  matchesWord_encodeWith (defOf .add) _ _ _ _ (by decide) (by decide) (by decide) (by decide)

theorem neg (x z : Reg) : Statement (.neg x z) :=
  matchesWord_encodeWith (defOf .neg) _ _ _ _ (by decide) (by decide) (by decide) (by decide)

theorem sub (x y z : Reg) : Statement (.sub x y z) :=
  matchesWord_encodeWith (defOf .sub) _ _ _ _ (by decide) (by decide) (by decide) (by decide)

theorem mul (x y z : Reg) : Statement (.mul x y z) :=
  matchesWord_encodeWith (defOf .mul) _ _ _ _ (by decide) (by decide) (by decide) (by decide)

theorem div (x y z : Reg) : Statement (.div x y z) :=
  matchesWord_encodeWith (defOf .div) _ _ _ _ (by decide) (by decide) (by decide) (by decide)

theorem mod (x y z : Reg) : Statement (.mod x y z) :=
  matchesWord_encodeWith (defOf .mod) _ _ _ _ (by decide) (by decide) (by decide) (by decide)

theorem jumpn (n : Nat) : Statement (.jumpn n) :=
  matchesWord_encodeWith (defOf .jumpn) _ _ _ _ (by decide) (by decide) (by decide) (by decide)

theorem calln (x : Reg) (n : Nat) : Statement (.calln x n) :=
  matchesWord_encodeWith (defOf .calln) _ _ _ _ (by decide) (by decide) (by decide) (by decide)

theorem jeqzn (x : Reg) (n : Nat) : Statement (.jeqzn x n) :=
  matchesWord_encodeWith (defOf .jeqzn) _ _ _ _ (by decide) (by decide) (by decide) (by decide)

theorem jnezn (x : Reg) (n : Nat) : Statement (.jnezn x n) :=
  matchesWord_encodeWith (defOf .jnezn) _ _ _ _ (by decide) (by decide) (by decide) (by decide)

theorem jgtzn (x : Reg) (n : Nat) : Statement (.jgtzn x n) :=
  matchesWord_encodeWith (defOf .jgtzn) _ _ _ _ (by decide) (by decide) (by decide) (by decide)

theorem jltzn (x : Reg) (n : Nat) : Statement (.jltzn x n) :=
  matchesWord_encodeWith (defOf .jltzn) _ _ _ _ (by decide) (by decide) (by decide) (by decide)

end Sys2Proof.Laws.EncodeMatches
end

