-- ==== Sys2Proof/Machine/Events.lean ====
section
/-! DEFINITION. The events the core emits to the host (spec/70_reset_and_hazards.md R255), read off the states before and
after a step: they are no state of the core (notes/assumptions/26.md). -/

namespace Sys2Proof.Machine

/-- An event (R255). -/
inductive CoreEvent where
  /-- `stop(reason, ids)`. -/
  | stop (reason : StopReason) (ids : List BpId)
  /-- `output(...)`. -/
  | output (item : OutItem)
  /-- `end()`. -/
  | ended
  deriving DecidableEq, Repr

/-- The host operation that lands in this step, if one does (R254). -/
def landingOp (s : State) : Option HostOp :=
  match s.hostQ with
  | [] => none
  | .tick :: _ => none
  | .op o :: _ => if s.runState = .running ∧ o.landsWhileRunning = false then none else some o

/-- RUNSTATE left Running between two states: it was Running and is not, or a `read` was answered and its cycle, Running
again, stopped in step mode (R192, R235, R255). -/
def leftRunning (s t : State) : Bool :=
  match s.runState with
  | .running => decide (t.runState ≠ .running)
  | .awaitingInput _ => decide (t.runState = .paused)
  | .ready => false
  | .paused => false
  | .halted => false

/-- The events between two states: an output for each item OUT grew by, a stop when RUNSTATE left Running, an end when
it became Halted (R255). -/
def eventsBetween (s t : State) : List CoreEvent :=
  (t.out.drop s.out.length).map .output ++
    (if leftRunning s t then [.stop t.stopReason t.stopIds] else []) ++
    (if t.runState = .halted ∧ s.runState ≠ .halted then [.ended] else [])

/-- The core takes the host's answer in the step that runs its `read`: the plan before the core's turn begins with the
answer, and after the step the answer is gone (notes/assumptions/9.md). -/
def answeredAtOnce (s t : State) : Bool :=
  match s.hostQ with
  | .op (.supply _) :: rest => decide (s.runState = .running) && decide (t.hostQ = rest)
  | .tick :: .op (.supply _) :: rest => decide (s.runState = .running) && decide (t.hostQ = rest)
  | _ => false

/-- The events of a step of the core. A `read` answered at once left Running for AwaitingInput in between, so it emits the
stop of that wait first, and then what its answer emits from AwaitingInput (R192, R255; notes/assumptions/26.md). -/
def turnEvents (s t : State) : List CoreEvent :=
  if answeredAtOnce s t then
    eventsBetween s { s with runState := .awaitingInput 0 } ++ eventsBetween { s with runState := .awaitingInput 0 } t
  else eventsBetween s t

/-- The events of a step; `goto` emits a stop (R255, D30), `configure` emits none. -/
def stepEvents (s : State) : List CoreEvent :=
  match step s with
  | .fault _ => []
  | .refused _ => []
  | .next t =>
    match landingOp s with
    | some (.goto _) => [.stop t.stopReason t.stopIds]
    | some (.configure _ _ _) => []
    | _ => turnEvents s t

end Sys2Proof.Machine
end

