-- ==== Sys2Proof/Tests/Slice0.lean ====
section
/-! SUPPORT. Small checks of this model: the smoke test of WellFormed, a word written out from the spec's encoding for
every constructor, single steps with the results of spec/95_test_vectors.md, and a witness for the hypotheses of each
statement in Certificates/Slice0/Obligations.lean. -/

namespace Sys2Proof.Tests

open Sys2Proof.Machine

/-! ### Well-formed terms (R90, R104) -/

theorem test_wf_setn_low : (Instr.setn 1 (-128)).wf = true ∧ (Instr.setn 1 (-129)).wf = false := by decide
theorem test_wf_setn_high : (Instr.setn 1 127).wf = true ∧ (Instr.setn 1 128).wf = false := by decide
theorem test_wf_addn : (Instr.addn 1 (-129)).wf = false ∧ (Instr.addn 1 128).wf = false := by decide
theorem test_wf_loadn_storen : (Instr.loadn 1 256).wf = false ∧ (Instr.storen 1 256).wf = false := by decide
theorem test_wf_jumpn_calln : (Instr.jumpn 256).wf = false ∧ (Instr.calln 1 256).wf = false := by decide
theorem test_wf_jumps : (Instr.jeqzn 1 256).wf = false ∧ (Instr.jnezn 1 256).wf = false ∧
    (Instr.jgtzn 1 256).wf = false ∧ (Instr.jltzn 1 256).wf = false := by decide

/-! ### One word for every constructor, bit by bit from the encodings of R95 -/

theorem test_decode_halt : decode 0b0000000000000000 = .ok .halt := by decide
theorem test_decode_read : decode 0b0000111100000001 = .ok (.read 15) := by decide
theorem test_decode_write : decode 0b0000000100000010 = .ok (.write 1) := by decide
theorem test_decode_jumpr : decode 0b0000111000000011 = .ok (.jumpr 14) := by decide
theorem test_decode_setn : decode 0b0001000110000000 = .ok (.setn 1 (-128)) := by decide
theorem test_decode_loadn : decode 0b0010000110000000 = .ok (.loadn 1 128) := by decide
theorem test_decode_storen : decode 0b0011000100001010 = .ok (.storen 1 10) := by decide
theorem test_decode_loadr : decode 0b0100001100100000 = .ok (.loadr 3 2) := by decide
theorem test_decode_storer : decode 0b0100001100100001 = .ok (.storer 3 2) := by decide
theorem test_decode_popr : decode 0b0100001100100010 = .ok (.popr 3 2) := by decide
theorem test_decode_pushr : decode 0b0100001100100011 = .ok (.pushr 3 2) := by decide
theorem test_decode_addn : decode 0b0101000111111111 = .ok (.addn 1 (-1)) := by decide
theorem test_decode_nop : decode 0b0110000000000000 = .ok .nop := by decide
theorem test_decode_copy : decode 0b0110000100100000 = .ok (.copy 1 2) := by decide
theorem test_decode_add : decode 0b0110000100100011 = .ok (.add 1 2 3) := by decide
theorem test_decode_neg : decode 0b0111000100000101 = .ok (.neg 1 5) := by decide
theorem test_decode_sub : decode 0b0111000100100101 = .ok (.sub 1 2 5) := by decide
theorem test_decode_mul : decode 0b1000001100010010 = .ok (.mul 3 1 2) := by decide
theorem test_decode_div : decode 0b1001001100010010 = .ok (.div 3 1 2) := by decide
theorem test_decode_mod : decode 0b1010010000010010 = .ok (.mod 4 1 2) := by decide
theorem test_decode_jumpn : decode 0b1011000000000101 = .ok (.jumpn 5) := by decide
theorem test_decode_calln : decode 0b1011000100000101 = .ok (.calln 1 5) := by decide
theorem test_decode_jeqzn : decode 0b1100000100001001 = .ok (.jeqzn 1 9) := by decide
theorem test_decode_jnezn : decode 0b1101000100000001 = .ok (.jnezn 1 1) := by decide
theorem test_decode_jgtzn : decode 0b1110000100000111 = .ok (.jgtzn 1 7) := by decide
theorem test_decode_jltzn : decode 0b1111000011111111 = .ok (.jltzn 0 255) := by decide

/-- Words of 95_test_vectors 2.1 that match no definition. -/
theorem test_decode_invalid : decode 0x0100 = .error .noMatch ∧ decode 0x0010 = .error .noMatch ∧
    decode 0x00FF = .error .noMatch ∧ decode 0x4324 = .error .noMatch := by decide

/-- W4 of 95_test_vectors: the narrower definition wins (C2). -/
theorem test_decode_synonym : decode (encode (.calln 0 5)) = .ok (.jumpn 5) := by decide

theorem test_decodeTableWord : decodeTableWord 16 0x6123 = some (.add 1 2 3) ∧ decodeTableWord 16 0x0100 = none := by
  decide

/-! ### The text forms (R100 to R112; the strings of 95_test_vectors 2.1) -/

theorem test_binary_text : parseBinaryWord "0001 0001 0000 0101".toList = some 0x1105 ∧
    parseBinaryWord "0001000100000101x".toList = some 0x1105 ∧
    parseBinaryWord "000100010000010".toList = none := by decide

/-- W1 of 95_test_vectors. -/
theorem test_assemble_w1 :
    programOf .text "0 setn r1 5\n1 write r1\n2 halt".toList = .ok [0x1105, 0x0102, 0x0000] := by decide

theorem test_assemble_rejects :
    (∃ e, programOf .text "0 setn r1 200".toList = .error e) ∧ (∃ e, programOf .text "0 loadn r1 -1".toList = .error e) ∧
      (∃ e, programOf .text "0 add r1 r2 r16".toList = .error e) ∧ (∃ e, programOf .text "0 halt r1".toList = .error e) ∧
      ∃ e, programOf .text "1 halt".toList = .error e :=
  ⟨⟨_, rfl⟩, ⟨_, rfl⟩, ⟨_, rfl⟩, ⟨_, rfl⟩, ⟨_, rfl⟩⟩

/-- W5 of 95_test_vectors: another spelling of `copy`. -/
theorem test_assemble_mov : programOf .text "0 mov r1 r2\n1 neg r1 r2".toList = .ok [0x6120, 0x7102] := by decide

/-! ### Single steps (95_test_vectors 2.2 to 2.7) -/

/-- A running core with CODE_LIMIT 16, these registers and these memory words, the others 0. -/
def coreWith (regs : List (Reg × Word)) (mem : List (Nat × Word)) : State :=
  { State.reset with
    regs := regs.foldl (fun v p => putReg v p.1 p.2) State.reset.regs
    mem := mem.foldl (fun m p => memPut m p.1 p.2) []
    codeLimit := 16
    runState := .running }

/-- The next state of an outcome. -/
def nextOf (o : Host.Outcome State Fault Refusal) : Option State :=
  match o with
  | .next t => some t
  | .fault _ => none
  | .refused _ => none

/-- What a register holds and where `pc` is after an instruction. -/
def regAfter (i : Instr) (s : State) (r : Reg) : Option (Word × Word) := (nextOf (exec i s)).map (fun t => (t.reg r, t.pc))

/-- What a memory word holds after an instruction, and MODIFIED. -/
def memAfter (i : Instr) (s : State) (a : Int) : Option (Option Word × List Nat) :=
  (nextOf (exec i s)).map (fun t => (t.memRead a, t.modified))

/-- Run state, reason, ids and LAST_EXC after an outcome. -/
def stopAfter (o : Host.Outcome State Fault Refusal) : Option (RunState × StopReason × List BpId × LastExc) :=
  (nextOf o).map (fun t => (t.runState, t.stopReason, t.stopIds, t.lastExc))

theorem test_add_wraps : regAfter (.add 1 2 3) (coreWith [(2, 0xFFFF), (3, 1)] []) 1 = some (0, 1) := by decide
theorem test_add_same_register : regAfter (.add 1 1 1) (coreWith [(1, 3)] []) 1 = some (6, 1) := by decide
theorem test_sub_below_zero : regAfter (.sub 1 2 3) (coreWith [(2, 3), (3, 5)] []) 1 = some (0xFFFE, 1) := by decide
theorem test_mul_wraps : regAfter (.mul 1 2 3) (coreWith [(2, 300), (3, 300)] []) 1 = some (0x5F90, 1) := by decide
theorem test_div_toward_zero : regAfter (.div 1 2 3) (coreWith [(2, 0xFFF9), (3, 2)] []) 1 = some (0xFFFD, 1) := by decide
theorem test_div_lowest_by_minus_one : regAfter (.div 1 2 3) (coreWith [(2, 0x8000), (3, 0xFFFF)] []) 1 = some (0x8000, 1) := by decide
theorem test_mod_sign_of_dividend : regAfter (.mod 1 2 3) (coreWith [(2, 0xFFF9), (3, 2)] []) 1 = some (0xFFFF, 1) := by decide
theorem test_mod_negative_divisor : regAfter (.mod 1 2 3) (coreWith [(2, 7), (3, 0xFFFE)] []) 1 = some (1, 1) := by decide
theorem test_neg_lowest : regAfter (.neg 1 2) (coreWith [(2, 0x8000)] []) 1 = some (0x8000, 1) := by decide
theorem test_neg_five : regAfter (.neg 1 2) (coreWith [(2, 5)] []) 1 = some (0xFFFB, 1) := by decide
theorem test_copy : regAfter (.copy 1 2) (coreWith [(1, 9), (2, 0x1234)] []) 1 = some (0x1234, 1) := by decide
theorem test_setn_lowest : regAfter (.setn 1 (-128)) (coreWith [] []) 1 = some (0xFF80, 1) := by decide
theorem test_setn_r0 : regAfter (.setn 0 5) (coreWith [] []) 0 = some (0, 1) := by decide
theorem test_addn_sign_extends : regAfter (.addn 1 (-128)) (coreWith [(1, 5)] []) 1 = some (0xFF85, 1) := by decide
theorem test_addn_wraps : regAfter (.addn 1 1) (coreWith [(1, 0xFFFF)] []) 1 = some (0, 1) := by decide
theorem test_loadn : regAfter (.loadn 1 20) (coreWith [] [(20, 10)]) 1 = some (10, 1) := by decide
theorem test_loadr_last_word : regAfter (.loadr 1 2) (coreWith [(2, 255)] [(255, 4)]) 1 = some (4, 1) := by decide
theorem test_loadr_same_register : regAfter (.loadr 2 2) (coreWith [(2, 20)] [(20, 7)]) 2 = some (7, 1) := by decide
theorem test_popr_same_register : regAfter (.popr 15 15) (coreWith [(15, 101)] [(100, 42)]) 15 = some (42, 1) := by decide
theorem test_popr_pointer : regAfter (.popr 1 15) (coreWith [(15, 101)] [(100, 3)]) 15 = some (100, 1) := by decide
theorem test_pushr_pointer : regAfter (.pushr 1 15) (coreWith [(1, 3), (15, 255)] []) 15 = some (256, 1) := by decide
theorem test_storen : memAfter (.storen 1 20) (coreWith [(1, 9)] []) 20 = some (some 9, [20]) := by decide
theorem test_storer_same_register : memAfter (.storer 2 2) (coreWith [(2, 30)] []) 30 = some (some 30, [30]) := by decide
theorem test_pushr_stores_old : memAfter (.pushr 15 15) (coreWith [(15, 100)] []) 100 = some (some 100, [100]) := by
  decide
theorem test_jumpn :
    regAfter (.jumpn 200) { coreWith [] [] with pc := 3 } 1 = some (0, 200) := by decide
theorem test_jumpr :
    regAfter (.jumpr 14) { coreWith [(14, 0xFFFF)] [] with pc := 3 } 14 = some (0xFFFF, 0xFFFF) := by decide
theorem test_jeqzn_taken :
    regAfter (.jeqzn 1 9) { coreWith [] [] with pc := 3 } 1 = some (0, 9) := by decide
theorem test_jeqzn_not_taken :
    regAfter (.jeqzn 1 9) { coreWith [(1, 0x8000)] [] with pc := 3 } 1 = some (0x8000, 4) := by decide
theorem test_jnezn_taken :
    regAfter (.jnezn 1 1) { coreWith [(1, 2)] [] with pc := 3 } 1 = some (2, 1) := by decide
theorem test_jnezn_not_taken :
    regAfter (.jnezn 1 1) { coreWith [] [] with pc := 3 } 1 = some (0, 4) := by decide
theorem test_jgtzn_taken :
    regAfter (.jgtzn 1 7) { coreWith [(1, 0x7FFF)] [] with pc := 3 } 1 = some (0x7FFF, 7) := by decide
theorem test_jgtzn_not_taken :
    regAfter (.jgtzn 1 7) { coreWith [(1, 0xFFFF)] [] with pc := 3 } 1 = some (0xFFFF, 4) := by decide
theorem test_jltzn_taken :
    regAfter (.jltzn 1 7) { coreWith [(1, 0x8000)] [] with pc := 3 } 1 = some (0x8000, 7) := by decide
theorem test_jltzn_not_taken :
    regAfter (.jltzn 1 7) { coreWith [] [] with pc := 3 } 1 = some (0, 4) := by decide
theorem test_calln :
    regAfter (.calln 14 5) { coreWith [] [] with pc := 2 } 14 = some (3, 5) := by decide
theorem test_nop :
    regAfter (.nop) { coreWith [] [] with pc := 4 } 1 = some (0, 5) := by decide
theorem test_halt : (nextOf (exec .halt (coreWith [] []))).map (fun t => (t.runState, t.stopReason, t.pc)) =
    some (.halted, .halt, 0) := by decide
theorem test_write : (nextOf (exec (.write 1) (coreWith [(1, 0x8000)] []))).map State.out = some [.value (-32768)] := by
  decide

/-- A core whose host answers the next `read`. -/
def coreAnswered (a : InputAnswer) : State := { coreWith [] [] with hostQ := [.op (.supply a)] }

theorem test_read_integer : regAfter (.read 1) (coreAnswered (.integer (-1))) 1 = some (0xFFFF, 1) := by decide
theorem test_read_end : (nextOf (exec (.read 1) (coreAnswered .endOfInput))).map
    (fun t => (t.runState, t.stopReason, t.pc, t.lastExc)) = some (.halted, .inputEnd, 0, LastExc.empty) := by decide

/-! ### Exceptions and comparators (95_test_vectors 2.2, 2.4, 2.7) -/

theorem test_div_by_zero : stopAfter (exec (.div 1 2 0) (coreWith [(2, 5)] [])) =
    some (.halted, .fatal, [], ⟨true, 6, 0, 0⟩) := by decide
theorem test_popr_below_memory : stopAfter (exec (.popr 1 15) (coreWith [] [])) =
    some (.halted, .fatal, [], ⟨true, 2, 0, 0xFFFF⟩) := by decide
theorem test_storer_above_memory : stopAfter (exec (.storer 1 2) (coreWith [(2, 300)] [])) =
    some (.halted, .fatal, [], ⟨true, 2, 0, 300⟩) := by decide

/-- `loadn r1 3` below CODE_LIMIT with code-segment-read enabled under id 4. -/
theorem test_segment_read : stopAfter (exec (.loadn 1 3)
    { coreWith [] [] with excEn := { ExcEnable.empty with codeSegmentRead := some 4 } }) =
    some (.paused, .exception, [4], ⟨true, 4, 0, 3⟩) := by decide

/-- The comparator hits of `add r1 r2 r3`, in access order. -/
theorem test_data_breakpoints : stopAfter (exec (.add 1 2 3)
    { coreWith [] [] with dbp := [⟨.register, 1, false, true, 6⟩, ⟨.register, 2, true, false, 5⟩] }) =
    some (.paused, .dataBreakpoint, [5, 6], LastExc.empty) := by decide

theorem test_fetch_bound : stopAfter (step { coreWith [] [] with codeLimit := 0 }) =
    some (.halted, .fatal, [], ⟨true, 3, 0, 0⟩) := by decide
theorem test_invalid_word : stopAfter (step (coreWith [] [(0, 0x0100)])) =
    some (.halted, .fatal, [], ⟨true, 1, 0, 0⟩) := by decide
theorem test_fetch_watch_first : stopAfter (step { coreWith [] [(0, 0x0100)] with
    dbp := [⟨.memory, 0, true, false, 2⟩] }) = some (.paused, .dataBreakpoint, [2], LastExc.empty) := by decide
theorem test_pause_first : stopAfter (step { coreWith [] [(0, 0x6000)] with pauseReq := true, ibp := [⟨0, 1⟩] }) =
    some (.paused, .pause, [], LastExc.empty) := by decide
theorem test_breakpoint : stopAfter (step { coreWith [] [(0, 0x6000)] with ibp := [⟨0, 1⟩] }) =
    some (.paused, .breakpoint, [1], LastExc.empty) := by decide
theorem test_withFetchWord : (nextOf (step (State.reset.withFetchWord 16 0x1105))).map (fun t => (t.reg 1, t.pc)) =
    some (5, 1) := by decide

/-! ### The events of a step (R255) -/

theorem test_events_write : stepEvents (coreWith [(1, 7)] [(0, 0x0102)]) = [.output (.value 7)] := by decide
theorem test_events_halt : stepEvents (coreWith [] []) = [.stop .halt [], .ended] := by decide
/-- A `read` whose answer is taken in its own step left Running for AwaitingInput first (R192, R255). -/
theorem test_events_read : stepEvents { coreAnswered (.integer 7) with mem := [(0, 0x0101)] } = [.stop .none []] ∧
    stepEvents { coreAnswered .endOfInput with mem := [(0, 0x0101)] } = [.stop .none [], .ended] := by decide
theorem test_observation : (nextOf (step (coreWith [(1, 7)] [(0, 0x0102)]))).map (fun t => t.observe.out) =
    some [.value 7] := by decide

/-! ### Witnesses: states and operands that meet the hypotheses of the statements, clause by clause -/

theorem witness_DecoderSelectsLargestMask :
    decode 0x6120 = .ok (.copy 1 2) ∧ decode 0x0100 = .error .noMatch := by decide
theorem witness_NoEqualMaskTie : ∃ w d, ∃ e, d ∈ opcodeTable ∧ e ∈ opcodeTable ∧ d.matchesWord w = true ∧
    e.matchesWord w = true ∧ d.mask = e.mask :=
  ⟨0x6000, defOf .nop, defOf .nop, by decide⟩
theorem witness_InvalidWordsCharacterised :
    decode 0x4324 = .error .noMatch ∧ decode 0x00FF = .error .noMatch ∧ decode 0x4003 ≠ .error .noMatch := by decide
theorem witness_DecodeOfEncode : (Instr.addn 15 127).wf = true ∧ (Instr.addn 15 127).canonical = .addn 15 127 ∧
    (Instr.jltzn 0 255).wf = true ∧ (Instr.jltzn 0 255).canonical = .jltzn 0 255 ∧ (Instr.calln 0 255).wf = true := by
  decide
theorem witness_EncodeOfDecode : decode 0xFFFF = .ok (.jltzn 15 255) := by decide
theorem witness_SynonymsHaveSameEffect : (State.reset.suppress = true ∨ State.reset.dbp = []) ∧
    Instr.add 15 15 0 ∈ [Instr.copy 0 0, .add 0 0 0] ++ (List.finRange 16).flatMap (fun x => (List.finRange 16).flatMap
      (fun y => [Instr.add x y 0, .sub x 0 y])) ++ (List.range 256).map (fun n => Instr.calln 0 n) :=
  ⟨by decide, List.mem_append_left _ (List.mem_append_right _ (List.mem_flatMap.mpr
    ⟨15, List.mem_finRange _, List.mem_flatMap.mpr ⟨15, List.mem_finRange _, List.mem_cons_self ..⟩⟩))⟩
theorem witness_AssembledOperandsAreEncoded : (Instr.neg 1 2).wf = true ∧ (Instr.setn 1 (-128)).wf = true := by decide
theorem witness_BinaryTextIsMsbFirst :
    (("0000 0000 0000 000".toList).filter (fun c => c == '0' || c == '1')).length ≠ 16 ∧
      (("1000 0000 0000 0001".toList).filter (fun c => c == '0' || c == '1')).length = 16 := by decide
theorem witness_AssembledLinesStandAtTheirNumbers :
    assembleLines 0 ["0".toList :: ["nop".toList], "1".toList :: ["halt".toList]] = .ok [0x6000, 0] := by decide
theorem witness_AssembledTextDecodes : 255 < 256 ∧ (Instr.storen 15 255).wf = true := by decide
theorem witness_RegisterZeroIsHardWired : (15 : Reg) ≠ 0 ∧ (15 : Reg) ≠ 14 := by decide
theorem witness_RegisterWritesFollowAccessTable : ∃ t, exec (.popr 1 15) (coreWith [(15, 256)] []) = .next t ∧
    writeReg 2 ∉ accesses (.popr 1 15) (coreWith [(15, 256)] []) :=
  ⟨_, rfl, by decide⟩
theorem witness_UnnamedRegistersDoNotMatter : readReg 3 ∉ accesses (.pushr 1 2) (coreWith [] []) ∧
    writeReg 3 ∉ accesses (.pushr 1 2) (coreWith [] []) := by decide
theorem witness_MemoryPortReadsWhatWasWritten : (coreWith [] [(255, 7)]).mem.wf = true ∧
    ((0 : Int) ≤ 255 ∧ (255 : Int) ≤ 255) ∧ ¬ ((0 : Int) ≤ -1 ∧ (-1 : Int) ≤ 255) ∧
      ¬ ((0 : Int) ≤ 256 ∧ (256 : Int) ≤ 255) := by decide
theorem witness_MemoryWritesFollowAccessTable : ∃ t, exec (.storen 1 255) (coreWith [(1, 5)] []) = .next t ∧
    writeMem ((254 : Nat) : Int) ∉ accesses (.storen 1 255) (coreWith [(1, 5)] []) :=
  ⟨_, rfl, by decide⟩

theorem takesCycle_coreWith (regs : List (Reg × Word)) (mem : List (Nat × Word)) : TakesCycle (coreWith regs mem) :=
  ⟨rfl, rfl, .inl rfl⟩

theorem witness_StoredWordIsFetched : (coreWith [] []).mem.wf = true ∧
    ∃ t, (coreWith [] []).memWrite 0 0x6000 = some t ∧ (t.pc.toNat : Int) = 0 ∧ TakesCycle t ∧ ReachesFetch t ∧
      decode 0x6000 = .ok .nop :=
  ⟨by decide, _, rfl, by decide, ⟨rfl, rfl, .inl rfl⟩, by decide, by decide⟩
theorem witness_InstructionsKeepHostConfiguration : ∃ t, exec .nop (coreWith [] []) = .next t := ⟨_, rfl⟩
theorem witness_AddSubMulResult : Undisturbed (.add 1 2 3) (coreWith [] []) ∧
    Undisturbed (.sub 0 15 15) (coreWith [] []) ∧ Undisturbed (.mul 15 0 15) (coreWith [] []) :=
  ⟨by decide, by decide, by decide⟩
theorem witness_DivModResult : ((coreWith [(1, 0x8000), (2, 0xFFFF)] []).reg 2).toInt ≠ 0 ∧
    Undisturbed (.div 3 1 2) (coreWith [(1, 0x8000), (2, 0xFFFF)] []) ∧
    Undisturbed (.mod 3 1 2) (coreWith [(1, 0x8000), (2, 0xFFFF)] []) :=
  ⟨by decide, by decide, by decide⟩
theorem witness_DivideByZeroIsFatal : (coreWith [] []).reg 0 = 0 ∧ Undisturbed (.div 1 2 0) (coreWith [] []) ∧
    Undisturbed (.mod 1 2 0) (coreWith [] []) :=
  ⟨by decide, by decide, by decide⟩
theorem witness_NegCopyResult : Undisturbed (.neg 1 2) (coreWith [(2, 0x8000)] []) ∧
    Undisturbed (.copy 0 2) (coreWith [(2, 0x8000)] []) :=
  ⟨by decide, by decide⟩
theorem witness_ImmediateResult : Undisturbed (.setn 1 (-128)) (coreWith [] []) ∧
    Undisturbed (.addn 0 127) (coreWith [] []) :=
  ⟨by decide, by decide⟩
theorem witness_LoadResult : Undisturbed (.loadn 1 0) (coreWith [] []) ∧ Undisturbed (.loadn 1 255) (coreWith [] []) ∧
    Undisturbed (.loadr 1 2) (coreWith [(2, 255)] []) ∧ Undisturbed (.loadr 1 0) (coreWith [] []) :=
  ⟨by decide, by decide, by decide, by decide⟩
theorem witness_StoreResult : (coreWith [(2, 255)] []).mem.wf = true ∧
    Undisturbed (.storen 1 0) (coreWith [(2, 255)] []) ∧ Undisturbed (.storen 1 255) (coreWith [(2, 255)] []) ∧
    Undisturbed (.storer 1 2) (coreWith [(2, 255)] []) :=
  ⟨by decide, by decide, by decide, by decide⟩
theorem witness_PushResult : (coreWith [(2, 255)] []).mem.wf = true ∧ Undisturbed (.pushr 1 2) (coreWith [(2, 255)] []) ∧
    Undisturbed (.pushr 1 0) (coreWith [] []) ∧ Undisturbed (.pushr 2 2) (coreWith [(2, 255)] []) :=
  ⟨by decide, by decide, by decide, by decide⟩
theorem witness_PopResult : Undisturbed (.popr 1 2) (coreWith [(2, 256)] []) ∧
    Undisturbed (.popr 1 2) (coreWith [(2, 1)] []) ∧ Undisturbed (.popr 2 2) (coreWith [(2, 256)] []) :=
  ⟨by decide, by decide, by decide⟩
theorem witness_OutsideMemoryIsFatal : 255 < ((coreWith [(2, 256)] []).reg 2).toNat ∧ (coreWith [] []).reg 2 = 0 ∧
    256 < ((coreWith [(2, 257)] []).reg 2).toNat ∧ (Instr.popr 1 2).wf = true ∧
    ¬ InsideMemory (.popr 1 2) (coreWith [] []) := by decide

/-- A core with both maskable kinds enabled. -/
def segmentCore : State :=
  { coreWith [] [] with excEn := { ExcEnable.empty with codeSegmentRead := some 4, codeSegmentWrite := some 9 } }

theorem witness_EnabledSegmentAccessPauses_read : (15 : Int) < (segmentCore.codeLimit : Int) ∧
    segmentCore.suppress = false ∧ readMem 15 ∈ accesses (.loadn 1 15) segmentCore ∧
    segmentCore.excEn.codeSegmentRead = some 4 ∧ segmentCore.maskLatch ≠ some (.codeSegmentRead, segmentCore.pc) := by
  decide
theorem witness_EnabledSegmentAccessPauses_write : (0 : Int) < (segmentCore.codeLimit : Int) ∧
    segmentCore.suppress = false ∧ writeMem 0 ∈ accesses (.storen 1 0) segmentCore ∧
    segmentCore.excEn.codeSegmentWrite = some 9 ∧ segmentCore.maskLatch ≠ some (.codeSegmentWrite, segmentCore.pc) := by
  decide

/-- The same core, latched at its `pc` by a stop of that kind. -/
def latchedCore (k : ExcKind) : State := { segmentCore with maskLatch := some (k, 0) }

theorem witness_EnabledSegmentAccessPauses_latched :
    (latchedCore .codeSegmentRead).maskLatch = some (.codeSegmentRead, (latchedCore .codeSegmentRead).pc) ∧
      (latchedCore .codeSegmentWrite).maskLatch = some (.codeSegmentWrite, (latchedCore .codeSegmentWrite).pc) ∧
      Undisturbed (.loadn 1 15) (latchedCore .codeSegmentRead) ∧
      Undisturbed (.storen 1 0) (latchedCore .codeSegmentWrite) :=
  ⟨by decide, by decide, by decide, by decide⟩

/-- R216: the enabled and latched access is performed. -/
theorem test_latched_access_proceeds :
    regAfter (.loadn 1 15) { latchedCore .codeSegmentRead with mem := [(15, 7)] } 1 = some (7, 1) := by decide
theorem witness_DisabledSegmentChecksDoNotMatter : (coreWith [] []).excEn.codeSegmentRead = none ∧
    (coreWith [] []).excEn.codeSegmentWrite = none := by decide
theorem witness_JumpTargets : Undisturbed (.jumpn 255) (coreWith [] []) ∧
    Undisturbed (.jumpr 14) (coreWith [(14, 0xFFFF)] []) :=
  ⟨by decide, by decide⟩
theorem witness_ConditionalJumps : Undisturbed (.jeqzn 1 255) (coreWith [] []) ∧
    Undisturbed (.jnezn 1 0) (coreWith [] []) ∧ Undisturbed (.jgtzn 1 7) (coreWith [(1, 0x7FFF)] []) ∧
    Undisturbed (.jltzn 1 7) (coreWith [(1, 0x8000)] []) :=
  ⟨by decide, by decide, by decide, by decide⟩
theorem witness_CallLinks : Undisturbed (.calln 14 255) (coreWith [] []) ∧ Undisturbed (.calln 0 5) (coreWith [] []) :=
  ⟨by decide, by decide⟩
theorem witness_HaltEndsProgram : Undisturbed .halt (coreWith [] []) := by decide
theorem witness_NopOnlyAdvances : Undisturbed .nop (coreWith [] []) := by decide
theorem witness_WriteEmitsSignedValue : Undisturbed (.write 1) (coreWith [(1, 0x8000)] []) := by decide
theorem witness_ReadStoresAnswer : Undisturbed (.read 1) (coreAnswered (.integer 65536)) ∧
    (coreAnswered (.integer 65536)).hostQ = .op (.supply (.integer 65536)) :: [] ∧
    Undisturbed (.read 1) (coreAnswered .endOfInput) ∧
    (coreAnswered .endOfInput).hostQ = .op (.supply .endOfInput) :: [] :=
  ⟨by decide, by decide, by decide, by decide⟩
theorem witness_ReadWaitsForAnswer : Undisturbed (.read 1) (coreWith [] []) ∧
    ∀ a rest, (coreWith [] []).hostQ ≠ .op (.supply a) :: rest :=
  ⟨by decide, fun _ _ h => List.cons_ne_nil _ _ h.symm⟩

/-- A core that waits for input to r1, its answer next. -/
def waitingCore (a : InputAnswer) : State := { coreAnswered a with runState := .awaitingInput 1 }

theorem witness_ReadWaitsForAnswer_supplied : (waitingCore (.integer (-1))).runState = .awaitingInput 1 ∧
    (waitingCore (.integer (-1))).hostQ = .op (.supply (.integer (-1))) :: [] ∧
    (waitingCore .endOfInput).hostQ = .op (.supply .endOfInput) :: [] := by decide
theorem witness_ReadWaitsForAnswer_not_rejected : (waitingCore (.integer (-1))).rejected = false ∧
    (waitingCore .endOfInput).rejected = false := by decide
theorem witness_StepRunsDecodedInstruction : TakesCycle (coreWith [] [(0, 0x6123)]) ∧
    ReachesFetch (coreWith [] [(0, 0x6123)]) ∧ (coreWith [] [(0, 0x6123)]).memRead 0 = some 0x6123 ∧
    decode 0x6123 = .ok (.add 1 2 3) :=
  ⟨takesCycle_coreWith _ _, by decide, by decide, by decide⟩
theorem witness_StepRunsDecodedInstruction_tick :
    ReachesFetch { coreWith [] [(0, 0x6123)] with pc := 15, hostQ := [.tick] } ∧
      { coreWith [] [(0, 0x6123)] with pc := 15, hostQ := [.tick] }.memRead 15 = some 0 ∧ decode 0 = .ok .halt := by
  decide
theorem witness_PauseRequestComesFirst : TakesCycle { coreWith [] [] with pauseReq := true } ∧
    { coreWith [] [] with pauseReq := true }.pauseReq = true :=
  ⟨⟨rfl, rfl, .inl rfl⟩, rfl⟩
theorem witness_FetchOutsideSegmentIsFatal : TakesCycle { coreWith [] [] with pc := 16 } ∧
    { coreWith [] [] with pc := 16 }.pauseReq = false ∧ 16 ≤ { coreWith [] [] with pc := 16 }.pc.toNat :=
  ⟨⟨rfl, rfl, .inl rfl⟩, rfl, by decide⟩
theorem witness_InstructionBreakpointPauses : TakesCycle { coreWith [] [] with pc := 15, ibp := [⟨15, 3⟩] } ∧
    { coreWith [] [] with pc := 15, ibp := [⟨15, 3⟩] }.pc.toNat < 16 ∧
    ∃ e ∈ { coreWith [] [] with pc := 15, ibp := [⟨15, 3⟩] }.ibp,
      e.addr = { coreWith [] [] with pc := 15, ibp := [⟨15, 3⟩] }.pc.toNat :=
  ⟨⟨rfl, rfl, .inl rfl⟩, by decide, by decide⟩
theorem witness_UndecodedWordIsFatal : TakesCycle (coreWith [] [(0, 0x0100)]) ∧
    ReachesFetch (coreWith [] [(0, 0x0100)]) ∧ (coreWith [] [(0, 0x0100)]).memRead 0 = some 0x0100 ∧
    decode 0x0100 = .error .noMatch ∧
    watchIds (coreWith [] [(0, 0x0100)]) (fetchAccess (coreWith [] [(0, 0x0100)])) = [] :=
  ⟨takesCycle_coreWith _ _, by decide, by decide, by decide, by decide⟩
theorem witness_UndecodedWordIsFatal_watched :
    watchIds { coreWith [] [(0, 0x0100)] with dbp := [⟨.memory, 0, true, false, 2⟩] } (readMem 0) ≠ [] := by decide

/-- A core with a watch on reading r2. -/
def watchedCore : State := { coreWith [] [] with dbp := [⟨.register, 2, true, false, 5⟩] }

theorem witness_DataBreakpointsAccumulate : watchedCore.suppress = false ∧ InsideMemory (.add 1 2 3) watchedCore ∧
    Unmasked (.add 1 2 3) watchedCore ∧
    (readMem (watchedCore.pc.toNat : Int) :: accesses (.add 1 2 3) watchedCore).flatMap
      (fun a => (watchedCore.dbp.filter (fun e => e.watches a)).map DataBp.id) ≠ [] := by decide

/-- A read watch on r2 does not fire on a write of r2, nor a register watch on the memory address of its number. -/
theorem witness_DataBreakpointsAccumulate_unwatched : watchedCore.suppress = false ∧ watchedCore.dbp ≠ [] ∧
    Unwatched (.setn 2 5) watchedCore ∧ Unwatched (.loadn 1 2) watchedCore := by decide

/-- A core paused for a reason, with what the host plans. -/
def pausedCore (r : StopReason) (plan : List HostEvent) : State :=
  { coreWith [] [] with runState := .paused, stopReason := r, hostQ := plan }

theorem witness_ResumeRunsStoppedInstruction :
    (pausedCore .exception [.op (.step none), .tick]).hostQ = .op (.step none) :: [.tick] ∧
    (pausedCore .exception [.op (.step none), .tick]).runState = .paused ∧
    (pausedCore .exception [.op (.step none), .tick]).rejected = false ∧
    (pausedCore .exception [.op (.step none), .tick]).pauseReq = false ∧
    (pausedCore .exception [.op (.step none), .tick]).stopReason ∈
      [StopReason.breakpoint, .dataBreakpoint, .exception, .step] ∧
    (pausedCore .exception [.op (.step none), .tick]).pc.toNat < 16 ∧
    (pausedCore .exception [.op (.step none), .tick]).memRead 0 = some 0 ∧ decode 0 = .ok .halt ∧
    InsideMemory .halt (pausedCore .exception [.op (.step none), .tick]) := by decide
theorem witness_RunStateTransitions : ∃ t, step (coreWith [] []) = .next t ∧ t.runState = .halted := ⟨_, rfl, rfl⟩

/-- A halted core. -/
def haltedCore : State := { coreWith [] [] with runState := .halted, stopReason := .halt }

theorem witness_HaltedIsTerminal : haltedCore.runState = .halted ∧ (∃ t, step haltedCore = .next t) ∧
    ∀ mode source launch rest, haltedCore.hostQ ≠ .op (.configure mode source launch) :: rest :=
  ⟨rfl, ⟨_, rfl⟩, fun _ _ _ _ h => List.cons_ne_nil _ _ h.symm⟩
theorem witness_IdleCoreWaits : haltedCore.runState ≠ .running ∧ haltedCore.hostQ = [] := by decide

/-- Launch parameters that are all zero. -/
def zeroLaunch : Launch := ⟨Vector.replicate 15 0, []⟩

/-- A halted core about to be configured with this text. -/
def configuredCore (source : List Char) : State :=
  { haltedCore with hostQ := [.op (.configure .text source zeroLaunch)] }

theorem witness_ConfigureLoadsAndResets : (configuredCore "0 nop\n1 halt".toList).runState ≠ .running ∧
    (configuredCore "0 nop\n1 halt".toList).hostQ = [.op (.configure .text "0 nop\n1 halt".toList zeroLaunch)] ∧
      programOf .text "0 nop\n1 halt".toList = .ok [0x6000, 0] ∧ programOf .text [] = .ok [] := by decide
theorem witness_RejectedConfigureMustNotRun : (configuredCore "1 halt".toList).runState ≠ .running ∧
    (configuredCore "1 halt".toList).hostQ = [.op (.configure .text "1 halt".toList zeroLaunch)] ∧
      ∃ e, programOf .text "1 halt".toList = .error e :=
  ⟨by decide, rfl, _, rfl⟩

/-- A core whose last `configure` was rejected. -/
def markedCore (rs : RunState) (plan : List HostEvent) : State :=
  { coreWith [] [] with runState := rs, hostQ := plan, rejected := true }

theorem witness_RejectedConfigureMustNotRun_marked : (markedCore .paused [.op .continue]).rejected = true ∧
    (markedCore .ready [.op (.step none)]).hostQ = .op (.step none) :: [] ∧
    (markedCore .running [.tick]).hostQ = .tick :: [] ∧ (markedCore .running []).hostQ = [] ∧
    (markedCore .running [.op .getState]).hostQ = .op .getState :: [] ∧ HostOp.getState ≠ .pause ∧
    (markedCore (.awaitingInput 1) [.op (.supply .endOfInput)]).hostQ = .op (.supply .endOfInput) :: [] := by decide

/-- R250, I11: the answer to the `read` of a core that must not be run does not end it. -/
theorem test_supply_after_rejection :
    step (markedCore (.awaitingInput 1) [.op (.supply (.integer 5))]) = .refused .mustNotRun := rfl
theorem witness_ContinueAndStepResume : (pausedCore .pause []).runState = .paused ∧ (pausedCore .pause []).rejected = false ∧
    (pausedCore .pause [.op .continue]).hostQ = .op .continue :: [] ∧
    (pausedCore .step [.op (.step (some .write))]).hostQ = .op (.step (some .write)) :: [] := by decide
theorem witness_HostOperationRows : { State.reset with hostQ := [.op (.goto 0xFFFF)] }.runState = .ready ∧
    { State.reset with hostQ := [.op (.goto 0xFFFF)] }.hostQ = .op (.goto 0xFFFF) :: [] ∧
    State.reset.runState ≠ .running ∧ haltedCore.runState ≠ .running ∧
    { haltedCore with hostQ := [.op (.setInstrBp ⟨0, 1⟩)] }.hostQ = .op (.setInstrBp ⟨0, 1⟩) :: [] := by decide
theorem witness_HostOperationOutsideItsStates : { haltedCore with hostQ := [.op .continue] }.runState = .halted ∧
    { haltedCore with hostQ := [.op (.supply .endOfInput)] }.hostQ = .op (.supply .endOfInput) :: [] ∧
    { coreWith [] [] with hostQ := [.op .getState] }.runState = .running ∧ HostOp.getState ≠ .pause := by decide

/-- R254, D26: only `pause` lands while the core is Running; a `configure` waits, and the `halt` at `pc` runs. -/
theorem test_configure_waits :
    (nextOf (step { configuredCore [] with runState := .running })).map (fun t => (t.runState, t.hostQ.length)) =
      some (.halted, 1) := by decide
theorem witness_StepKeepsInvariant : (coreWith [] []).Inv ∧ ∃ t, step (coreWith [] []) = .next t :=
  ⟨⟨by decide, by decide, .inl rfl, fun _ _ h => (Option.some_ne_none _ h.symm).elim, by decide⟩, _, rfl⟩
theorem witness_NoStepFaults : { coreWith [] [] with codeLimit := 256, pc := 255 }.codeLimit ≤ 256 := by decide
theorem witness_RefusalsComeFromTheHost :
    step { haltedCore with hostQ := [.op .continue] } = .refused .hostOpNotAllowed ∧
      step { coreWith [] [] with rejected := true } = .refused .mustNotRun :=
  ⟨rfl, rfl⟩
theorem witness_OutputOnlyGrows : (∃ t, step (coreWith [] [(0, 0x0102)]) = .next t ∧ t.out = [.value 0]) ∧
    ∀ mode source launch rest, (coreWith [] [(0, 0x0102)]).hostQ ≠ .op (.configure mode source launch) :: rest :=
  ⟨⟨_, rfl, rfl⟩, fun _ _ _ _ h => List.cons_ne_nil _ _ h.symm⟩

end Sys2Proof.Tests
end

section
/-! SUPPORT. What an instruction, a cycle and a host operation can leave behind: each is taken apart once here into a
relation between the state before and the state after, from which the frames and the invariant follow. -/

namespace Sys2Proof.Proofs

open Sys2Proof Sys2Proof.Machine

/-! ### The entries of an access table (R211) -/

@[simp] theorem writeReg_eq_iff (r q : Reg) : writeReg r = writeReg q ↔ r = q := by
  simp [writeReg, Fin.ext_iff]

/-! ### The writes of an instruction -/

/-- The state `u` comes from `s` by register and memory writes that a list of accesses names (R24, R62, R211). -/
inductive Writes (as : List Access) (s : State) : State → Prop where
  | refl : Writes as s s
  | setReg {u : State} (h : Writes as s u) {r : Reg} (hr : writeReg r ∈ as) (v : Word) : Writes as s (u.setReg r v)
  | store {u w : State} (h : Writes as s u) {a : Int} (ha : writeMem a ∈ as) {v : Word}
      (hw : u.memWrite a v = some w) : Writes as s w

/-- Such writes change the registers, memory and MODIFIED only. -/
theorem Writes.frame {as : List Access} {s u : State} (h : Writes as s u) :
    u = { s with regs := u.regs, mem := u.mem, modified := u.modified } := by
  induction h with
  | refl => rfl
  | @setReg u _ r _ v ih =>
    exact congrArg (fun w : State => { w with regs := putReg u.regs r v, mem := u.mem, modified := u.modified }) ih
  | @store u w _ a _ v hw ih =>
    obtain ⟨_, rfl⟩ := (memWrite_eq_some_iff _ _ _ _).mp hw
    exact congrArg (fun w : State => { w with
      regs := u.regs, mem := memPut u.mem a.toNat v, modified := addAddress u.modified a.toNat }) ih

theorem Writes.sameConfig {as : List Access} {s u : State} (h : Writes as s u) : SameConfig s u := by
  rw [h.frame]
  exact sameConfig_refl s

theorem Writes.out_eq {as : List Access} {s u : State} (h : Writes as s u) : u.out = s.out := by
  rw [h.frame]

/-- A register the accesses do not write keeps its value. -/
theorem Writes.reg_eq {as : List Access} {s u : State} (h : Writes as s u) {r : Reg} (hr : writeReg r ∉ as) :
    u.reg r = s.reg r := by
  induction h with
  | refl => rfl
  | @setReg u _ q hq v ih =>
    have hne : r ≠ q := fun e => hr (e ▸ hq)
    rw [setReg_reg_of_ne u v hne, ih]
  | store _ _ hw ih =>
    obtain ⟨_, rfl⟩ := (memWrite_eq_some_iff _ _ _ _).mp hw
    exact ih

theorem memRead_of_memWrite_ne {s t : State} {a b : Int} {v : Word} (hw : s.memWrite a v = some t) (h : b ≠ a) :
    t.memRead b = s.memRead b := by
  obtain ⟨ha, rfl⟩ := (memWrite_eq_some_iff _ _ _ _).mp hw
  unfold State.memRead
  by_cases hb : isMemoryAddress b = true
  · have hb' := (isMemoryAddress_iff b).mp hb
    rw [if_pos hb, if_pos hb, memGet_memPut_of_ne _ _ (by omega)]
  · rw [if_neg hb, if_neg hb]

/-- A memory word the accesses do not write keeps its value and its place in MODIFIED (R40, R62). -/
theorem Writes.mem_eq {as : List Access} {s u : State} (h : Writes as s u) {a : Nat}
    (ha : writeMem (a : Int) ∉ as) :
    u.memRead (a : Int) = s.memRead (a : Int) ∧ (a ∈ u.modified ↔ a ∈ s.modified) := by
  induction h with
  | refl => exact ⟨rfl, Iff.rfl⟩
  | setReg _ _ _ ih => exact ih
  | @store u w _ b hb v hw ih =>
    have hne : (a : Int) ≠ b := fun e => ha (e ▸ hb)
    refine ⟨(memRead_of_memWrite_ne hw hne).trans ih.1, ?_⟩
    obtain ⟨hrange, rfl⟩ := (memWrite_eq_some_iff _ _ _ _).mp hw
    rw [mem_addAddress, ih.2, or_iff_right (by omega)]

/-! ### The end of a `read` (R192, R193) -/

/-- A `read` waits, or takes the answer that is next in the host's plan. -/
theorem requestInput_cases (s : State) (x : Reg) :
    requestInput s x = { s with runState := .awaitingInput x } ∨
    ∃ answer rest, s.hostQ = .op (.supply answer) :: rest ∧
      requestInput s x = answerRead { s with hostQ := rest } x answer := by
  unfold requestInput
  split
  · exact .inr ⟨_, _, by assumption, rfl⟩
  · exact .inl rfl

theorem requestInput_of_supply {s : State} {answer : InputAnswer} {rest : List HostEvent} (x : Reg)
    (h : s.hostQ = .op (.supply answer) :: rest) :
    requestInput s x = answerRead { s with hostQ := rest } x answer := by
  unfold requestInput
  rw [h]

theorem requestInput_of_no_supply {s : State} (x : Reg) (h : ∀ a rest, s.hostQ ≠ .op (.supply a) :: rest) :
    requestInput s x = { s with runState := .awaitingInput x } :=
  (requestInput_cases s x).resolve_right fun ⟨a, rest, hq, _⟩ => h a rest hq

@[simp] theorem answerRead_out (s : State) (x : Reg) (answer : InputAnswer) : (answerRead s x answer).out = s.out := by
  cases answer <;> rfl

@[simp] theorem answerRead_modified (s : State) (x : Reg) (answer : InputAnswer) :
    (answerRead s x answer).modified = s.modified := by
  cases answer <;> rfl

theorem answerRead_memRead (s : State) (x : Reg) (answer : InputAnswer) (a : Int) :
    (answerRead s x answer).memRead a = s.memRead a := by
  cases answer <;> rfl

theorem answerRead_sameConfig (s : State) (x : Reg) (answer : InputAnswer) :
    SameConfig s (answerRead s x answer) := by
  cases answer <;> exact sameConfig_refl s

theorem answerRead_reg_of_ne (s : State) {x r : Reg} (h : r ≠ x) (answer : InputAnswer) :
    (answerRead s x answer).reg r = s.reg r := by
  cases answer with
  | integer i => exact setReg_reg_of_ne { s with runState := .running } (u16 i) h
  | endOfInput => rfl

/-! ### What an instruction can leave behind (R209 steps 4 to 10) -/

/-- The states `exec i s` can answer: a stop of the checks, an exception of the effect, the end of the program, a `read`
that waits or is answered, or the listed writes followed by the end of the cycle. -/
inductive ExecResult (i : Instr) (s : State) : State → Prop where
  /-- R202, R208, R214. -/
  | fatal (k : ExcKind) (addr : Word) (hk : k = .invalidMemoryAccess ∨ (k = .divideByZero ∧ addr = 0)) :
      ExecResult i s (s.takeFatal k addr)
  /-- R206, R207, R215. -/
  | maskable (d : Direction) (addr : Word) (id : BpId) : ExecResult i s (s.takeMaskable (segmentKind d) addr id)
  /-- R213, R231. -/
  | watched (ids : List BpId) : ExecResult i s (s.stop .paused .dataBreakpoint ids)
  /-- R190. -/
  | halted (hi : i = .halt) : ExecResult i s (s.stop .halted .halt [])
  /-- R192, no answer next. -/
  | waiting (x : Reg) (hi : i = .read x) : ExecResult i s { s with runState := .awaitingInput x }
  /-- R192, R193, the answer next. -/
  | answered (x : Reg) (hi : i = .read x) (answer : InputAnswer) (rest : List HostEvent)
      (hq : s.hostQ = .op (.supply answer) :: rest) : ExecResult i s (answerRead { s with hostQ := rest } x answer)
  /-- R194. -/
  | emitted (v : Int) (target : Word) : ExecResult i s ((s.emit (.value v)).retire .write target)
  /-- Steps 6 to 10 of every other instruction. -/
  | retired {u : State} (hw : Writes (accesses i s) s u) (m : Mnemonic) (target : Word) :
      ExecResult i s (u.retire m target)

/-- One listed register write and the end of the cycle. -/
theorem ExecResult.ofWriteResult {i : Instr} {s : State} {x : Reg} (hx : writeReg x ∈ accesses i s) (m : Mnemonic)
    (v : Word) : ExecResult i s (writeResult s m x v) :=
  .retired (.setReg .refl hx v) m s.nextPc

theorem ExecResult.ofWriteUnlessZero {i : Instr} {s : State} {x : Reg} (hx : writeReg x ∈ accesses i s) (m : Mnemonic)
    (divisor v : Word) : ExecResult i s (writeUnlessZero s m x divisor v) := by
  unfold writeUnlessZero
  split
  · exact .fatal .divideByZero 0 (.inr ⟨rfl, rfl⟩)
  · exact .ofWriteResult hx m v

theorem ExecResult.ofRequestInput (s : State) (x : Reg) : ExecResult (.read x) s (requestInput s x) := by
  rcases requestInput_cases s x with h | ⟨answer, rest, hq, h⟩
  · rw [h]
    exact .waiting x rfl
  · rw [h]
    exact .answered x rfl answer rest hq

theorem withRead_next {s t : State} {a : Int} {k : Word → State} (h : withRead s a k = .next t) :
    ∃ v, s.memRead a = some v ∧ t = k v := by
  unfold withRead at h
  split at h
  · cases h
    exact ⟨_, by assumption, rfl⟩
  · cases h

theorem withWrite_next {s t : State} {a : Int} {v : Word} {k : State → State} (h : withWrite s a v k = .next t) :
    ∃ w, s.memWrite a v = some w ∧ t = k w := by
  unfold withWrite at h
  split at h
  · cases h
    exact ⟨_, by assumption, rfl⟩
  · cases h

/-- A load writes its register. -/
theorem ExecResult.ofLoadFrom {i : Instr} {s t : State} {m : Mnemonic} {x : Reg} {a : Int}
    (hx : writeReg x ∈ accesses i s) (h : loadFrom s m x a = .next t) : ExecResult i s t := by
  obtain ⟨v, -, rfl⟩ := withRead_next h
  exact .ofWriteResult hx m v

/-- A store writes its memory word. -/
theorem ExecResult.ofStoreTo {i : Instr} {s t : State} {m : Mnemonic} {x : Reg} {a : Int}
    (ha : writeMem a ∈ accesses i s) (h : storeTo s m x a = .next t) : ExecResult i s t := by
  obtain ⟨w, hw, rfl⟩ := withWrite_next h
  exact .retired (.store .refl ha hw) m s.nextPc

theorem effect_next {i : Instr} {s t : State} (h : effect i s = .next t) : ExecResult i s t := by
  cases i with
  | halt =>
    cases h
    exact .halted rfl
  | read x =>
    cases h
    exact .ofRequestInput s x
  | write x =>
    cases h
    exact .emitted _ _
  | nop | jumpn _ | jumpr _ | jeqzn _ _ | jnezn _ _ | jgtzn _ _ | jltzn _ _ =>
    cases h
    exact .retired .refl _ _
  | setn _ _ | addn _ _ | copy _ _ | neg _ _ | add _ _ _ | sub _ _ _ | mul _ _ _ =>
    cases h
    exact .ofWriteResult (by simp [accesses]) _ _
  | div _ _ _ | mod _ _ _ =>
    cases h
    exact .ofWriteUnlessZero (by simp [accesses]) _ _ _
  | calln x n =>
    cases h
    exact .retired (.setReg .refl (by simp [accesses]) _) _ _
  | loadn _ _ | loadr _ _ => exact .ofLoadFrom (by simp [accesses]) h
  | storen _ _ | storer _ _ => exact .ofStoreTo (by simp [accesses]) h
  | popr x y =>
    obtain ⟨v, -, rfl⟩ := withRead_next h
    exact .retired (.setReg (.setReg .refl (by simp [accesses]) _) (by simp [accesses]) v) _ _
  | pushr x y =>
    obtain ⟨w, hw, rfl⟩ := withWrite_next h
    exact .retired (.setReg (.store .refl (by simp [accesses]) hw) (by simp [accesses]) _) _ _

/-- Every next state of an instruction is one of the results. -/
theorem exec_next {i : Instr} {s t : State} (h : exec i s = .next t) : ExecResult i s t := by
  rcases exec_cases i s with ⟨a, -, -, he⟩ | ⟨a, -, id, -, -, he⟩ | ⟨-, -, id, ids, -, he⟩ | ⟨-, he⟩
  · cases he.symm.trans h
    exact .fatal _ _ (.inl rfl)
  · cases he.symm.trans h
    exact .maskable a.dir _ id
  · cases he.symm.trans h
    exact .watched _
  · exact effect_next (he.symm.trans h)

/-! ### What a cycle can leave behind (R209, R210) -/

/-- The states one cycle can answer. -/
inductive CycleResult (s : State) : State → Prop where
  | pause : CycleResult s ({ s with pauseReq := false }.stop .paused .pause [])
  | fetchBound : CycleResult s (s.takeFatal .executeOutsideSegment s.pc)
  | breakpoint : CycleResult s (s.stop .paused .breakpoint (instrBpIds s))
  | fetchWatched (ids : List BpId) : CycleResult s (s.stop .paused .dataBreakpoint ids)
  | undecoded : CycleResult s (s.takeFatal .invalidInstruction 0)
  | executed {i : Instr} {t : State} (h : ExecResult i s t) : CycleResult s t

theorem undecoded_next {s t : State} {w : Word} {e : DecodeError} (h : undecoded s w e = .next t) :
    CycleResult s t := by
  unfold Machine.undecoded at h
  split at h
  · cases h
    exact .fetchWatched _
  · cases e with
    | noMatch | numericThirdSlot =>
      cases h
      exact .undecoded
    | equalMaskTie => cases h

theorem cycle_next {s t : State} (h : cycle s = .next t) : CycleResult s t := by
  rcases cycle_cases s with ⟨-, hc⟩ | ⟨-, -, hc⟩ | ⟨-, -, -, -, hc⟩ | ⟨-, -, -, hc⟩
  · cases hc.symm.trans h
    exact .pause
  · cases hc.symm.trans h
    exact .fetchBound
  · cases hc.symm.trans h
    exact .breakpoint
  · have hf := hc.symm.trans h
    rcases fetchAndExec_cases s with ⟨-, he⟩ | ⟨w, -, ⟨i, -, he⟩ | ⟨e, -, he⟩⟩
    · cases he.symm.trans hf
    · exact .executed (exec_next (he.symm.trans hf))
    · exact undecoded_next (he.symm.trans hf)

/-! ### What a host operation can leave behind (R255) -/

/-- The states a host operation can answer. -/
inductive HostResult (s : State) : HostOp → State → Prop where
  | configured (mode : ConfigMode) (source : List Char) (launch : Launch) :
      HostResult s (.configure mode source launch) (s.configure mode source launch)
  | continued : HostResult s .continue { s with stepMode := false }.resume
  | stepped (filter : Option Mnemonic) :
      HostResult s (.step filter) { s with stepMode := true, stepFilter := filter }.resume
  | moved (address : Word) : HostResult s (.goto address) (s.goto address)
  | answered {x : Reg} (hx : s.runState = .awaitingInput x) (answer : InputAnswer) :
      HostResult s (.supply answer) (answerRead s x answer)
  /-- `pause`, the breakpoint sets and the reads: at most the host's own settings change. -/
  | set (o : HostOp) (pauseReq : Bool) (ibp : List InstrBp) (dbp : List DataBp) (excEn : ExcEnable) :
      HostResult s o { s with pauseReq := pauseReq, ibp := ibp, dbp := dbp, excEn := excEn }

theorem whenReadyOrPaused_next {s t : State} {k : Host.Outcome State Fault Refusal}
    (h : whenReadyOrPaused s k = .next t) : k = .next t := by
  unfold whenReadyOrPaused at h
  split at h
  · exact h
  · cases h

theorem resumeUnlessRejected_next {s t : State} (h : resumeUnlessRejected s = .next t) : t = s.resume := by
  unfold resumeUnlessRejected at h
  split at h
  · cases h
  · cases h
    rfl

theorem landWhere_next {s t : State} {agreed : Bool} {k : Host.Outcome State Fault Refusal}
    (h : landWhere s agreed k = .next t) : k = .next t := by
  rcases landWhere_cases s agreed k with hl | ⟨-, hl⟩
  · cases hl.symm.trans h
  · exact hl.symm.trans h

theorem supplyAnswer_next {s t : State} {answer : InputAnswer} (h : supplyAnswer s answer = .next t) :
    ∃ x, s.runState = .awaitingInput x ∧ t = answerRead s x answer := by
  rcases supplyAnswer_cases s answer with ⟨x, hx, -, ha⟩ | ⟨x, -, -, ha⟩ | ⟨-, ha⟩
  · cases ha.symm.trans h
    exact ⟨x, hx, rfl⟩
  · cases ha.symm.trans h
  · cases ha.symm.trans h

theorem applyHostOp_next {o : HostOp} {s t : State} (h : applyHostOp o s = .next t) : HostResult s o t := by
  match o, h with
  | .configure mode source launch, h =>
    cases landWhere_next h
    exact .configured mode source launch
  | .continue, h =>
    obtain rfl := resumeUnlessRejected_next (whenReadyOrPaused_next h)
    exact .continued
  | .step filter, h =>
    obtain rfl := resumeUnlessRejected_next (whenReadyOrPaused_next h)
    exact .stepped filter
  | .goto address, h =>
    cases whenReadyOrPaused_next h
    exact .moved address
  | .supply answer, h =>
    obtain ⟨x, hx, rfl⟩ := supplyAnswer_next h
    exact .answered hx answer
  | .pause, h =>
    cases h
    exact .set _ _ _ _ _
  | .setInstrBp _, h | .clearInstrBps, h | .setDataBp _, h | .clearDataBps, h | .setExcBps _, h | .getState, h
  | .getLastException, h =>
    cases landWhere_next h
    exact .set _ _ _ _ _

/-! ### What a step can leave behind (R254) -/

/-- The core's turn is an idle slot or a cycle. -/
theorem coreTurn_next {s t : State} (h : coreTurn s = .next t) :
    t = s ∨ (s.runState = .running ∧ CycleResult s t) := by
  rcases coreTurn_cases s with ⟨hr, -, hc⟩ | ⟨-, -, hc⟩ | ⟨-, hc⟩
  · exact .inr ⟨hr, cycle_next (hc.symm.trans h)⟩
  · cases hc.symm.trans h
  · cases hc.symm.trans h
    exact .inl rfl

/-- A step to a next state is the core's turn or the landing of the host's next operation; the host's plan is all that
changes before it. -/
theorem step_next {s t : State} (h : step s = .next t) :
    (∃ q, t = { s with hostQ := q } ∨ (s.runState = .running ∧ CycleResult { s with hostQ := q } t)) ∨
    (∃ o rest, s.hostQ = .op o :: rest ∧ HostResult { s with hostQ := rest } o t) := by
  rcases step_cases s with ⟨hs, -⟩ | ⟨rest, -, hs⟩ | ⟨o, rest, hq, -, hs⟩
  · exact .inl ⟨s.hostQ, coreTurn_next (hs.symm.trans h)⟩
  · exact .inl ⟨rest, coreTurn_next (hs.symm.trans h)⟩
  · exact .inr ⟨o, rest, hq, applyHostOp_next (hs.symm.trans h)⟩

end Sys2Proof.Proofs
end

section
/-! SUPPORT. The statements of spec/10_state.md and spec/44_system.md: registers, frames, noninterference, `halt` and
`read`, OUT, and the invariant of the state. -/

namespace Sys2Proof.Proofs

open Sys2Proof Sys2Proof.Machine

/-! ### Registers (R22, R23) -/

/-- Settles O14, from the read-after-write law of the register file. -/
theorem registerZeroIsHardWired : Obligations.RegisterZeroIsHardWired := by
  intro s r v
  refine ⟨reg_zero s, reg_zero _, setReg_zero s v, fun hr => ?_, fun q hq => setReg_reg_of_ne s v hq⟩
  rw [setReg_reg_same, if_neg hr]

/-! ### Frames of an instruction (R24, R211) -/

/-- A register outside the access table reads as before in every result. -/
theorem ExecResult.reg_eq {i : Instr} {s t : State} (h : ExecResult i s t) {r : Reg}
    (hr : writeReg r ∉ accesses i s) : t.reg r = s.reg r := by
  cases h with
  | fatal | maskable | watched | halted | waiting | emitted => rfl
  | answered x hi answer rest _ =>
    subst hi
    exact answerRead_reg_of_ne { s with hostQ := rest } (by simpa [accesses] using hr) answer
  | retired hw => exact hw.reg_eq hr

/-- A memory word outside the access table reads as before and keeps its place in MODIFIED, in every result. -/
theorem ExecResult.mem_eq {i : Instr} {s t : State} (h : ExecResult i s t) {a : Nat}
    (ha : writeMem (a : Int) ∉ accesses i s) :
    t.memRead (a : Int) = s.memRead (a : Int) ∧ (a ∈ t.modified ↔ a ∈ s.modified) := by
  cases h with
  | fatal | maskable | watched | halted | waiting | emitted => exact ⟨rfl, Iff.rfl⟩
  | answered x _ answer rest _ => exact ⟨answerRead_memRead _ x answer a, by rw [answerRead_modified]⟩
  | retired hw => exact hw.mem_eq ha

theorem ExecResult.sameConfig {i : Instr} {s t : State} (h : ExecResult i s t) : SameConfig s t := by
  cases h with
  | fatal | maskable | watched | halted | waiting | emitted => exact sameConfig_refl s
  | answered x _ answer rest _ => exact answerRead_sameConfig { s with hostQ := rest } x answer
  | retired hw => exact hw.sameConfig

/-- Settles O15, from the results of an instruction. -/
theorem registerWritesFollowAccessTable : Obligations.RegisterWritesFollowAccessTable :=
  fun _ _ _ _ h hr => (exec_next h).reg_eq hr

/-- Settles O18, from the results of an instruction. -/
theorem memoryWritesFollowAccessTable : Obligations.MemoryWritesFollowAccessTable :=
  fun _ _ _ _ h ha => (exec_next h).mem_eq ha

/-- Settles O20, from the results of an instruction. -/
theorem instructionsKeepHostConfiguration : Obligations.InstructionsKeepHostConfiguration :=
  fun _ _ _ h => (exec_next h).sameConfig

/-! ### Noninterference (R24, R211) -/

theorem setReg_comm (s : State) {r x : Reg} (h : x ≠ r) (v w : Word) :
    (s.setReg r v).setReg x w = (s.setReg x w).setReg r v := by
  have hv : r.val ≠ x.val := fun e => h (Fin.ext e.symm)
  unfold State.setReg putReg
  by_cases hr : r = 0
  · simp [hr]
  · by_cases hx : x = 0
    · simp [hx]
    · simp [hr, hx, Vector.set_comm _ _ hv]

section
variable {s : State} {r : Reg}

theorem eaIndirect_setReg {y : Reg} (h : y ≠ r) (v : Word) : eaIndirect (s.setReg r v) y = eaIndirect s y := by
  rw [eaIndirect, eaIndirect, setReg_reg_of_ne s v h]

theorem eaPop_setReg {y : Reg} (h : y ≠ r) (v : Word) : eaPop (s.setReg r v) y = eaPop s y := by
  rw [eaPop, eaPop, setReg_reg_of_ne s v h]

/-- The access table depends on no register that it does not read. -/
theorem accesses_setReg {i : Instr} (hr : readReg r ∉ accesses i s) (v : Word) :
    accesses i (s.setReg r v) = accesses i s := by
  have hne : ∀ y, readReg y ∈ accesses i s → y ≠ r := fun y hy e => hr (e ▸ hy)
  cases i with
  | loadr x y | storer x y | pushr x y =>
    simp only [accesses, eaIndirect_setReg (hne y (by simp [accesses])) v]
  | popr x y => simp only [accesses, eaPop_setReg (hne y (by simp [accesses])) v]
  | _ => rfl

theorem checkAll_setReg (v : Word) (as : List Access) (hits : List BpId) :
    checkAll (s.setReg r v) as hits = checkAll s as hits := by
  induction as generalizing hits with
  | nil => rfl
  | cons a as ih =>
    have hc : checkAccess (s.setReg r v) a hits = checkAccess s a hits := rfl
    simp only [checkAll, hc, ih]

/-- The checks of step 4 depend on no register that the access table does not read. -/
theorem checkInstr_setReg {i : Instr} (hr : readReg r ∉ accesses i s) (v : Word) :
    checkInstr i (s.setReg r v) = checkInstr i s := by
  unfold checkInstr
  rw [accesses_setReg hr, checkAll_setReg]
  rfl

theorem guarded_setReg {i : Instr} (hr : readReg r ∉ accesses i s) (v : Word)
    (e : Host.Outcome State Fault Refusal) :
    guarded i (s.setReg r v) (mapNext (fun t => t.setReg r v) e) = mapNext (fun t => t.setReg r v) (guarded i s e) := by
  unfold guarded
  rw [checkInstr_setReg hr]
  cases checkInstr i s with
  | fatal | maskable => rfl
  | pass hits => cases hits <;> rfl

/-- A write to another register and the end of the cycle carry the register along. -/
theorem retire_setReg_comm (s : State) {x : Reg} (h : x ≠ r) (m : Mnemonic) (target v w : Word) :
    ((s.setReg r v).setReg x w).retire m target = ((s.setReg x w).retire m target).setReg r v :=
  congrArg (fun u : State => u.retire m target) (setReg_comm s h v w)

theorem writeResult_setReg {x : Reg} (h : x ≠ r) (m : Mnemonic) (v w : Word) :
    writeResult (s.setReg r v) m x w = (writeResult s m x w).setReg r v :=
  retire_setReg_comm s h m s.nextPc v w

theorem writeUnlessZero_setReg {x : Reg} (h : x ≠ r) (m : Mnemonic) (v d w : Word) :
    writeUnlessZero (s.setReg r v) m x d w = (writeUnlessZero s m x d w).setReg r v := by
  unfold writeUnlessZero
  split
  · rfl
  · exact writeResult_setReg h m v w

theorem withRead_setReg (v : Word) (a : Int) {k k' : Word → State} (hk : ∀ w, k' w = (k w).setReg r v) :
    withRead (s.setReg r v) a k' = mapNext (fun t => t.setReg r v) (withRead s a k) := by
  unfold withRead
  rw [setReg_memRead]
  cases s.memRead a with
  | none => rfl
  | some w => exact congrArg _ (hk w)

theorem memWrite_setReg (v : Word) (a : Int) (w : Word) :
    (s.setReg r v).memWrite a w = (s.memWrite a w).map (fun t => t.setReg r v) := by
  unfold State.memWrite
  split <;> rfl

theorem withWrite_setReg (v : Word) (a : Int) (w : Word) {k k' : State → State}
    (hk : ∀ u : State, k' (u.setReg r v) = (k u).setReg r v) :
    withWrite (s.setReg r v) a w k' = mapNext (fun t => t.setReg r v) (withWrite s a w k) := by
  unfold withWrite
  rw [memWrite_setReg]
  cases s.memWrite a w with
  | none => rfl
  | some u => exact congrArg _ (hk u)

theorem answerRead_setReg {x : Reg} (h : x ≠ r) (v : Word) (answer : InputAnswer) :
    answerRead (s.setReg r v) x answer = (answerRead s x answer).setReg r v := by
  cases answer with
  | integer i => exact retire_setReg_comm { s with runState := .running } h .read s.nextPc v (u16 i)
  | endOfInput => rfl

theorem requestInput_setReg {x : Reg} (h : x ≠ r) (v : Word) :
    requestInput (s.setReg r v) x = (requestInput s x).setReg r v := by
  by_cases hq : ∃ answer rest, s.hostQ = .op (.supply answer) :: rest
  · obtain ⟨answer, rest, hq⟩ := hq
    rw [requestInput_of_supply x hq, requestInput_of_supply (s := s.setReg r v) x hq]
    exact answerRead_setReg (s := { s with hostQ := rest }) h v answer
  · have hn : ∀ a rest, s.hostQ ≠ .op (.supply a) :: rest := fun a rest e => hq ⟨a, rest, e⟩
    rw [requestInput_of_no_supply x hn, requestInput_of_no_supply (s := s.setReg r v) x hn]
    rfl

/-- The effect of an instruction carries along a register outside its access table. -/
theorem effect_setReg {i : Instr} (hr : readReg r ∉ accesses i s) (hw : writeReg r ∉ accesses i s) (v : Word) :
    effect i (s.setReg r v) = mapNext (fun t => t.setReg r v) (effect i s) := by
  have hread : ∀ y, readReg y ∈ accesses i s → (s.setReg r v).reg y = s.reg y :=
    fun y hy => setReg_reg_of_ne s v fun e => hr (e ▸ hy)
  have hne : ∀ x, writeReg x ∈ accesses i s → x ≠ r := fun x hx e => hw (e ▸ hx)
  cases i with
  | halt | nop | jumpn => rfl
  | read x => exact congrArg _ (requestInput_setReg (hne x (by simp [accesses])) v)
  | write x =>
    simp only [effect, hread x (by simp [accesses])]
    rfl
  | jumpr x =>
    simp only [effect, targetRegister, hread x (by simp [accesses])]
    rfl
  | jeqzn x _ | jnezn x _ | jgtzn x _ | jltzn x _ =>
    simp only [effect, hread x (by simp [accesses])]
    rfl
  | setn x _ => exact congrArg _ (writeResult_setReg (hne x (by simp [accesses])) _ v _)
  | calln x n => exact congrArg _ (retire_setReg_comm s (hne x (by simp [accesses])) _ _ v _)
  | addn x _ =>
    simp only [effect, hread x (by simp [accesses])]
    exact congrArg _ (writeResult_setReg (hne x (by simp [accesses])) _ v _)
  | copy x y | neg x y =>
    simp only [effect, hread y (by simp [accesses])]
    exact congrArg _ (writeResult_setReg (hne x (by simp [accesses])) _ v _)
  | add x y z | sub x y z | mul x y z =>
    simp only [effect, hread y (by simp [accesses]), hread z (by simp [accesses])]
    exact congrArg _ (writeResult_setReg (hne x (by simp [accesses])) _ v _)
  | div x y z | mod x y z =>
    simp only [effect, hread y (by simp [accesses]), hread z (by simp [accesses])]
    exact congrArg _ (writeUnlessZero_setReg (hne x (by simp [accesses])) _ v _ _)
  | loadn x n =>
    exact withRead_setReg v _ fun w => writeResult_setReg (hne x (by simp [accesses])) _ v w
  | loadr x y =>
    simp only [effect, eaIndirect, hread y (by simp [accesses])]
    exact withRead_setReg v _ fun w => writeResult_setReg (hne x (by simp [accesses])) _ v w
  | storen x n =>
    simp only [effect, storeTo, hread x (by simp [accesses])]
    exact withWrite_setReg v _ _ fun _ => rfl
  | storer x y =>
    simp only [effect, storeTo, eaIndirect, hread x (by simp [accesses]), hread y (by simp [accesses])]
    exact withWrite_setReg v _ _ fun _ => rfl
  | popr x y =>
    have hx : x ≠ r := hne x (by simp [accesses])
    have hy : y ≠ r := hne y (by simp [accesses])
    simp only [effect, eaPop, hread y (by simp [accesses])]
    refine withRead_setReg v _ fun w => ?_
    rw [setReg_comm s hy, setReg_comm _ hx]
    rfl
  | pushr x y =>
    have hy : y ≠ r := hne y (by simp [accesses])
    simp only [effect, eaIndirect, hread x (by simp [accesses]), hread y (by simp [accesses])]
    refine withWrite_setReg v _ _ fun u => ?_
    rw [setReg_comm u hy]
    rfl

end

/-- Settles O16: the checks do not see the register, and the effect carries it along. -/
theorem unnamedRegistersDoNotMatter : Obligations.UnnamedRegistersDoNotMatter := by
  intro i s r v hr hw
  rw [exec_eq_guarded, exec_eq_guarded, effect_setReg hr hw, guarded_setReg hr]

/-! ### `halt` and `read` (R190, R192, R193) -/

/-- Settles O36: an undisturbed `halt` is its stop. -/
theorem haltEndsProgram : Obligations.HaltEndsProgram :=
  fun s hu => ⟨_, exec_of_undisturbed hu, stoppedWith_stop s .halted .halt []⟩

/-- The answer `v` to a `read` of `x`: stored, and the cycle ends at `pc + 1` (R192). -/
theorem answerRead_integer (s : State) (x : Reg) (v : Int) :
    RegHolds (answerRead s x (.integer v)) x (BitVec.ofInt 16 v) ∧ SameRegsBut x s (answerRead s x (.integer v)) ∧
      SameMemory s (answerRead s x (.integer v)) ∧
      Retired .read (s.pc + 1) { s with runState := .running } (answerRead s x (.integer v)) :=
  ⟨setReg_reg_same { s with runState := .running } x (u16 v), fun _ hr => answerRead_reg_of_ne s hr _,
    ⟨fun _ => rfl, rfl⟩,
    retired_retire .read (s.pc + 1) rfl rfl (sameConfig_refl { s with runState := .running }) rfl ⟨rfl, rfl, rfl⟩⟩

theorem exec_read_of_supply {s : State} {x : Reg} {answer : InputAnswer} {rest : List HostEvent}
    (hu : Undisturbed (.read x) s) (hq : s.hostQ = .op (.supply answer) :: rest) :
    exec (.read x) s = .next (answerRead { s with hostQ := rest } x answer) := by
  rw [exec_of_undisturbed hu]
  exact congrArg _ (requestInput_of_supply x hq)

/-- The landing of an answer ends the `read` that waits for it (R192, R255). -/
theorem step_of_supply {s : State} {x : Reg} {answer : InputAnswer} {rest : List HostEvent}
    (hx : s.runState = .awaitingInput x) (hj : s.rejected = false) (hq : s.hostQ = .op (.supply answer) :: rest) :
    step s = .next (answerRead { s with hostQ := rest } x answer) := by
  simp [step, turn, hq, hx, applyHostOp, supplyAnswer, hj]

/-- Settles O39: the answer that is next ends the `read` in its own step. -/
theorem readStoresAnswer : Obligations.ReadStoresAnswer := by
  intro x s rest hu
  constructor
  · intro v hq
    obtain ⟨hreg, hregs, hmem, hret⟩ := answerRead_integer { s with hostQ := rest } x v
    exact ⟨_, exec_read_of_supply hu hq, hreg, hregs, hmem, rfl, rfl, hret⟩
  · intro hq
    exact ⟨_, exec_read_of_supply hu hq, stoppedWith_stop { s with hostQ := rest } .halted .inputEnd []⟩

/-- Settles O40: without an answer only the run state changes; the answer's landing then ends the `read`. -/
theorem readWaitsForAnswer : Obligations.ReadWaitsForAnswer := by
  constructor
  · intro x s hu hn
    exact ⟨_, exec_of_undisturbed hu, requestInput_of_no_supply x hn⟩
  · intro x s rest hx hj
    constructor
    · intro v hq
      obtain ⟨hreg, hregs, hmem, hret⟩ := answerRead_integer { s with hostQ := rest } x v
      exact ⟨_, step_of_supply hx hj hq, hreg, hregs, hmem, rfl, rfl, hret⟩
    · intro hq
      exact ⟨_, step_of_supply hx hj hq, stoppedWith_stop { s with hostQ := rest } .halted .inputEnd []⟩

/-! ### OUT (R41, R194, R214) -/

/-- OUT is as before or has one more item at its end. -/
def OutGrows (s t : State) : Prop := t.out = s.out ∨ ∃ item, t.out = s.out ++ [item]

theorem ExecResult.outGrows {i : Instr} {s t : State} (h : ExecResult i s t) : OutGrows s t := by
  cases h with
  | fatal k => exact .inr ⟨.report k, rfl⟩
  | emitted v => exact .inr ⟨.value v, rfl⟩
  | maskable | watched | halted | waiting => exact .inl rfl
  | answered x _ answer rest _ => exact .inl (answerRead_out _ x answer)
  | retired hw => exact .inl hw.out_eq

theorem CycleResult.outGrows {s t : State} (h : CycleResult s t) : OutGrows s t := by
  cases h with
  | pause | breakpoint | fetchWatched => exact .inl rfl
  | fetchBound | undecoded => exact .inr ⟨.report _, rfl⟩
  | executed h => exact h.outGrows

/-- No host operation but `configure` touches OUT. -/
theorem HostResult.out_eq {s t : State} {o : HostOp} (h : HostResult s o t)
    (ho : ∀ mode source launch, o ≠ .configure mode source launch) : t.out = s.out := by
  cases h with
  | configured mode source launch => exact absurd rfl (ho mode source launch)
  | answered _ answer => exact answerRead_out _ _ answer
  | continued | stepped | moved | set => rfl

/-- Settles O60, from the results of a step. -/
theorem outputOnlyGrows : Obligations.OutputOnlyGrows := by
  intro s t h hcfg
  rcases step_next h with ⟨q, rfl | ⟨-, hc⟩⟩ | ⟨o, rest, hq, ho⟩
  · exact .inl rfl
  · exact hc.outGrows
  · exact .inl (ho.out_eq fun mode source launch e => hcfg mode source launch rest (e ▸ hq))

/-! ### The invariant (R22, R30, R31, R33, R34, R40, R215, R216, R240) -/

/-- Settles O56, by evaluation of each clause at the reset state. -/
theorem resetMeetsInvariant : Obligations.ResetMeetsInvariant :=
  ⟨⟨rfl, Nat.zero_le _, rfl, rfl⟩, .inl rfl, .inl rfl, fun _ _ h => (Option.some_ne_none _ h.symm).elim,
    fun _ => rfl, fun h => RunState.noConfusion h, fun h => RunState.noConfusion h⟩

section
variable {s : State}

theorem inv_setReg (h : s.Inv) (r : Reg) (v : Word) : (s.setReg r v).Inv := by
  obtain ⟨⟨hmem, hlimit, hzero, hmod⟩, hrest⟩ := h
  exact ⟨⟨hmem, hlimit, (putReg_slot_zero s.regs r v).trans hzero, hmod⟩, hrest⟩

theorem inv_memWrite {t : State} {a : Int} {v : Word} (h : s.Inv) (hw : s.memWrite a v = some t) : t.Inv := by
  obtain ⟨⟨hmem, hlimit, hzero, hmod⟩, hrest⟩ := h
  obtain ⟨ha, rfl⟩ := (memWrite_eq_some_iff _ _ _ _).mp hw
  have hlt : a.toNat < 256 := by omega
  exact ⟨⟨wf_memPut hmem hlt v, hlimit, hzero, risingFrom_addAddress hmod (Nat.zero_le _) hlt⟩, hrest⟩

theorem Writes.inv {as : List Access} {u : State} (h : Writes as s u) (hs : s.Inv) : u.Inv := by
  induction h with
  | refl => exact hs
  | setReg _ _ v ih => exact inv_setReg ih _ v
  | store _ _ hw ih => exact inv_memWrite ih hw

/-- A stop keeps the invariant if its report fits. -/
theorem inv_stop (h : s.Inv) {rs : RunState} {r : StopReason} {ids : List BpId} (hids : (s.stop rs r ids).StopIdsInv)
    (hrep : (s.stop rs r ids).ReportInv) : (s.stop rs r ids).Inv := by
  obtain ⟨hstore, -, hexc, hlatch, -⟩ := h
  exact ⟨hstore, hids, hexc, hlatch, hrep⟩

theorem code_range (k : ExcKind) : k.code ≠ 0 ∧ k.code ≠ 7 := by
  cases k <;> decide

/-- A fatal exception keeps the invariant if a kind without an address gives 0 (R34, R214). -/
theorem inv_takeFatal (h : s.Inv) (k : ExcKind) {addr : Word} (ha : k.code = 1 ∨ k.code = 6 → addr = 0) :
    (s.takeFatal k addr).Inv := by
  obtain ⟨hstore, -, -, hlatch, -⟩ := h
  obtain ⟨hne0, hne7⟩ := code_range k
  refine ⟨hstore, ?_, .inr ⟨rfl, hne0, hne7, ha⟩, hlatch, ?_⟩
  · cases he : s.excEn.get k <;> simp [State.StopIdsInv, fatalReason, fatalIds, he]
  · cases he : s.excEn.get k <;> simp [State.ReportInv, fatalReason, he]

theorem segmentKind_maskable (d : Direction) : (segmentKind d).maskable = true := by
  cases d <;> rfl

theorem segmentKind_code (d : Direction) : ¬ ((segmentKind d).code = 1 ∨ (segmentKind d).code = 6) := by
  cases d <;> decide

/-- A maskable exception keeps the invariant (R215, R216). -/
theorem inv_takeMaskable (h : s.Inv) (d : Direction) (addr : Word) (id : BpId) :
    (s.takeMaskable (segmentKind d) addr id).Inv := by
  obtain ⟨hstore, -, -, -, -⟩ := h
  obtain ⟨hne0, hne7⟩ := code_range (segmentKind d)
  refine ⟨hstore, .inr (.inr (.inr rfl)), .inr ⟨rfl, hne0, hne7, ?_⟩, ?_, ?_⟩
  · exact fun hk => (segmentKind_code d hk).elim
  · intro k p hk
    cases hk
    exact segmentKind_maskable d
  · simp [State.ReportInv]

/-- The end of a cycle keeps the invariant: the latch is kept or emptied, the stop report kept or `step` (R209). -/
theorem inv_retire (h : s.Inv) (m : Mnemonic) (target : Word) : (s.retire m target).Inv := by
  obtain ⟨hstore, hids, hexc, hlatch, hrep⟩ := h
  refine ⟨hstore, ?_, hexc, ?_, ?_⟩
  · cases hs : s.stepStops m
    · simpa [State.StopIdsInv, hs] using hids
    · simp [State.StopIdsInv, hs]
  · intro k p hk
    by_cases hp : target = s.pc
    · exact hlatch k p (by simpa [hp] using hk)
    · simp [hp] at hk
  · cases hs : s.stepStops m
    · simpa [State.ReportInv, hs] using hrep
    · simp [State.ReportInv, hs]

/-- A run state that shows no stop report keeps the invariant. -/
theorem inv_withRunState (h : s.Inv) {rs : RunState} (hready : rs ≠ .ready) (hpaused : rs ≠ .paused)
    (hhalted : rs ≠ .halted) : State.Inv { s with runState := rs } := by
  obtain ⟨hstore, hids, hexc, hlatch, -⟩ := h
  exact ⟨hstore, hids, hexc, hlatch, fun e => absurd e hready, fun e => absurd e hpaused, fun e => absurd e hhalted⟩

theorem inv_answerRead (h : s.Inv) (x : Reg) (answer : InputAnswer) : (answerRead s x answer).Inv := by
  cases answer with
  | integer v => exact inv_retire (inv_setReg (inv_withRunState h (by simp) (by simp) (by simp)) x (u16 v)) _ _
  | endOfInput => exact inv_stop h (.inl rfl) (by simp [State.ReportInv])

/-- Every result of an instruction keeps the invariant. -/
theorem ExecResult.inv {i : Instr} {t : State} (h : ExecResult i s t) (hs : s.Inv) : t.Inv := by
  cases h with
  | fatal k addr hk =>
    rcases hk with rfl | ⟨rfl, rfl⟩
    · exact inv_takeFatal hs _ fun hc => absurd hc (by decide)
    · exact inv_takeFatal hs _ fun _ => rfl
  | maskable d addr id => exact inv_takeMaskable hs d addr id
  | watched ids => exact inv_stop hs (.inr (.inr (.inl rfl))) (by simp [State.ReportInv])
  | halted => exact inv_stop hs (.inl rfl) (by simp [State.ReportInv])
  | waiting x => exact inv_withRunState hs (by simp) (by simp) (by simp)
  | answered x _ answer rest _ => exact inv_answerRead (s := { s with hostQ := rest }) hs x answer
  | emitted v target => exact inv_retire (s := s.emit (.value v)) hs .write target
  | retired hw m target => exact inv_retire (hw.inv hs) m target

/-- Every result of a cycle keeps the invariant. -/
theorem CycleResult.inv {t : State} (h : CycleResult s t) (hs : s.Inv) : t.Inv := by
  cases h with
  | pause => exact inv_stop (s := { s with pauseReq := false }) hs (.inl rfl) (by simp [State.ReportInv])
  | fetchBound => exact inv_takeFatal hs _ fun hc => absurd hc (by decide)
  | breakpoint => exact inv_stop hs (.inr (.inl rfl)) (by simp [State.ReportInv])
  | fetchWatched ids => exact inv_stop hs (.inr (.inr (.inl rfl))) (by simp [State.ReportInv])
  | undecoded => exact inv_takeFatal hs _ fun _ => rfl
  | executed h => exact h.inv hs

theorem length_of_programOf {mode : ConfigMode} {source : List Char} {ws : List Word}
    (h : programOf mode source = .ok ws) : ws.length ≤ 256 := by
  unfold programOf at h
  split at h
  · cases h
  · split at h
    · cases h
    · cases h
      exact Nat.le_of_not_lt (by assumption)

theorem wf_bootMemory (ws : List Word) (m : Memory) : (bootMemory ws m).wf = true :=
  wf_memTabulate _ Config.memWords (le_refl _) [] rfl

theorem bootRegs_zero (initRegs : Vector Word 15) : (bootRegs initRegs)[0] = 0 := by
  simp only [bootRegs]
  rw [Vector.getElem_append_left (by decide)]
  rfl

/-- The storage a `configure` loads is canonical, and the host's plan is no part of the invariant (R251, R252). -/
theorem inv_bootState {ws : List Word} (h : ws.length ≤ 256) (launch : Launch) (q : List HostEvent) :
    State.Inv { bootState ws launch with hostQ := q } := by
  obtain ⟨-, hrest⟩ := resetMeetsInvariant
  refine ⟨⟨?_, h, bootRegs_zero launch.initRegs, rfl⟩, hrest⟩
  simp only [bootState, wf_bootMemory]

/-- A `configure` keeps the invariant: it loads at most 256 words, or only sets the mark of a rejection (R250 to
R252). -/
theorem inv_configure (h : s.Inv) (mode : ConfigMode) (source : List Char) (launch : Launch) :
    (s.configure mode source launch).Inv := by
  unfold State.configure
  split
  · exact inv_bootState (length_of_programOf (by assumption)) launch s.hostQ
  · exact h

/-- Every result of a host operation keeps the invariant. -/
theorem HostResult.inv {o : HostOp} {t : State} (h : HostResult s o t) (hs : s.Inv) : t.Inv := by
  cases h with
  | configured mode source launch => exact inv_configure hs mode source launch
  | continued | stepped => exact inv_withRunState hs (by simp) (by simp) (by simp)
  | moved address =>
    obtain ⟨hstore, -, hexc, -, -⟩ := hs
    exact ⟨hstore, .inl rfl, hexc, fun _ _ hk => (Option.some_ne_none _ hk.symm).elim, by simp [State.ReportInv]⟩
  | answered _ answer => exact inv_answerRead hs _ answer
  | set => exact hs

end

/-- Settles O57: every result of a step keeps the invariant, and the host's plan is no part of it. -/
theorem stepKeepsInvariant : Obligations.StepKeepsInvariant := by
  intro s t hs h
  rcases step_next h with ⟨q, rfl | ⟨-, hc⟩⟩ | ⟨o, rest, -, ho⟩
  · exact hs
  · exact hc.inv hs
  · exact ho.inv hs

end Sys2Proof.Proofs
end

section
/-! SUPPORT. The statements of spec/20_memory.md: the memory port, the fetch of the word at `pc`, and that no step
reaches the port outside memory. -/

namespace Sys2Proof.Proofs

open Sys2Proof Sys2Proof.Machine

/-! ### The memory port (R50, R62) -/

theorem memRead_of_outside {a : Int} (h : ¬ (0 ≤ a ∧ a ≤ 255)) (s : State) : s.memRead a = none :=
  if_neg (mt (isMemoryAddress_iff a).mp h)

theorem memWrite_of_outside {a : Int} (h : ¬ (0 ≤ a ∧ a ≤ 255)) (s : State) (v : Word) : s.memWrite a v = none :=
  if_neg (mt (isMemoryAddress_iff a).mp h)

/-- A write that succeeds stores its word and keeps memory canonical. -/
theorem storedAt_of_memWrite {s t : State} {a : Int} {v : Word} (hwf : s.mem.wf = true)
    (hw : s.memWrite a v = some t) : StoredAt a v s t ∧ t.mem.wf = true := by
  obtain ⟨ha, rfl⟩ := (memWrite_eq_some_iff _ _ _ _).mp hw
  exact ⟨storedAt_memPut hwf ha v, wf_memPut hwf (by omega) v⟩

/-- Settles O17: inside memory by the law of a write, outside by the bound of the port. -/
theorem memoryPortReadsWhatWasWritten : Obligations.MemoryPortReadsWhatWasWritten := by
  intro s a v hwf
  constructor
  · intro ha
    have hw := (memWrite_eq_some_iff s _ a v).mpr ⟨ha, rfl⟩
    exact ⟨_, hw, storedAt_of_memWrite hwf hw⟩
  · exact fun ha => ⟨memRead_of_outside ha s, memWrite_of_outside ha s v⟩

/-! ### The fetch (R64, R69, R209) -/

theorem instrBpIds_eq_nil_iff (s : State) : instrBpIds s = [] ↔ ∀ e ∈ s.ibp, e.addr ≠ s.pc.toNat := by
  simp [instrBpIds]

/-- A cycle that passes steps 1 to 3 is its fetch (R209). -/
theorem cycle_of_reachesFetch {s : State} (h : ReachesFetch s) : cycle s = fetchAndExec s := by
  obtain ⟨hpause, hlimit, hbp⟩ := h
  rw [← instrBpIds_eq_nil_iff] at hbp
  rcases cycle_cases s with ⟨hp, -⟩ | ⟨-, hl, -⟩ | ⟨-, -, hne, hs, -⟩ | ⟨-, -, -, hc⟩
  · simp [hpause] at hp
  · omega
  · simp [hne, hs] at hbp
  · exact hc

theorem fetchAndExec_of_decode {s : State} {w : Word} {i : Instr} (hm : s.memRead (s.pc.toNat : Int) = some w)
    (hd : decode w = .ok i) : fetchAndExec s = exec i s := by
  simp [fetchAndExec, hm, hd]

/-- A cycle that reaches its fetch runs the instruction that the word at `pc` decodes to. -/
theorem cycle_eq_exec {s : State} {w : Word} {i : Instr} (hf : ReachesFetch s)
    (hm : s.memRead (s.pc.toNat : Int) = some w) (hd : decode w = .ok i) : cycle s = exec i s :=
  (cycle_of_reachesFetch hf).trans (fetchAndExec_of_decode hm hd)

theorem step_of_tick {s : State} {rest : List HostEvent} (h : s.hostQ = .tick :: rest) :
    step s = coreTurn { s with hostQ := rest } := by
  simp [step, turn, h]

theorem coreTurn_of_running {s : State} (hr : s.runState = .running) (hj : s.rejected = false) :
    coreTurn s = cycle s := by
  simp [coreTurn, hr, hj]

/-- Settles O41: the step is a cycle that reaches its fetch, of the state itself or of the state after the tick. -/
theorem stepRunsDecodedInstruction : Obligations.StepRunsDecodedInstruction := by
  constructor
  · intro s w i ht hf hm hd
    exact (step_of_takesCycle ht).trans (cycle_eq_exec hf hm hd)
  · intro s rest w i hq hr hj hf hm hd
    calc step s = coreTurn { s with hostQ := rest } := step_of_tick hq
      _ = cycle { s with hostQ := rest } := coreTurn_of_running hr hj
      _ = exec i { s with hostQ := rest } := cycle_eq_exec hf hm hd

/-- Settles O19: the port reads the stored word back, so it is the word that the next step runs. -/
theorem storedWordIsFetched : Obligations.StoredWordIsFetched := by
  rintro s t a v i hwf hw rfl ht hf hd
  obtain ⟨⟨-, hread, -, -⟩, -⟩ := storedAt_of_memWrite hwf hw
  exact stepRunsDecodedInstruction.1 t v i ht hf hread hd

/-! ### Every instruction answers a next state (R202, R212) -/

/-- With every access inside memory the effect of an instruction has a next state: the port answers wherever the effect
uses it, and no other effect can fail. -/
theorem effect_completes {i : Instr} {s : State} (h : InsideMemory i s) : ∃ t, effect i s = .next t := by
  have hread : ∀ a, readMem a ∈ accesses i s → 0 ≤ a ∧ a ≤ 255 := fun a ha => h _ ha rfl
  have hwrite : ∀ a, writeMem a ∈ accesses i s → 0 ≤ a ∧ a ≤ 255 := fun a ha => h _ ha rfl
  cases i with
  | loadn _ _ | loadr _ _ | popr _ _ => exact ⟨_, withRead_of_mem (hread _ (by simp [accesses])) _⟩
  | storen _ _ | storer _ _ | pushr _ _ => exact ⟨_, withWrite_of_mem (hwrite _ (by simp [accesses])) _ _⟩
  | _ => exact ⟨_, rfl⟩

/-- Step 4 stops every access outside memory before the effect uses the port, so no instruction faults or is refused. -/
theorem exec_completes (i : Instr) (s : State) : ∃ t, exec i s = .next t := by
  rcases exec_cases i s with ⟨_, -, -, he⟩ | ⟨_, -, _, -, -, he⟩ | ⟨-, -, _, _, -, he⟩ | ⟨⟨hinside, -⟩, he⟩
  · exact ⟨_, he⟩
  · exact ⟨_, he⟩
  · exact ⟨_, he⟩
  · exact he ▸ effect_completes hinside

/-! ### No fault of a cycle (R62, R64) -/

/-- The outcome is no fault. -/
def Faultless (o : Host.Outcome State Fault Refusal) : Prop := ∀ f, o ≠ .fault f

theorem faultless_next (t : State) : Faultless (.next t) := nofun

theorem faultless_refused (r : Refusal) : Faultless (.refused r) := nofun

theorem faultless_exec (i : Instr) (s : State) : Faultless (exec i s) := by
  obtain ⟨t, ht⟩ := exec_completes i s
  exact ht ▸ faultless_next t

theorem faultless_undecoded (s : State) (w : Word) (e : DecodeError) : Faultless (undecoded s w e) := by
  unfold undecoded
  split
  · exact faultless_next _
  · cases e with
    | noMatch | numericThirdSlot => exact faultless_next _
    | equalMaskTie => exact faultless_refused _

/-- A fetch at a memory address does not fault (R62, R64). -/
theorem faultless_fetchAndExec {s : State} (h : s.pc.toNat < 256) : Faultless (fetchAndExec s) := by
  rcases fetchAndExec_cases s with ⟨hm, -⟩ | ⟨w, -, ⟨i, -, he⟩ | ⟨e, -, he⟩⟩
  · have hread := (memRead_eq_some_iff s (s.pc.toNat : Int) _).mpr ⟨by omega, rfl⟩
    exact (Option.some_ne_none _ (hread.symm.trans hm)).elim
  · exact he ▸ faultless_exec i s
  · exact he ▸ faultless_undecoded s w e

/-- The fetch bound keeps `pc` inside memory where CODE_LIMIT is at most 256 (R205, R209 step 2). -/
theorem faultless_cycle {s : State} (h : s.codeLimit ≤ 256) : Faultless (cycle s) := by
  rcases cycle_cases s with ⟨-, hc⟩ | ⟨-, -, hc⟩ | ⟨-, -, -, -, hc⟩ | ⟨-, hpc, -, hc⟩
  · exact hc ▸ faultless_next _
  · exact hc ▸ faultless_next _
  · exact hc ▸ faultless_next _
  · exact hc ▸ faultless_fetchAndExec (hpc.trans_le h)

theorem faultless_coreTurn {s : State} (h : s.codeLimit ≤ 256) : Faultless (coreTurn s) := by
  rcases coreTurn_cases s with ⟨-, -, hc⟩ | ⟨-, -, hc⟩ | ⟨-, hc⟩
  · exact hc ▸ faultless_cycle h
  · exact hc ▸ faultless_refused _
  · exact hc ▸ faultless_next _

/-! ### No fault of a host operation (R254, R255) -/

theorem faultless_whenReadyOrPaused (s : State) {k : Host.Outcome State Fault Refusal} (hk : Faultless k) :
    Faultless (whenReadyOrPaused s k) := by
  unfold whenReadyOrPaused
  split
  · exact hk
  · exact faultless_refused _

theorem faultless_resumeUnlessRejected (s : State) : Faultless (resumeUnlessRejected s) := by
  unfold resumeUnlessRejected
  split
  · exact faultless_refused _
  · exact faultless_next _

theorem faultless_landWhere (s : State) (agreed : Bool) {k : Host.Outcome State Fault Refusal} (hk : Faultless k) :
    Faultless (landWhere s agreed k) := by
  rcases landWhere_cases s agreed k with hl | ⟨-, hl⟩
  · exact hl ▸ faultless_refused _
  · rwa [hl]

theorem faultless_supplyAnswer (s : State) (answer : InputAnswer) : Faultless (supplyAnswer s answer) := by
  rcases supplyAnswer_cases s answer with ⟨_, -, -, ha⟩ | ⟨_, -, -, ha⟩ | ⟨-, ha⟩
  · exact ha ▸ faultless_next _
  · exact ha ▸ faultless_refused _
  · exact ha ▸ faultless_refused _

/-- A host operation uses no memory port, so it does not fault. -/
theorem faultless_applyHostOp (o : HostOp) (s : State) : Faultless (applyHostOp o s) := by
  match o with
  | .pause => exact faultless_next _
  | .supply answer => exact faultless_supplyAnswer s answer
  | .goto _ => exact faultless_whenReadyOrPaused s (faultless_next _)
  | .continue | .step _ => exact faultless_whenReadyOrPaused s (faultless_resumeUnlessRejected _)
  | .configure _ _ _ | .setInstrBp _ | .clearInstrBps | .setDataBp _ | .clearDataBps | .setExcBps _ | .getState
  | .getLastException => exact faultless_landWhere s _ (faultless_next _)

/-- Settles O58: a step is the core's turn, with the host's plan as it was or shorter, or a host operation. -/
theorem noStepFaults : Obligations.NoStepFaults := by
  intro s f h
  rcases step_cases s with ⟨hs, -⟩ | ⟨rest, -, hs⟩ | ⟨o, rest, -, -, hs⟩
  · exact hs ▸ faultless_coreTurn h f
  · exact hs ▸ faultless_coreTurn (s := { s with hostQ := rest }) h f
  · exact hs ▸ faultless_applyHostOp o _ f

end Sys2Proof.Proofs
end

section
/-! SUPPORT. The decoder of spec/30_encoding.md: which definition a word selects in a table, and which words two rows of
the opcode table share. -/

namespace Sys2Proof.Proofs

open Sys2Proof Sys2Proof.Machine

/-! ### Matching (R85) -/

theorem masked_xor_eq_zero_iff (a b m : Word) : (a ^^^ b) &&& m = 0 ↔ a &&& m = b &&& m := by
  have hdistrib : (a ^^^ b) &&& m = (a &&& m) ^^^ (b &&& m) := by
    ext i
    simp [Bool.and_xor_distrib_right]
  rw [hdistrib]
  exact BitVec.xor_eq_zero_iff

/-- The definition matches exactly when the word agrees with its template on the mask. -/
theorem matchesWord_iff (d : InstrDef) (w : Word) : d.matchesWord w = true ↔ d.opcode &&& d.mask = w &&& d.mask := by
  simp only [InstrDef.matchesWord, decide_eq_true_eq, masked_xor_eq_zero_iff]

/-! ### The largest matching mask (R86) -/

theorem largestMask_le_iff (ds : List InstrDef) (n : Nat) : largestMask ds ≤ n ↔ ∀ d ∈ ds, d.mask.toNat ≤ n := by
  induction ds with
  | nil => simp [largestMask]
  | cons d ds ih =>
    rw [List.forall_mem_cons, ← ih]
    exact max_le_iff

theorem exists_mask_eq_largestMask {ds : List InstrDef} (h : ds ≠ []) : ∃ d ∈ ds, d.mask.toNat = largestMask ds := by
  induction ds with
  | nil => exact absurd rfl h
  | cons d ds ih =>
    have hcons : largestMask (d :: ds) = max d.mask.toNat (largestMask ds) := rfl
    rcases le_total (largestMask ds) d.mask.toNat with hle | hle
    · exact ⟨d, List.mem_cons_self .., by rw [hcons, max_eq_left hle]⟩
    · rcases eq_or_ne ds [] with rfl | hne
      · exact ⟨d, List.mem_cons_self .., by simp [largestMask]⟩
      · obtain ⟨e, he, hm⟩ := ih hne
        exact ⟨e, List.mem_cons_of_mem _ he, by rw [hcons, max_eq_right hle, hm]⟩

/-- A definition of the table that matches the word, and no matching definition has a larger mask (R85, R86). -/
def BestMatch (table : List InstrDef) (w : Word) (d : InstrDef) : Prop :=
  d ∈ table ∧ d.matchesWord w = true ∧ ∀ e ∈ table, e.matchesWord w = true → e.mask.toNat ≤ d.mask.toNat

/-- The definitions among which `selectDef` decides are the best matches. -/
theorem mem_largest_iff (table : List InstrDef) (w : Word) (d : InstrDef) :
    d ∈ (matching table w).filter (fun d => d.mask.toNat == largestMask (matching table w)) ↔ BestMatch table w d := by
  have hmem : ∀ e, e ∈ matching table w ↔ e ∈ table ∧ e.matchesWord w = true := fun e => List.mem_filter
  have hle := largestMask_le_iff (matching table w)
  simp only [List.mem_filter (p := fun d : InstrDef => _ == _), beq_iff_eq, BestMatch, hmem, and_assoc]
  refine and_congr_right fun hd => and_congr_right fun hw => ?_
  constructor
  · exact fun h e he hm => (hle _).mp h.ge e ((hmem e).mpr ⟨he, hm⟩)
  · intro h
    exact le_antisymm ((hle _).mp le_rfl d ((hmem d).mpr ⟨hd, hw⟩))
      ((hle _).mpr fun e he => h e ((hmem e).mp he).1 ((hmem e).mp he).2)

/-- Every selection is the best match, the rejection of a word that nothing matches, or a tie of two best matches
(R86 to R88). -/
theorem selectDef_cases {table : List InstrDef} (hn : table.Nodup) (w : Word) :
    (∃ d, selectDef table w = .ok d ∧ BestMatch table w d) ∨
    (selectDef table w = .error .noMatch ∧ ∀ d ∈ table, d.matchesWord w = false) ∨
    (∃ d e, BestMatch table w d ∧ BestMatch table w e ∧ d ≠ e) := by
  have hmem := mem_largest_iff table w
  have hnodup := (hn.filter (·.matchesWord w)).filter
    (fun d => d.mask.toNat == largestMask (matching table w))
  unfold selectDef
  change ((matching table w).filter _).Nodup at hnodup
  generalize hbest : (matching table w).filter _ = best at hmem hnodup ⊢
  match best with
  | [d] => exact .inl ⟨d, rfl, (hmem d).mp (List.mem_singleton_self d)⟩
  | d :: e :: _ =>
    refine .inr (.inr ⟨d, e, (hmem d).mp (by simp), (hmem e).mp (by simp), ?_⟩)
    exact fun h => (List.nodup_cons.mp hnodup).1 (h ▸ List.mem_cons_self ..)
  | [] =>
    refine .inr (.inl ⟨rfl, fun d hd => Bool.eq_false_iff.mpr fun hw => ?_⟩)
    have hne : matching table w ≠ [] := List.ne_nil_of_mem (List.mem_filter.mpr ⟨hd, hw⟩)
    obtain ⟨e, he, hmask⟩ := exists_mask_eq_largestMask hne
    exact List.filter_eq_nil_iff.mp hbest e he (beq_iff_eq.mpr hmask)

/-! ### The opcode table (R95) -/

theorem mnemonic_mem_all (m : Mnemonic) : m ∈ Mnemonic.all := by
  cases m <;> decide

theorem mem_opcodeTable_iff (d : InstrDef) : d ∈ opcodeTable ↔ ∃ m, defOf m = d := by
  simp [opcodeTable, mnemonic_mem_all]

theorem nodup_opcodeTable : opcodeTable.Nodup := by decide

theorem slotsOk_defOf (m : Mnemonic) : (defOf m).slotsOk = true := by
  cases m <;> rfl

theorem slot3_numeric_defOf (m : Mnemonic) : (defOf m).slot3.numeric = false := by
  cases m <;> rfl

theorem defOf_name (m : Mnemonic) : (defOf m).name = m := by
  cases m <;> rfl

/-- The operand bits of every template are 0 (R81). -/
theorem opcode_and_mask (m : Mnemonic) : (defOf m).opcode &&& (defOf m).mask = (defOf m).opcode := by
  cases m <;> decide

theorem mnemonic_instrOf (m : Mnemonic) (x y z : Reg) (n : Int) : (instrOf m x y z n).mnemonic = m := by
  cases m <;> rfl

/-- The pairs of rows that share words, the more specific one second (R96, C2, C3). -/
def sharedRows : List (Mnemonic × Mnemonic) :=
  [(.copy, .nop), (.add, .nop), (.add, .copy), (.sub, .neg), (.calln, .jumpn)]

theorem mask_lt_of_sharedRows {m e : Mnemonic} (h : (m, e) ∈ sharedRows) :
    (defOf m).mask.toNat < (defOf e).mask.toNat := by
  have hall : ∀ p ∈ sharedRows, (defOf p.1).mask.toNat < (defOf p.2).mask.toNat := by decide
  exact hall (m, e) h

/-- Two templates that agree where both masks are set belong to one row or to a pair of `sharedRows`. -/
theorem sharedRows_of_templates_agree (m e : Mnemonic)
    (hagree : (defOf m).opcode &&& (defOf e).mask = (defOf e).opcode &&& (defOf m).mask)
    (hle : (defOf m).mask.toNat ≤ (defOf e).mask.toNat) : e = m ∨ (m, e) ∈ sharedRows := by
  have hall : ∀ m ∈ Mnemonic.all, ∀ e ∈ Mnemonic.all,
      (defOf m).opcode &&& (defOf e).mask = (defOf e).opcode &&& (defOf m).mask →
      (defOf m).mask.toNat ≤ (defOf e).mask.toNat → e = m ∨ (m, e) ∈ sharedRows := by decide
  exact hall m (mnemonic_mem_all m) e (mnemonic_mem_all e) hagree hle

/-- Two rows that match one word are the same or a pair of `sharedRows`. -/
theorem sharedRows_of_matchesWord {m e : Mnemonic} {w : Word} (hm : (defOf m).matchesWord w = true)
    (he : (defOf e).matchesWord w = true) (hle : (defOf m).mask.toNat ≤ (defOf e).mask.toNat) :
    e = m ∨ (m, e) ∈ sharedRows := by
  rw [matchesWord_iff, opcode_and_mask] at hm he
  refine sharedRows_of_templates_agree m e ?_ hle
  rw [hm, he, BitVec.and_assoc, BitVec.and_assoc, BitVec.and_comm (defOf m).mask]

theorem eq_of_matchesWord_of_mask_eq {m e : Mnemonic} {w : Word} (hm : (defOf m).matchesWord w = true)
    (he : (defOf e).matchesWord w = true) (hmask : (defOf m).mask = (defOf e).mask) : m = e := by
  rcases sharedRows_of_matchesWord hm he (by rw [hmask]) with h | h
  · exact h.symm
  · exact absurd (mask_lt_of_sharedRows h) (by rw [hmask]; exact lt_irrefl _)

theorem BestMatch.unique {w : Word} {d e : InstrDef} (hd : BestMatch opcodeTable w d)
    (he : BestMatch opcodeTable w e) : d = e := by
  obtain ⟨hdt, hdw, hdmax⟩ := hd
  obtain ⟨het, hew, hemax⟩ := he
  have hmask : d.mask = e.mask := BitVec.eq_of_toNat_eq (le_antisymm (hemax d hdt hdw) (hdmax e het hew))
  obtain ⟨m, rfl⟩ := (mem_opcodeTable_iff d).mp hdt
  obtain ⟨m', rfl⟩ := (mem_opcodeTable_iff e).mp het
  exact congrArg defOf (eq_of_matchesWord_of_mask_eq hdw hew hmask)

/-! ### Decoding (R86 to R92) -/

/-- Every word decodes by its best match, or no row matches it (R86, R88). -/
theorem decode_cases (w : Word) :
    (∃ m, decode w = .ok (instrOf m (fieldX w) (fieldY w) (fieldZ w) ((defOf m).number w)) ∧
      BestMatch opcodeTable w (defOf m)) ∨
    (decode w = .error .noMatch ∧ ∀ m, (defOf m).matchesWord w = false) := by
  rcases selectDef_cases nodup_opcodeTable w with ⟨d, hs, hbest⟩ | ⟨hs, hno⟩ | ⟨d, e, hd, he, hne⟩
  · obtain ⟨m, rfl⟩ := (mem_opcodeTable_iff d).mp hbest.1
    exact .inl ⟨m, by simp [decode, decodeWith, hs, slot3_numeric_defOf, defOf_name], hbest⟩
  · exact .inr ⟨by simp [decode, decodeWith, hs], fun m => hno _ ((mem_opcodeTable_iff _).mpr ⟨m, rfl⟩)⟩
  · exact absurd (hd.unique he) hne

/-- What a decoded word tells of its instruction. -/
theorem decode_ok {w : Word} {i : Instr} (h : decode w = .ok i) :
    i = instrOf i.mnemonic (fieldX w) (fieldY w) (fieldZ w) ((defOf i.mnemonic).number w) ∧
      BestMatch opcodeTable w (defOf i.mnemonic) := by
  rcases decode_cases w with ⟨m, hd, hbest⟩ | ⟨hd, -⟩
  · obtain rfl := Except.ok.inj (h.symm.trans hd)
    rw [mnemonic_instrOf]
    exact ⟨rfl, hbest⟩
  · cases h.symm.trans hd

/-- A word is rejected by the one name `noMatch`, exactly where no row matches (R88). -/
theorem decode_error_iff (w : Word) (e : DecodeError) :
    decode w = .error e ↔ e = .noMatch ∧ ∀ m, (defOf m).matchesWord w = false := by
  rcases decode_cases w with ⟨m, hd, -, hw, -⟩ | ⟨hd, hno⟩
  · simp only [hd, reduceCtorEq, false_iff, not_and, not_forall]
    exact fun _ => ⟨m, by simp [hw]⟩
  · simp [hd, hno, eq_comm]

/-- Settles O1, by evaluation of the decoder on nine closed words. -/
theorem sampleWordsDecode : Obligations.SampleWordsDecode := by
  refine ⟨?_, ?_, ?_, ?_, ?_, ?_, ?_, ?_, ?_⟩ <;> decide

/-- Settles O2: the masks by evaluation of the closed table, the slot invariant row by row. -/
theorem derivedMasksOfTheTable : Obligations.DerivedMasksOfTheTable := by
  refine ⟨by decide, fun d hd => ?_⟩
  obtain ⟨m, rfl⟩ := (mem_opcodeTable_iff d).mp hd
  exact slotsOk_defOf m

/-- Settles O3: the decoder answers by the best match, and rejects only what no row matches. -/
theorem decoderSelectsLargestMask : Obligations.DecoderSelectsLargestMask := by
  have hmatch : ∀ (d : InstrDef) (w : Word), (d.opcode ^^^ w) &&& d.mask = 0 ↔ d.matchesWord w = true :=
    fun d w => decide_eq_true_iff.symm
  intro w
  simp only [ne_eq, hmatch]
  constructor
  · intro i h
    obtain ⟨-, -, hw, hmax⟩ := decode_ok h
    exact ⟨hw, hmax⟩
  · intro e h d hd
    obtain ⟨m, rfl⟩ := (mem_opcodeTable_iff d).mp hd
    simp [((decode_error_iff w e).mp h).2 m]

/-- Settles O4: rows that share a word have different masks, so no decoding is a tie. -/
theorem noEqualMaskTie : Obligations.NoEqualMaskTie := by
  constructor
  · intro w d e hd he hdw hew hmask
    obtain ⟨m, rfl⟩ := (mem_opcodeTable_iff d).mp hd
    obtain ⟨m', rfl⟩ := (mem_opcodeTable_iff e).mp he
    exact congrArg defOf (eq_of_matchesWord_of_mask_eq hdw hew hmask)
  · exact fun w h => by cases ((decode_error_iff w _).mp h).1

end Sys2Proof.Proofs
end

section
/-! SUPPORT. The round trips of spec/30_encoding.md: the fields of a word in place, synonyms, the encoder after the
decoder and the decoder after the encoder, and the words that do not decode. -/

namespace Sys2Proof.Proofs

open Sys2Proof Sys2Proof.Machine

/-! ### The fields of a word in place (R83, R89, R94) -/

/-- A field put back in its place is the word with every other bit cleared. -/
theorem extractLsb'_place (w : Word) (start len : Nat) :
    (w.extractLsb' start len).setWidth 16 <<< start = w &&& ((BitVec.allOnes len).setWidth 16 <<< start) := by
  ext i hi
  grind

theorem ofNat_toFin (b : BitVec 4) : BitVec.ofNat 16 b.toFin.val = b.setWidth 16 :=
  BitVec.ofNat_toNat ..

theorem fieldX_place (w : Word) : BitVec.ofNat 16 (fieldX w).val <<< 8 = w &&& (0x0F00 : Word) := by
  rw [fieldX, ofNat_toFin]
  exact extractLsb'_place w 8 4

theorem fieldY_place (w : Word) : BitVec.ofNat 16 (fieldY w).val <<< 4 = w &&& (0x00F0 : Word) := by
  rw [fieldY, ofNat_toFin]
  exact extractLsb'_place w 4 4

theorem fieldZ_place (w : Word) : BitVec.ofNat 16 (fieldZ w).val = w &&& (0x000F : Word) := by
  rw [fieldZ, ofNat_toFin]
  simpa using extractLsb'_place w 0 4

theorem fieldN_place (w : Word) : (fieldN w).setWidth 16 = w &&& (0x00FF : Word) := by
  simpa [fieldN] using extractLsb'_place w 0 8

theorem shiftRight_twelve (w : Word) : w >>> 12 = (w.extractLsb' 12 4).setWidth 16 := by
  ext i hi
  grind

theorem topNibble_place (w : Word) : (w >>> 12) <<< 12 = w &&& (0xF000 : Word) := by
  rw [shiftRight_twelve]
  exact extractLsb'_place w 12 4

/-- The number of an instruction is stored as its 8-bit two's complement (R94, R105). -/
theorem u16_low_byte (n : Int) : u16 n &&& 0xFF = (BitVec.ofInt 8 n).setWidth 16 := by
  have hw := u16_toNat n
  have hb := BitVec.toNat_ofInt (n := 8) n
  have hlow : (u16 n &&& 0xFF).toNat = (u16 n).toNat % 256 := Nat.and_two_pow_sub_one_eq_mod _ 8
  apply BitVec.eq_of_toNat_eq
  rw [hlow, BitVec.toNat_setWidth]
  omega

theorem sext8_range (b : BitVec 8) : -128 ≤ sext8 b ∧ sext8 b ≤ 127 := by
  have := b.isLt
  unfold sext8
  split <;> omega

theorem zext8_range (b : BitVec 8) : 0 ≤ zext8 b ∧ zext8 b ≤ 255 := by
  have := b.isLt
  unfold zext8
  omega

theorem ofInt_sext8 (b : BitVec 8) : BitVec.ofInt 8 (sext8 b) = b := by
  have := b.isLt
  apply BitVec.eq_of_toNat_eq
  rw [BitVec.toNat_ofInt]
  unfold sext8
  split <;> omega

theorem ofInt_zext8 (b : BitVec 8) : BitVec.ofInt 8 (zext8 b) = b := by
  simp [zext8]

theorem sext8_ofInt {n : Int} (h : -128 ≤ n ∧ n ≤ 127) : sext8 (BitVec.ofInt 8 n) = n := by
  have := BitVec.toNat_ofInt (n := 8) n
  unfold sext8
  split <;> omega

theorem zext8_ofInt {n : Int} (h : 0 ≤ n ∧ n ≤ 255) : zext8 (BitVec.ofInt 8 n) = n := by
  have := BitVec.toNat_ofInt (n := 8) n
  unfold zext8
  omega

/-- The number that a definition reads encodes to the low byte it was read from (R90, R94). -/
theorem u16_number_low_byte (d : InstrDef) (w : Word) : u16 (d.number w) &&& 0xFF = w &&& (0x00FF : Word) := by
  have hnum : BitVec.ofInt 8 (d.number w) = fieldN w := by
    unfold InstrDef.number
    split
    · exact ofInt_sext8 _
    · exact ofInt_zext8 _
  rw [u16_low_byte, hnum, fieldN_place]

/-! ### Encoding a decoded word (R94) -/

/-- The mask leaves free exactly the operand bits of the definition's slots (R82 to R84). -/
theorem not_mask {d : InstrDef} (h : d.slotsOk = true) :
    ~~~ d.mask = (if d.slot1 = .register then 0x0F00 else 0) ||| (if d.slot2 = .register then 0x00F0 else 0)
      ||| (if d.slot3 = .register then 0x000F else 0) ||| (if d.hasNumber then 0x00FF else 0) := by
  obtain ⟨name, opcode, slot1, slot2, slot3⟩ := d
  cases slot1 <;> cases slot2 <;> cases slot3 <;>
    simp [InstrDef.slotsOk, InstrDef.mask, InstrDef.hasNumber, Slot.numeric] at h ⊢

/-- Reading the operands of a word and encoding them again keeps every operand bit and takes the others from the
template (R84, R94). -/
theorem encodeWith_fields {d : InstrDef} (h : d.slotsOk = true) (w : Word) :
    encodeWith d (fieldX w) (fieldY w) (fieldZ w) (d.number w) = d.opcode ||| (w &&& ~~~ d.mask) := by
  have hite : ∀ (c : Prop) [Decidable c] (m : Word), w &&& (if c then m else 0) = if c then w &&& m else 0 := by
    intro c _ m
    split <;> simp
  unfold encodeWith
  rw [not_mask h, fieldX_place, fieldY_place, fieldZ_place, u16_number_low_byte]
  simp only [BitVec.and_or_distrib_left, hite, BitVec.or_assoc]

/-- A word that a row matches is the encoding of its own operands. -/
theorem encodeWith_fields_of_matchesWord {m : Mnemonic} {w : Word} (h : (defOf m).matchesWord w = true) :
    encodeWith (defOf m) (fieldX w) (fieldY w) (fieldZ w) ((defOf m).number w) = w := by
  rw [matchesWord_iff, opcode_and_mask] at h
  rw [encodeWith_fields (slotsOk_defOf m), h, ← BitVec.and_or_distrib_left, BitVec.or_not_self, BitVec.and_allOnes]

/-- The instruction that a row makes of operand values has the row's word with these values; the number comes from the
row's own reading, so an unsigned one is not negative (R90, R94). -/
theorem encode_instrOf (m : Mnemonic) (x y z : Reg) (w : Word) :
    encode (instrOf m x y z ((defOf m).number w)) = encodeWith (defOf m) x y z ((defOf m).number w) := by
  cases m <;> rfl

theorem wf_instrOf (m : Mnemonic) (x y z : Reg) (w : Word) : (instrOf m x y z ((defOf m).number w)).wf = true := by
  have hs := sext8_range (fieldN w)
  have hz := zext8_range (fieldN w)
  cases m <;> simp [instrOf, Instr.wf, defOf, InstrDef.number, signedInRange, unsignedInRange, hs, hz]

/-! ### Canonical readings (R96) -/

/-- The synonyms of R96: two instructions of one word, the more specific one second. -/
inductive Synonym : Instr → Instr → Prop where
  | nop_of_copy : Synonym (.copy 0 0) .nop
  | nop_of_add : Synonym (.add 0 0 0) .nop
  | copy_of_add (x y : Reg) : Synonym (.add x y 0) (.copy x y)
  | neg_of_sub (x z : Reg) : Synonym (.sub x 0 z) (.neg x z)
  | jumpn_of_calln (n : Nat) : Synonym (.calln 0 n) (.jumpn n)

/-- The canonical reading is the instruction itself or its synonym. -/
theorem canonical_cases (i : Instr) : i.canonical = i ∨ Synonym i i.canonical := by
  cases i with
  | copy x y =>
    by_cases h : x = 0 ∧ y = 0
    · obtain ⟨rfl, rfl⟩ := h
      exact .inr .nop_of_copy
    · exact .inl (if_neg h)
  | add x y z =>
    by_cases hz : z = 0
    · subst hz
      by_cases h : x = 0 ∧ y = 0
      · obtain ⟨rfl, rfl⟩ := h
        exact .inr .nop_of_add
      · exact .inr (by simpa [Instr.canonical, h] using Synonym.copy_of_add x y)
    · exact .inl (if_neg hz)
  | sub x y z =>
    by_cases h : y = 0
    · subst h
      exact .inr (.neg_of_sub x z)
    · exact .inl (if_neg h)
  | calln x n =>
    by_cases h : x = 0
    · subst h
      exact .inr (.jumpn_of_calln n)
    · exact .inl (if_neg h)
  | _ => exact .inl rfl

theorem Synonym.encode_eq {i j : Instr} (h : Synonym i j) : encode j = encode i := by
  cases h <;> simp [encode, encodeWith, defOf, InstrDef.hasNumber, Slot.numeric]

theorem Synonym.wf {i j : Instr} (h : Synonym i j) (hi : i.wf = true) : j.wf = true := by
  cases h with
  | jumpn_of_calln n => exact hi
  | _ => rfl

theorem Synonym.mem_sharedRows {i j : Instr} (h : Synonym i j) : (i.mnemonic, j.mnemonic) ∈ sharedRows := by
  cases h <;> simp [Instr.mnemonic, sharedRows]

/-- Synonyms have one word (R96). -/
theorem encode_canonical (i : Instr) : encode i.canonical = encode i :=
  (canonical_cases i).elim (congrArg encode) Synonym.encode_eq

theorem wf_canonical {i : Instr} (h : i.wf = true) : i.canonical.wf = true :=
  (canonical_cases i).elim (fun hc => hc.symm ▸ h) (fun hs => hs.wf h)

theorem matchesWord_encodeWith_defOf (m : Mnemonic) (x y z : Reg) (n : Int) :
    (defOf m).matchesWord (encodeWith (defOf m) x y z n) = true := by
  cases m <;> exact Laws.matchesWord_encodeWith _ _ _ _ _ (by decide) (by decide) (by decide) (by decide)

/-- The row of an instruction matches the instruction's word (R85, R94). -/
theorem matchesWord_encode (i : Instr) : (defOf i.mnemonic).matchesWord (encode i) = true := by
  cases i <;> exact matchesWord_encodeWith_defOf _ _ _ _ _

/-- Settles O7: the best match reads back the operands it matched; were its reading not canonical, the more specific row
would match too. -/
theorem encodeOfDecode : Obligations.EncodeOfDecode := by
  intro w i h
  obtain ⟨hi, -, hw, hmax⟩ := decode_ok h
  have henc : encode i = w := by
    rw [hi, encode_instrOf]
    exact encodeWith_fields_of_matchesWord hw
  refine ⟨henc, hi ▸ wf_instrOf .., (canonical_cases i).resolve_right fun hs => ?_⟩
  have hcanon := matchesWord_encode i.canonical
  rw [encode_canonical, henc] at hcanon
  exact absurd (hmax _ ((mem_opcodeTable_iff _).mpr ⟨_, rfl⟩) hcanon) (mask_lt_of_sharedRows hs.mem_sharedRows).not_ge

/-! ### Decoding an encoded instruction (R94, R96, R112) -/

/-- The number is in the range of the definition's numeric slot; without one, in both ranges (R90, R104). -/
def NumberFits (d : InstrDef) (n : Int) : Prop :=
  if d.slot1 = .signed8 ∨ d.slot2 = .signed8 ∨ d.slot3 = .signed8 then -128 ≤ n ∧ n ≤ 127 else 0 ≤ n ∧ n ≤ 255

theorem numberFits_zero (d : InstrDef) : NumberFits d 0 := by
  unfold NumberFits
  split <;> decide

/-- A well-formed instruction is its row with operand values, and its word the row's with the same values (R92, R94). -/
theorem exists_operands {i : Instr} (h : i.wf = true) : ∃ x y z n, i = instrOf i.mnemonic x y z n ∧
    encode i = encodeWith (defOf i.mnemonic) x y z n ∧ NumberFits (defOf i.mnemonic) n := by
  cases i with
  | halt | nop => exact ⟨0, 0, 0, 0, rfl, rfl, numberFits_zero _⟩
  | read x | write x | jumpr x => exact ⟨x, 0, 0, 0, rfl, rfl, numberFits_zero _⟩
  | loadr x y | storer x y | popr x y | pushr x y | copy x y => exact ⟨x, y, 0, 0, rfl, rfl, numberFits_zero _⟩
  | neg x z => exact ⟨x, 0, z, 0, rfl, rfl, numberFits_zero _⟩
  | add x y z | sub x y z | mul x y z | div x y z | mod x y z => exact ⟨x, y, z, 0, rfl, rfl, numberFits_zero _⟩
  | setn x n | addn x n =>
    exact ⟨x, 0, 0, n, rfl, rfl, by simpa [NumberFits, Instr.mnemonic, defOf, Instr.wf, signedInRange] using h⟩
  | loadn x n | storen x n | calln x n | jeqzn x n | jnezn x n | jgtzn x n | jltzn x n =>
    exact ⟨x, 0, 0, n, rfl, rfl, by simpa [NumberFits, Instr.mnemonic, defOf, Instr.wf, unsignedInRange] using h⟩
  | jumpn n =>
    exact ⟨0, 0, 0, n, rfl, rfl, by simpa [NumberFits, Instr.mnemonic, defOf, Instr.wf, unsignedInRange] using h⟩

/-- A definition with a number has no register in its second and third slot (R82). -/
theorem slots_of_hasNumber {d : InstrDef} (h : d.slotsOk = true) (hn : d.hasNumber = true) :
    d.slot2 ≠ .register ∧ d.slot3 ≠ .register := by
  simp_all [InstrDef.slotsOk]

/-! Field by field, the template and the other operands leave the bits of a declared operand 0 (R81 to R83). -/

theorem fieldX_encodeWith {m : Mnemonic} (h : (defOf m).slot1 = .register) (x y z : Reg) (n : Int) :
    fieldX (encodeWith (defOf m) x y z n) = x := by
  have hop : (defOf m).opcode.extractLsb' 8 4 = 0 := by cases m <;> rfl
  have hx : (BitVec.ofNat 16 x.val <<< 8).extractLsb' 8 4 = BitVec.ofNat 4 x.val := by decide +revert
  have hy : (BitVec.ofNat 16 y.val <<< 4).extractLsb' 8 4 = 0 := by decide +revert
  have hz : (BitVec.ofNat 16 z.val).extractLsb' 8 4 = 0 := by decide +revert
  have hn : ((BitVec.ofInt 8 n).setWidth 16).extractLsb' 8 4 = 0 := by
    ext i hi
    simp
  simp only [fieldX, encodeWith, u16_low_byte, BitVec.extractLsb'_or, apply_ite (BitVec.extractLsb' 8 4)]
  simp [h, hop, hx, hy, hz, hn]

theorem fieldY_encodeWith {m : Mnemonic} (h : (defOf m).slot2 = .register) (x y z : Reg) (n : Int) :
    fieldY (encodeWith (defOf m) x y z n) = y := by
  have hop : (defOf m).opcode.extractLsb' 4 4 = 0 := by cases m <;> rfl
  have hnum : (defOf m).hasNumber = false :=
    Bool.eq_false_iff.mpr fun hn => (slots_of_hasNumber (slotsOk_defOf m) hn).1 h
  have hx : (BitVec.ofNat 16 x.val <<< 8).extractLsb' 4 4 = 0 := by decide +revert
  have hy : (BitVec.ofNat 16 y.val <<< 4).extractLsb' 4 4 = BitVec.ofNat 4 y.val := by decide +revert
  have hz : (BitVec.ofNat 16 z.val).extractLsb' 4 4 = 0 := by decide +revert
  simp [fieldY, encodeWith, h, BitVec.extractLsb'_or, hop, hx, hy, hz, hnum, apply_ite (BitVec.extractLsb' 4 4)]

theorem fieldZ_encodeWith {m : Mnemonic} (h : (defOf m).slot3 = .register) (x y z : Reg) (n : Int) :
    fieldZ (encodeWith (defOf m) x y z n) = z := by
  have hop : (defOf m).opcode.extractLsb' 0 4 = 0 := by cases m <;> simp_all [defOf]
  have hnum : (defOf m).hasNumber = false :=
    Bool.eq_false_iff.mpr fun hn => (slots_of_hasNumber (slotsOk_defOf m) hn).2 h
  have hx : (BitVec.ofNat 16 x.val <<< 8).extractLsb' 0 4 = 0 := by decide +revert
  have hy : (BitVec.ofNat 16 y.val <<< 4).extractLsb' 0 4 = 0 := by decide +revert
  have hz : (BitVec.ofNat 16 z.val).extractLsb' 0 4 = BitVec.ofNat 4 z.val := by decide +revert
  simp [fieldZ, encodeWith, h, BitVec.extractLsb'_or, hop, hx, hy, hz, hnum, apply_ite (BitVec.extractLsb' 0 4)]

theorem fieldN_encodeWith {m : Mnemonic} (h : (defOf m).hasNumber = true) (x y z : Reg) (n : Int) :
    fieldN (encodeWith (defOf m) x y z n) = BitVec.ofInt 8 n := by
  have hop : (defOf m).opcode.extractLsb' 0 8 = 0 := by
    cases m <;> simp_all [defOf, InstrDef.hasNumber, Slot.numeric]
  have hslots := slots_of_hasNumber (slotsOk_defOf m) h
  have hx : (BitVec.ofNat 16 x.val <<< 8).extractLsb' 0 8 = 0 := by decide +revert
  have hn : ((BitVec.ofInt 8 n).setWidth 16).extractLsb' 0 8 = BitVec.ofInt 8 n := by
    ext i hi
    grind
  simp only [fieldN, encodeWith, u16_low_byte, BitVec.extractLsb'_or, apply_ite (BitVec.extractLsb' 0 8)]
  simp [h, hslots, hop, hx, hn]

theorem number_encodeWith {m : Mnemonic} (h : (defOf m).hasNumber = true) (x y z : Reg) {n : Int}
    (hn : NumberFits (defOf m) n) : (defOf m).number (encodeWith (defOf m) x y z n) = n := by
  unfold NumberFits at hn
  unfold InstrDef.number
  rw [fieldN_encodeWith h]
  split at hn
  · rw [if_pos ‹_›, sext8_ofInt hn]
  · rw [if_neg ‹_›, zext8_ofInt hn]

/-- The operands that a row declares are read back from its encoded word (R89 to R92, R94). -/
theorem instrOf_fields_encodeWith (m : Mnemonic) (x y z : Reg) {n : Int} (hn : NumberFits (defOf m) n) {w : Word}
    (hw : w = encodeWith (defOf m) x y z n) :
    instrOf m (fieldX w) (fieldY w) (fieldZ w) ((defOf m).number w) = instrOf m x y z n := by
  have hX : (defOf m).slot1 = .register → fieldX w = x := fun h => hw ▸ fieldX_encodeWith h x y z n
  have hY : (defOf m).slot2 = .register → fieldY w = y := fun h => hw ▸ fieldY_encodeWith h x y z n
  have hZ : (defOf m).slot3 = .register → fieldZ w = z := fun h => hw ▸ fieldZ_encodeWith h x y z n
  have hN : (defOf m).hasNumber = true → (defOf m).number w = n := fun h => hw ▸ number_encodeWith h x y z hn
  clear hn hw
  generalize (defOf m).number w = k at hN ⊢
  cases m <;> simp_all [instrOf, defOf, InstrDef.hasNumber, Slot.numeric]

/-- A four-bit field that the mask fixes has the template's value in every word that the row matches (R84, R85). -/
theorem extractLsb'_of_matchesWord {m : Mnemonic} {w : Word} (h : (defOf m).matchesWord w = true) {start : Nat}
    (hmask : (defOf m).mask.extractLsb' start 4 = BitVec.allOnes 4) :
    w.extractLsb' start 4 = (defOf m).opcode.extractLsb' start 4 := by
  rw [matchesWord_iff, opcode_and_mask] at h
  rw [h, BitVec.extractLsb'_and, hmask, BitVec.and_allOnes]

/-- Where a more specific row matches the word of an instruction, the instruction is not its own canonical reading. -/
theorem canonical_ne_of_sharedRows {i : Instr} {m : Mnemonic} (hs : (i.mnemonic, m) ∈ sharedRows)
    (hm : (defOf m).matchesWord (encode i) = true) : i.canonical ≠ i := by
  cases i with
  | copy x y =>
    obtain rfl : m = .nop := by simpa [sharedRows, Instr.mnemonic] using hs
    have hx : fieldX (encode (.copy x y)) = 0 := congrArg BitVec.toFin (extractLsb'_of_matchesWord hm rfl)
    have hy : fieldY (encode (.copy x y)) = 0 := congrArg BitVec.toFin (extractLsb'_of_matchesWord hm rfl)
    obtain rfl : x = 0 := (fieldX_encodeWith rfl x y 0 0).symm.trans hx
    obtain rfl : y = 0 := (fieldY_encodeWith rfl 0 y 0 0).symm.trans hy
    decide
  | add x y z =>
    have hmask : (defOf m).mask.extractLsb' 0 4 = BitVec.allOnes 4 ∧ fieldZ (defOf m).opcode = 0 := by
      obtain rfl | rfl : m = .nop ∨ m = .copy := by simpa [sharedRows, Instr.mnemonic] using hs
      all_goals decide
    have hz : fieldZ (encode (.add x y z)) = 0 :=
      (congrArg BitVec.toFin (extractLsb'_of_matchesWord hm hmask.1)).trans hmask.2
    obtain rfl : z = 0 := (fieldZ_encodeWith rfl x y z 0).symm.trans hz
    rw [Instr.canonical, if_pos rfl]
    split <;> simp
  | sub x y z =>
    obtain rfl : m = .neg := by simpa [sharedRows, Instr.mnemonic] using hs
    have hy : fieldY (encode (.sub x y z)) = 0 := congrArg BitVec.toFin (extractLsb'_of_matchesWord hm rfl)
    obtain rfl : y = 0 := (fieldY_encodeWith rfl x y z 0).symm.trans hy
    simp [Instr.canonical]
  | calln x n =>
    obtain rfl : m = .jumpn := by simpa [sharedRows, Instr.mnemonic] using hs
    have hx : fieldX (encode (.calln x n)) = 0 := congrArg BitVec.toFin (extractLsb'_of_matchesWord hm rfl)
    obtain rfl : x = 0 := (fieldX_encodeWith rfl x 0 0 n).symm.trans hx
    simp [Instr.canonical]
  | _ => simp [sharedRows, Instr.mnemonic] at hs

theorem decode_encode_of_canonical {i : Instr} (h : i.wf = true) (hc : i.canonical = i) :
    decode (encode i) = .ok i := by
  obtain ⟨x, y, z, n, hi, henc, hn⟩ := exists_operands h
  rcases decode_cases (encode i) with ⟨m, hd, -, hm, hmax⟩ | ⟨-, hno⟩
  · have hle := hmax _ ((mem_opcodeTable_iff _).mpr ⟨_, rfl⟩) (matchesWord_encode i)
    rcases sharedRows_of_matchesWord (matchesWord_encode i) hm hle with rfl | hs
    · rw [hd, instrOf_fields_encodeWith _ x y z hn henc, ← hi]
    · exact absurd hc (canonical_ne_of_sharedRows hs hm)
  · exact absurd (matchesWord_encode i) (by simp [hno])

theorem canonical_canonical (i : Instr) : i.canonical.canonical = i.canonical := by
  cases i with
  | copy | add | sub | calln => grind [Instr.canonical]
  | _ => rfl

/-- Settles O6: an instruction has the word of its canonical reading, and that reading's row is the best match. -/
theorem decodeOfEncode : Obligations.DecodeOfEncode := by
  have hdec : ∀ i : Instr, i.wf = true → decode (encode i) = .ok i.canonical := fun i h =>
    encode_canonical i ▸ decode_encode_of_canonical (wf_canonical h) (canonical_canonical i)
  exact ⟨hdec, fun i h hc => (hdec i h).trans (congrArg _ hc)⟩

/-! ### The words that do not decode (R88, R97) -/

theorem matchesWord_defOf_iff (m : Mnemonic) (w : Word) :
    (defOf m).matchesWord w = true ↔ w &&& (defOf m).mask = (defOf m).opcode := by
  rw [matchesWord_iff, opcode_and_mask, eq_comm]

/-- Bits that the mask fixes are the template's in every word that the row matches. -/
theorem and_of_matchesWord {m : Mnemonic} {w k : Word} (h : (defOf m).matchesWord w = true)
    (hk : (defOf m).mask &&& k = k) : w &&& k = (defOf m).opcode &&& k := by
  rw [← (matchesWord_defOf_iff m w).mp h, BitVec.and_assoc, hk]

/-- The top nibbles that no single row covers are 0 and 4. -/
theorem exists_row_of_topNibble (c : BitVec 4) (h0 : c ≠ 0) (h4 : c ≠ 4) :
    ∃ m, (defOf m).mask = 0xF000 ∧ (defOf m).opcode = c.setWidth 16 <<< 12 := by
  have hall : ∀ c : BitVec 4, c ≠ 0 → c ≠ 4 →
      ∃ m ∈ Mnemonic.all, (defOf m).mask = 0xF000 ∧ (defOf m).opcode = c.setWidth 16 <<< 12 := by decide
  obtain ⟨m, -, hm⟩ := hall c h0 h4
  exact ⟨m, hm⟩

theorem topNibble_of_noMatch {w : Word} (h : ∀ m, (defOf m).matchesWord w = false) : w >>> 12 = 0 ∨ w >>> 12 = 4 := by
  rw [shiftRight_twelve]
  by_contra hc
  rw [not_or] at hc
  obtain ⟨m, hmask, hop⟩ := exists_row_of_topNibble (w.extractLsb' 12 4) (fun h0 => hc.1 (h0 ▸ rfl))
    (fun h4 => hc.2 (h4 ▸ rfl))
  have hm : (defOf m).matchesWord w = true := by
    rw [matchesWord_defOf_iff, hmask, hop]
    exact (extractLsb'_place w 12 4).symm
  simp [h m] at hm

/-- A row whose mask fixes the top nibble and some low bits matches where both agree. -/
theorem matchesWord_of_topNibble {m : Mnemonic} {w k : Word} (hmask : (defOf m).mask = 0xF000 ||| k)
    (htop : w >>> 12 = (defOf m).opcode >>> 12) (hlow : w &&& k = (defOf m).opcode &&& k) :
    (defOf m).matchesWord w = true := by
  rw [matchesWord_defOf_iff, hmask, BitVec.and_or_distrib_left, ← topNibble_place, htop, topNibble_place, hlow,
    ← BitVec.and_or_distrib_left, ← hmask, opcode_and_mask]

/-- The rows with top nibble 0. -/
theorem row_of_topNibble_zero {m : Mnemonic} (h : (defOf m).opcode &&& 0xF000 = 0) :
    m = .halt ∨ m = .read ∨ m = .write ∨ m = .jumpr := by
  revert h
  cases m <;> decide

/-- The rows with top nibble 4. -/
theorem row_of_topNibble_four {m : Mnemonic} (h : (defOf m).opcode &&& 0xF000 = 0x4000) :
    m = .loadr ∨ m = .storer ∨ m = .popr ∨ m = .pushr := by
  revert h
  cases m <;> decide

theorem topNibble_of_matchesWord {m : Mnemonic} {w : Word} (h : (defOf m).matchesWord w = true) :
    (w >>> 12) <<< 12 = (defOf m).opcode &&& 0xF000 := by
  have hk : (defOf m).mask &&& 0xF000 = 0xF000 := by cases m <;> decide
  rw [topNibble_place, and_of_matchesWord h hk]

/-- Settles O5: outside the top nibbles 0 and 4 a row matches; inside them the rows fix the low byte and the low
nibble. -/
theorem invalidWordsCharacterised : Obligations.InvalidWordsCharacterised := by
  intro w
  rw [decode_error_iff]
  constructor
  · rintro ⟨-, hno⟩
    have hne : ∀ m, (defOf m).matchesWord w ≠ true := fun m => by simp [hno m]
    rcases topNibble_of_noMatch hno with htop | htop
    · refine .inl ⟨htop, ?_, ?_, ?_, ?_⟩
      · rintro rfl
        exact hne .halt rfl
      · exact fun hlow => hne .read (matchesWord_of_topNibble (k := 0x00FF) rfl htop hlow)
      · exact fun hlow => hne .write (matchesWord_of_topNibble (k := 0x00FF) rfl htop hlow)
      · exact fun hlow => hne .jumpr (matchesWord_of_topNibble (k := 0x00FF) rfl htop hlow)
    · refine .inr ⟨htop, not_lt.mp fun hlt => ?_⟩
      obtain ⟨m, hmask, hop, hlow⟩ : ∃ m, (defOf m).mask = 0xF00F ∧ (defOf m).opcode >>> 12 = 4 ∧
          w &&& 0x000F = (defOf m).opcode &&& 0x000F := by
        generalize w &&& 0x000F = low at hlt
        obtain rfl | rfl | rfl | rfl : low = 0 ∨ low = 1 ∨ low = 2 ∨ low = 3 := by bv_omega
        exacts [⟨.loadr, rfl, rfl, rfl⟩, ⟨.storer, rfl, rfl, rfl⟩, ⟨.popr, rfl, rfl, rfl⟩, ⟨.pushr, rfl, rfl, rfl⟩]
      exact hne m (matchesWord_of_topNibble hmask (htop.trans hop.symm) hlow)
  · intro h
    refine ⟨rfl, fun m => Bool.eq_false_iff.mpr fun hm => ?_⟩
    have htop := topNibble_of_matchesWord hm
    rcases h with ⟨h0, hne, h1, h2, h3⟩ | ⟨h4, hlow⟩
    · rw [h0] at htop
      rcases row_of_topNibble_zero htop.symm with rfl | rfl | rfl | rfl
      · exact hne (BitVec.and_allOnes.symm.trans (and_of_matchesWord (k := BitVec.allOnes 16) hm rfl))
      · exact h1 (and_of_matchesWord hm rfl)
      · exact h2 (and_of_matchesWord hm rfl)
      · exact h3 (and_of_matchesWord hm rfl)
    · rw [h4] at htop
      rcases row_of_topNibble_four htop.symm with rfl | rfl | rfl | rfl
      all_goals
        rw [and_of_matchesWord (k := 0x000F) hm rfl] at hlow
        exact absurd hlow (by decide)

end Sys2Proof.Proofs
end

section
/-! SUPPORT. The text forms of spec/30_encoding.md: operand slots, the operands of a line, the assembler's lines, binary
text. -/

namespace Sys2Proof.Proofs

open Sys2Proof Sys2Proof.Machine

/-! ### Operand slots (R103, R104) -/

theorem tokenClass_reg (n : Nat) : (Operand.reg n).tokenClass =
    if n = 0 then .registerZero else if n ≤ 15 then .validRegister else .invalidRegister := rfl

theorem tokenClass_num (i : Int) : (Operand.num i).tokenClass =
    if 0 ≤ i ∧ i ≤ 127 then .numberEither
    else if -128 ≤ i ∧ i ≤ -1 then .numberSignedOnly
    else if 128 ≤ i ∧ i ≤ 255 then .numberUnsignedOnly
    else .outOfRange := rfl

theorem register_accepts_reg_iff (n : Nat) : slotAccepts .register (Operand.reg n).tokenClass = true ↔ n ≤ 15 := by
  rw [tokenClass_reg]
  split_ifs <;> simp [slotAccepts] <;> omega

theorem register_rejects_num (i : Int) : slotAccepts .register (Operand.num i).tokenClass = false := by
  rw [tokenClass_num]
  split_ifs <;> rfl

theorem signed8_accepts_num_iff (i : Int) :
    slotAccepts .signed8 (Operand.num i).tokenClass = true ↔ -128 ≤ i ∧ i ≤ 127 := by
  rw [tokenClass_num]
  split_ifs <;> simp [slotAccepts] <;> omega

theorem unsigned8_accepts_num_iff (i : Int) :
    slotAccepts .unsigned8 (Operand.num i).tokenClass = true ↔ 0 ≤ i ∧ i ≤ 255 := by
  rw [tokenClass_num]
  split_ifs <;> simp [slotAccepts] <;> omega

/-- A numeric slot accepts no register (R104). -/
theorem numeric_rejects_reg {slot : Slot} (h : slot.numeric = true) (n : Nat) :
    slotAccepts slot (Operand.reg n).tokenClass = false := by
  rw [tokenClass_reg]
  cases slot with
  | absent | register => cases h
  | signed8 | unsigned8 => split_ifs <;> rfl

/-- Settles O10: each slot's accepted classes are the ranges that R103 gives the classes. -/
theorem slotsAcceptTheirRanges : Obligations.SlotsAcceptTheirRanges :=
  ⟨register_accepts_reg_iff, register_rejects_num, signed8_accepts_num_iff, numeric_rejects_reg rfl,
    unsigned8_accepts_num_iff, numeric_rejects_reg rfl, fun slot => by cases slot <;> decide⟩

/-! ### The operands of a line (R94, R105, R106) -/

theorem fillSlot_absent (os : List Operand) : fillSlot .absent os = .ok (0, os) := rfl

theorem fillSlot_register (r : Reg) (os : List Operand) :
    fillSlot .register (.reg r.val :: os) = .ok ((r.val : Int), os) := by
  have h := (register_accepts_reg_iff r.val).mpr (by omega)
  simp [fillSlot, h, Operand.value]

theorem fillSlot_signed8 {n : Int} (h : signedInRange n = true) (os : List Operand) :
    fillSlot .signed8 (.num n :: os) = .ok (n, os) := by
  have h := (signed8_accepts_num_iff n).mpr (by simpa [signedInRange] using h)
  simp [fillSlot, h, Operand.value]

theorem fillSlot_unsigned8 {n : Nat} (h : unsignedInRange n = true) (os : List Operand) :
    fillSlot .unsigned8 (.num n :: os) = .ok ((n : Int), os) := by
  have h := (unsigned8_accepts_num_iff n).mpr (by simpa [unsignedInRange] using h)
  simp [fillSlot, h, Operand.value]

theorem slotRegister_val (r : Reg) : slotRegister (r.val : Int) = r := by
  apply Fin.ext
  simp [slotRegister]

/-- Three filled slots that use up the operands give the definition's word (R101, R105). -/
theorem assembleOperands_of_fillSlot {d : InstrDef} {os os1 os2 : List Operand} {a b c : Int}
    (h1 : fillSlot d.slot1 os = .ok (a, os1)) (h2 : fillSlot d.slot2 os1 = .ok (b, os2))
    (h3 : fillSlot d.slot3 os2 = .ok (c, [])) : assembleOperands d os =
      .ok (encodeWith d (slotRegister a) (slotRegister b) (slotRegister c) (slotNumber d a b c)) := by
  simp [assembleOperands, h1, h2, h3]

/-- Settles O9: the operands fill the slots of the row in order, and what the row does not declare leaves no bit. -/
theorem assembledOperandsAreEncoded : Obligations.AssembledOperandsAreEncoded := by
  intro i h
  cases i with
  | halt | nop => rfl
  | read x | write x | jumpr x =>
    refine (assembleOperands_of_fillSlot (fillSlot_register x _) (fillSlot_absent _) (fillSlot_absent _)).trans ?_
    rw [slotRegister_val]
    rfl
  | loadr x y | storer x y | popr x y | pushr x y | copy x y =>
    refine (assembleOperands_of_fillSlot (fillSlot_register x _) (fillSlot_register y _) (fillSlot_absent _)).trans ?_
    rw [slotRegister_val, slotRegister_val]
    rfl
  | neg x z =>
    refine (assembleOperands_of_fillSlot (fillSlot_register x _) (fillSlot_absent _) (fillSlot_register z _)).trans ?_
    rw [slotRegister_val, slotRegister_val]
    rfl
  | add x y z | sub x y z | mul x y z | div x y z | mod x y z =>
    refine (assembleOperands_of_fillSlot (fillSlot_register x _) (fillSlot_register y _)
      (fillSlot_register z _)).trans ?_
    rw [slotRegister_val, slotRegister_val, slotRegister_val]
    rfl
  | setn x n | addn x n =>
    refine (assembleOperands_of_fillSlot (fillSlot_register x _) (fillSlot_signed8 h _) (fillSlot_absent _)).trans ?_
    rw [slotRegister_val]
    rfl
  | loadn x n | storen x n | calln x n | jeqzn x n | jnezn x n | jgtzn x n | jltzn x n =>
    refine (assembleOperands_of_fillSlot (fillSlot_register x _) (fillSlot_unsigned8 h _) (fillSlot_absent _)).trans ?_
    rw [slotRegister_val]
    rfl
  | jumpn n =>
    refine (assembleOperands_of_fillSlot (fillSlot_unsigned8 h _) (fillSlot_absent _) (fillSlot_absent _)).trans ?_
    simp [encode, encodeWith, slotNumber, Instr.mnemonic, defOf, InstrDef.hasNumber, Slot.numeric]

/-! ### The lines of a program (R101, R102) -/

/-- A line that assembles begins with its number (R102). -/
theorem number_of_assembleLine {k : Nat} {line : List (List Char)} {w : Word} (h : assembleLine k line = .ok w) :
    ∃ number rest, line = number :: rest ∧ parseNat number = some k := by
  match line with
  | [] | [_] => cases h
  | number :: name :: rest =>
    refine ⟨number, name :: rest, rfl, ?_⟩
    simp only [assembleLine] at h
    split at h
    · cases h
    · split at h
      · cases h
      · simp_all

theorem assembleLines_cons_ok {k : Nat} {line : List (List Char)} {lines : List (List (List Char))} {words : List Word}
    (h : assembleLines k (line :: lines) = .ok words) :
    ∃ w ws, words = w :: ws ∧ assembleLine k line = .ok w ∧ assembleLines (k + 1) lines = .ok ws := by
  simp only [assembleLines] at h
  cases hl : assembleLine k line with
  | error e => simp [hl] at h
  | ok w =>
    cases hls : assembleLines (k + 1) lines with
    | error e => simp [hl, hls] at h
    | ok ws => exact ⟨w, ws, by simpa [hl, hls] using h.symm, rfl, rfl⟩

/-- The lines from number `k` on give one word each, the line of index `j` as the line of number `k + j`. -/
theorem assembleLines_ok {k : Nat} {lines : List (List (List Char))} {words : List Word}
    (h : assembleLines k lines = .ok words) : words.length = lines.length ∧
      ∀ (j : Nat) line, lines[j]? = some line → ∃ w, words[j]? = some w ∧ assembleLine (k + j) line = .ok w := by
  induction lines generalizing k words with
  | nil =>
    cases h
    simp
  | cons line lines ih =>
    obtain ⟨w, ws, rfl, hline, hlines⟩ := assembleLines_cons_ok h
    obtain ⟨hlen, hall⟩ := ih hlines
    refine ⟨by simp [hlen], fun j l hl => ?_⟩
    cases j with
    | zero =>
      obtain rfl : line = l := by simpa using hl
      exact ⟨w, rfl, hline⟩
    | succ j =>
      rw [Nat.add_comm j, ← Nat.add_assoc, Nat.add_comm 1]
      exact hall j l (by simpa using hl)

/-- Settles O12: by induction on the lines, from any first number. -/
theorem assembledLinesStandAtTheirNumbers : Obligations.AssembledLinesStandAtTheirNumbers := by
  intro lines words h
  obtain ⟨hlen, hall⟩ := assembleLines_ok h
  refine ⟨hlen, fun k line hl => ?_⟩
  obtain ⟨w, hw, hline⟩ := hall k line hl
  rw [Nat.zero_add] at hline
  exact ⟨number_of_assembleLine hline, w, hw, hline⟩

/-! ### Binary text (R58, R100) -/

/-- The digits shift the accumulated value up by their number. -/
theorem testBit_binaryFrom_add (acc : Nat) (ds : List Char) (j : Nat) :
    (binaryFrom acc ds).testBit (ds.length + j) = acc.testBit j := by
  induction ds generalizing acc j with
  | nil => simp [binaryFrom]
  | cons c cs ih =>
    have hhalf : (2 * acc + if c = '1' then 1 else 0) / 2 = acc := by split <;> omega
    rw [binaryFrom, List.length_cons, Nat.add_assoc, Nat.add_comm 1, ih, Nat.testBit_succ, hhalf]

/-- The last digit is bit 0 and each digit before it one bit higher (R58). -/
theorem testBit_binaryFrom (acc : Nat) (ds : List Char) {j : Nat} (h : j < ds.length) :
    (binaryFrom acc ds).testBit j = true ↔ ds[ds.length - 1 - j]? = some '1' := by
  induction ds generalizing acc with
  | nil => cases h
  | cons c cs ih =>
    rw [binaryFrom, List.length_cons]
    rcases Nat.lt_succ_iff_lt_or_eq.mp h with hlt | rfl
    · have hindex : cs.length + 1 - 1 - j = (cs.length - 1 - j) + 1 := by omega
      rw [ih _ hlt, hindex, List.getElem?_cons_succ]
    · have hfirst := testBit_binaryFrom_add (2 * acc + if c = '1' then 1 else 0) cs 0
      rw [Nat.add_zero] at hfirst
      rw [hfirst]
      split <;> simp_all

theorem parseBinaryWord_eq (text : List Char) : parseBinaryWord text =
    if (text.filter (fun c => c == '0' || c == '1')).length = 16
      then some (BitVec.ofNat 16 (binaryFrom 0 (text.filter (fun c => c == '0' || c == '1')))) else none := rfl

/-- Settles O11: the word of 16 digits has the bits that the digits give their value. -/
theorem binaryTextIsMsbFirst : Obligations.BinaryTextIsMsbFirst := by
  intro text
  rw [parseBinaryWord_eq]
  generalize text.filter (fun c => c == '0' || c == '1') = digits
  refine ⟨fun hlen => if_neg hlen, fun hlen => ⟨_, if_pos hlen, fun k hk => ?_⟩⟩
  have hbit := testBit_binaryFrom 0 digits (j := 15 - k) (by omega)
  have hindex : digits.length - 1 - (15 - k) = k := by omega
  rw [hindex] at hbit
  have hin : 15 - k < 16 := by omega
  rw [← hbit, BitVec.getLsbD_ofNat, decide_eq_true hin, Bool.true_and]

end Sys2Proof.Proofs
end

section
/-! SUPPORT. The round trip of spec/30_encoding.md from an instruction through its disassembly and the assembler
(R101, R102, R109, R110, R112): tokens, decimal numbers, mnemonics, operands. -/

namespace Sys2Proof.Proofs

open Sys2Proof Sys2Proof.Machine

/-! ### Lines and tokens (R101, R110) -/

/-- A token of a line: at least one character, none of them white space or the comment character. -/
def IsToken (t : List Char) : Prop := t ≠ [] ∧ ∀ c ∈ t, isSpace c = false ∧ c ≠ '#'

theorem splitAtChar_ne_nil (p : Char → Bool) (cs : List Char) : splitAtChar p cs ≠ [] := by
  cases cs with
  | nil => exact List.cons_ne_nil _ _
  | cons c cs =>
    rw [splitAtChar]
    split
    · exact List.cons_ne_nil _ _
    · split <;> exact List.cons_ne_nil _ _

theorem splitAtChar_of_none {p : Char → Bool} {t : List Char} (h : ∀ c ∈ t, p c = false) : splitAtChar p t = [t] := by
  induction t with
  | nil => rfl
  | cons c cs ih =>
    obtain ⟨hc, hcs⟩ := List.forall_mem_cons.mp h
    simp [splitAtChar, ih hcs, hc]

theorem splitAtChar_append_cons {p : Char → Bool} {t : List Char} (h : ∀ c ∈ t, p c = false) {sep : Char}
    (hsep : p sep = true) (cs : List Char) : splitAtChar p (t ++ sep :: cs) = t :: splitAtChar p cs := by
  induction t with
  | nil =>
    simp only [List.nil_append, splitAtChar, hsep, if_true]
    obtain ⟨l, ls, hl⟩ := List.exists_cons_of_ne_nil (splitAtChar_ne_nil p cs)
    rw [hl]
  | cons c t ih =>
    obtain ⟨hc, ht⟩ := List.forall_mem_cons.mp h
    simp [splitAtChar, ih ht, hc]

theorem tokensOf_token {t : List Char} (h : IsToken t) : tokensOf t = [t] := by
  obtain ⟨hne, hplain⟩ := h
  simp [tokensOf, splitAtChar_of_none fun c hc => (hplain c hc).1, hne]

theorem tokensOf_append_space {t : List Char} (h : IsToken t) (cs : List Char) :
    tokensOf (t ++ ' ' :: cs) = t :: tokensOf cs := by
  obtain ⟨hne, hplain⟩ := h
  simp [tokensOf, splitAtChar_append_cons (fun c hc => (hplain c hc).1) (sep := ' ') rfl, hne]

/-- A line of tokens with single spaces between is cut into its tokens. -/
theorem tokensOf_line {t : List Char} {ts : List (List Char)} (h : ∀ u ∈ t :: ts, IsToken u) :
    tokensOf (t ++ ts.flatMap (' ' :: ·)) = t :: ts := by
  induction ts generalizing t with
  | nil =>
    simpa using tokensOf_token (h t (List.mem_cons_self ..))
  | cons u us ih =>
    obtain ⟨ht, hus⟩ := List.forall_mem_cons.mp h
    rw [List.flatMap_cons, List.cons_append, tokensOf_append_space ht, ih hus]

/-- A line of tokens has no comment. -/
theorem stripComment_line {t : List Char} {ts : List (List Char)} (h : ∀ u ∈ t :: ts, IsToken u) :
    stripComment (t ++ ts.flatMap (' ' :: ·)) = t ++ ts.flatMap (' ' :: ·) := by
  have hne : ∀ u ∈ t :: ts, ∀ c ∈ u, c ≠ '#' := fun u hu c hc => ((h u hu).2 c hc).2
  refine List.takeWhile_eq_self_iff.mpr fun c hc => bne_iff_ne.mpr ?_
  rcases List.mem_append.mp hc with hc | hc
  · exact hne t (List.mem_cons_self ..) c hc
  · obtain ⟨u, hu, hc⟩ := List.mem_flatMap.mp hc
    rcases List.mem_cons.mp hc with rfl | hc
    · decide
    · exact hne u (List.mem_cons_of_mem _ hu) c hc

/-! ### Decimal numbers (R109) -/

theorem isDigit_of_mem_toDigits {n : Nat} {c : Char} (h : c ∈ Nat.toDigits 10 n) : c.isDigit = true :=
  Nat.isDigit_of_mem_toDigits (by decide) (by decide) h

theorem digitValue_of_isDigit {c : Char} (h : c.isDigit = true) : digitValue c = some (c.toNat - 48) :=
  if_pos (Char.isDigit_iff_toNat.mp h)

/-- The assembler reads digits as `Nat.ofDigitChars` does. -/
theorem digitsFrom_eq {cs : List Char} (h : ∀ c ∈ cs, c.isDigit = true) (acc : Nat) :
    digitsFrom acc cs = some (Nat.ofDigitChars 10 cs acc) := by
  induction cs generalizing acc with
  | nil => simp [digitsFrom]
  | cons c cs ih =>
    obtain ⟨hc, hcs⟩ := List.forall_mem_cons.mp h
    rw [digitsFrom, digitValue_of_isDigit hc, Nat.ofDigitChars_cons]
    exact ih hcs _

theorem exists_toDigits_cons (n : Nat) : ∃ c cs, Nat.toDigits 10 n = c :: cs ∧ c.isDigit = true := by
  obtain ⟨c, cs, hcs⟩ := List.exists_cons_of_ne_nil (Nat.toDigits_ne_nil (n := n) (b := 10))
  exact ⟨c, cs, hcs, isDigit_of_mem_toDigits (hcs ▸ List.mem_cons_self ..)⟩

theorem parseNat_toDigits (n : Nat) : parseNat (Nat.toDigits 10 n) = some n := by
  have hdigits := digitsFrom_eq (fun c => isDigit_of_mem_toDigits (n := n) (c := c)) 0
  rw [Nat.ofDigitChars_ten_toDigits] at hdigits
  obtain ⟨c, cs, hcs, -⟩ := exists_toDigits_cons n
  rw [hcs] at hdigits ⊢
  exact hdigits

theorem decimalText_natCast (n : Nat) : decimalText n = Nat.toDigits 10 n := by
  simp [decimalText]

/-- A number's text is the digits of its magnitude, after a minus sign for a negative one. -/
theorem decimalText_cases (i : Int) :
    (0 ≤ i ∧ decimalText i = Nat.toDigits 10 i.natAbs) ∨ (i < 0 ∧ decimalText i = '-' :: Nat.toDigits 10 i.natAbs) := by
  unfold decimalText
  split
  · exact .inr ⟨‹_›, rfl⟩
  · exact .inl ⟨by omega, rfl⟩

theorem ne_of_isDigit {c d : Char} (hc : c.isDigit = true) (hd : d.isDigit = false) : c ≠ d := by
  rintro rfl
  simp [hc] at hd

theorem parseInt_decimalText (i : Int) : parseInt (decimalText i) = some i := by
  rcases decimalText_cases i with ⟨hi, ht⟩ | ⟨hi, ht⟩
  · obtain ⟨c, cs, hcs, hc⟩ := exists_toDigits_cons i.natAbs
    have hparse := parseNat_toDigits i.natAbs
    rw [hcs] at ht hparse
    simp [ht, parseInt, ne_of_isDigit hc (d := '-') rfl, hparse, abs_of_nonneg hi]
  · simp [ht, parseInt, parseNat_toDigits, abs_of_neg hi]

/-- A number's text does not begin with the register marker (R110). -/
theorem decimalText_ne_register (i : Int) (cs : List Char) : decimalText i ≠ 'r' :: cs := by
  rcases decimalText_cases i with ⟨-, ht⟩ | ⟨-, ht⟩
  · obtain ⟨c, ds, hds, hc⟩ := exists_toDigits_cons i.natAbs
    simp [ht, hds, ne_of_isDigit hc (d := 'r') rfl]
  · simp [ht]

/-! ### Operands and mnemonics (R107, R109, R110) -/

theorem parseOperand_text (o : Operand) : parseOperand o.text = some o := by
  cases o with
  | reg n => simp [Operand.text, parseOperand, decimalText_natCast, parseNat_toDigits]
  | num i =>
    unfold parseOperand
    split
    · exact absurd ‹_› (decimalText_ne_register i _)
    · simp [Operand.text, parseInt_decimalText]

theorem parseOperands_text (os : List Operand) : parseOperands (os.map Operand.text) = .ok os := by
  induction os with
  | nil => rfl
  | cons o os ih => simp [parseOperands, parseOperand_text, ih]

/-- Every canonical name is looked up as its own mnemonic (R107). -/
theorem lookupMnemonic_mnemonicText (m : Mnemonic) : lookupMnemonic (mnemonicText m) = some m := by
  cases m <;> decide

theorem length_instrOperands_le (i : Instr) : (instrOperands i).length ≤ 3 := by
  cases i <;> simp [instrOperands]

/-! ### The tokens of a disassembled line -/

theorem isToken_toDigits (n : Nat) : IsToken (Nat.toDigits 10 n) := by
  refine ⟨Nat.toDigits_ne_nil, fun c hc => ?_⟩
  have hne : ∀ d : Char, d.isDigit = false → c ≠ d := fun d => ne_of_isDigit (isDigit_of_mem_toDigits hc)
  exact ⟨by simp [isSpace, hne ' ' rfl, hne '\t' rfl, hne '\r' rfl], hne '#' rfl⟩

theorem IsToken.cons {c : Char} {t : List Char} (h : IsToken t) (hc : isSpace c = false ∧ c ≠ '#') : IsToken (c :: t) :=
  ⟨List.cons_ne_nil _ _, List.forall_mem_cons.mpr ⟨hc, h.2⟩⟩

theorem isToken_decimalText (i : Int) : IsToken (decimalText i) := by
  rcases decimalText_cases i with ⟨-, ht⟩ | ⟨-, ht⟩
  · exact ht ▸ isToken_toDigits _
  · exact ht ▸ (isToken_toDigits _).cons (by decide)

theorem isToken_operandText (o : Operand) : IsToken o.text := by
  cases o with
  | reg n => exact (isToken_decimalText _).cons (by decide)
  | num i => exact isToken_decimalText i

theorem isToken_mnemonicText (m : Mnemonic) : IsToken (mnemonicText m) := by
  have hletters : mnemonicText m ≠ [] ∧ (mnemonicText m).all (fun c => !isSpace c && c != '#') = true := by
    cases m <;> exact ⟨List.cons_ne_nil _ _, rfl⟩
  simpa [IsToken] using hletters

/-- The tokens of an instruction's line: its number, its mnemonic, its operands. -/
theorem tokensOf_disassemble (k : Nat) (i : Instr) :
    tokensOf (stripComment (decimalText k ++ ' ' :: disassemble i)) =
      decimalText k :: mnemonicText i.mnemonic :: (instrOperands i).map Operand.text := by
  have htokens : ∀ u ∈ decimalText k :: mnemonicText i.mnemonic :: (instrOperands i).map Operand.text, IsToken u := by
    simp [isToken_decimalText, isToken_mnemonicText, isToken_operandText]
  have hline : decimalText k ++ ' ' :: disassemble i =
      decimalText k ++ (mnemonicText i.mnemonic :: (instrOperands i).map Operand.text).flatMap (' ' :: ·) := by
    rw [disassemble, List.flatMap_cons, List.flatMap_map, List.cons_append]
  rw [hline, stripComment_line htokens, tokensOf_line htokens]

theorem assembleLine_tokens (k : Nat) (i : Instr) :
    assembleLine k (decimalText k :: mnemonicText i.mnemonic :: (instrOperands i).map Operand.text) =
      assembleOperands (defOf i.mnemonic) (instrOperands i) := by
  have hlen := length_instrOperands_le i
  simp [assembleLine, decimalText_natCast, parseNat_toDigits, lookupMnemonic_mnemonicText, parseOperands_text]
  omega

/-- Settles O13: the line is cut into its tokens, these assemble to the instruction's word, and that decodes. -/
theorem assembledTextDecodes : Obligations.AssembledTextDecodes := by
  intro k i _ hwf
  refine ⟨encode i, ?_, decodeOfEncode.1 i hwf⟩
  rw [tokensOf_disassemble, assembleLine_tokens, assembledOperandsAreEncoded i hwf]

end Sys2Proof.Proofs
end

section
/-! SUPPORT. What the machine does with the two readings of one word (spec/30_encoding.md R96) and with a word that does
not decode (spec/60_exceptions.md R201, R210). -/

namespace Sys2Proof.Proofs

open Sys2Proof Sys2Proof.Machine

/-! ### Synonyms (R96) -/

/-- With no data breakpoint in force nothing stops an instruction that makes no memory access (R212). -/
theorem undisturbed_of_registerOnly {i : Instr} {s : State} (hdbp : s.suppress = true ∨ s.dbp = [])
    (hregs : ∀ a ∈ accesses i s, a.space = .register) : Undisturbed i s := by
  have hmem : ∀ a ∈ accesses i s, a.space ≠ .memory := fun a ha => by simp [hregs a ha]
  refine ⟨fun a ha hm => absurd hm (hmem a ha), fun a ha hm => absurd hm (hmem a ha), hdbp.imp_right fun hnil => ?_⟩
  simp [hnil]

/-- The listed instructions have their canonical reading as synonym. -/
theorem synonym_canonical {i : Instr} (h : i ∈ [Instr.copy 0 0, .add 0 0 0] ++ (List.finRange 16).flatMap
    (fun x => (List.finRange 16).flatMap (fun y => [Instr.add x y 0, .sub x 0 y])) ++
    (List.range 256).map (fun n => Instr.calln 0 n)) : Synonym i i.canonical := by
  refine (canonical_cases i).resolve_left fun hc => ?_
  simp only [List.mem_append, List.mem_cons, List.mem_flatMap, List.mem_map, List.not_mem_nil, or_false] at h
  rcases h with ((rfl | rfl) | ⟨x, -, y, -, rfl | rfl⟩) | ⟨n, -, rfl⟩
  · cases hc
  · cases hc
  · rw [Instr.canonical, if_pos rfl] at hc
    split at hc <;> cases hc
  · cases hc
  · cases hc

/-- Two synonyms end one and the same change of the state, each under its own mnemonic. -/
theorem Synonym.exec_eq {i j : Instr} (h : Synonym i j) {s : State} (hdbp : s.suppress = true ∨ s.dbp = []) :
    ∃ (u : State) (target : Word), exec i s = .next (u.retire i.mnemonic target) ∧
      exec j s = .next (u.retire j.mnemonic target) := by
  have hregs : (∀ a ∈ accesses i s, a.space = .register) ∧ ∀ a ∈ accesses j s, a.space = .register := by
    cases h <;> simp [accesses, readReg, writeReg]
  rw [exec_of_undisturbed (undisturbed_of_registerOnly hdbp hregs.1),
    exec_of_undisturbed (undisturbed_of_registerOnly hdbp hregs.2)]
  cases h with
  | nop_of_copy | nop_of_add => exact ⟨s, s.nextPc, rfl, rfl⟩
  | copy_of_add x y =>
    refine ⟨s.setReg x (s.reg y), s.nextPc, ?_, rfl⟩
    simp [effect, writeResult, aluAdd_eq, Instr.mnemonic]
  | neg_of_sub x z => exact ⟨s.setReg x (aluSub 0 (s.reg z)), s.nextPc, rfl, rfl⟩
  | jumpn_of_calln n => exact ⟨s, targetImmediate n, rfl, rfl⟩

/-- Settles O8: the mnemonic under which a cycle retires is seen by the step filter only. -/
theorem synonymsHaveSameEffect : Obligations.SynonymsHaveSameEffect := by
  intro s hdbp i hi
  obtain ⟨u, target, hexec, hcanon⟩ := (synonym_canonical hi).exec_eq hdbp
  exact ⟨_, _, hexec, hcanon, fun _ => rfl, ⟨fun _ => rfl, rfl⟩, rfl⟩

/-! ### A word that does not decode (R88, R201, R210) -/

theorem fetchAndExec_of_error {s : State} {w : Word} {e : DecodeError} (hm : s.memRead (s.pc.toNat : Int) = some w)
    (hd : decode w = .error e) : fetchAndExec s = undecoded s w e := by
  simp [fetchAndExec, hm, hd]

theorem undecoded_noMatch (s : State) (w : Word) : undecoded s w .noMatch =
    if watchIds s (fetchAccess s) = [] then .next (s.takeFatal .invalidInstruction 0)
    else .next (s.stop .paused .dataBreakpoint (watchIds s (fetchAccess s))) := by
  unfold undecoded
  cases watchIds s (fetchAccess s) <;> rfl

/-- Settles O45: the step is a cycle that reaches its fetch, and the fetch watch comes before the exception. -/
theorem undecodedWordIsFatal : Obligations.UndecodedWordIsFatal := by
  intro s w ht hf hm hd
  have hstep : step s = undecoded s w .noMatch :=
    ((step_of_takesCycle ht).trans (cycle_of_reachesFetch hf)).trans (fetchAndExec_of_error hm hd)
  rw [hstep, undecoded_noMatch]
  split
  · exact ⟨_, rfl, haltedBy_takeFatal s _ _⟩
  · exact ⟨_, rfl, stoppedWith_stop s _ _ _⟩

end Sys2Proof.Proofs
end

section
/-! SUPPORT. The statements of spec/40_alu.md: an undisturbed register write, the results of the ALU in the signed
reading, and the fatal `divide-by-zero`. -/

namespace Sys2Proof.Proofs

open Sys2Proof Sys2Proof.Machine

/-! ### A register written at the end of a cycle (R22, R209) -/

/-- An undisturbed instruction whose effect writes one register and goes on to `pc + 1` does that and nothing else. -/
theorem writesRegister_of_effect {i : Instr} {s : State} {x : Reg} {v : Word} (hu : Undisturbed i s)
    (he : effect i s = .next (writeResult s i.mnemonic x v)) : WritesRegister i x v s := by
  refine ⟨writeResult s i.mnemonic x v, (exec_of_undisturbed hu).trans he, setReg_reg_same s x v,
    fun r hr => setReg_reg_of_ne s v hr, ⟨fun _ => rfl, rfl⟩, ⟨rfl, rfl⟩, ?_⟩
  exact retired_retire i.mnemonic s.nextPc rfl rfl (sameConfig_refl (s.setReg x v)) rfl ⟨rfl, rfl, rfl⟩

/-! ### Sum, difference and product of the signed readings (R120, R126 to R128) -/

theorem ofInt_toInt_add (a b : Word) : BitVec.ofInt 16 (a.toInt + b.toInt) = aluAdd a b := by
  rw [aluAdd_eq, BitVec.ofInt_add, BitVec.ofInt_toInt, BitVec.ofInt_toInt]

theorem ofInt_toInt_sub (a b : Word) : BitVec.ofInt 16 (a.toInt - b.toInt) = aluSub a b := by
  rw [aluSub_eq, Int.sub_eq_add_neg, BitVec.ofInt_add, BitVec.ofInt_neg, BitVec.ofInt_toInt, BitVec.ofInt_toInt,
    BitVec.sub_eq_add_neg]

theorem ofInt_toInt_mul (a b : Word) : BitVec.ofInt 16 (a.toInt * b.toInt) = aluMul a b := by
  rw [aluMul_eq, BitVec.ofInt_mul, BitVec.ofInt_toInt, BitVec.ofInt_toInt]

/-- Settles O21: the ALU reduces the result of the unsigned readings, and that of the signed ones is the same word. -/
theorem addSubMulResult : Obligations.AddSubMulResult := by
  intro x y z s
  rw [ofInt_toInt_add, ofInt_toInt_sub, ofInt_toInt_mul]
  refine ⟨fun hu => ?_, fun hu => ?_, fun hu => ?_⟩
  all_goals exact ⟨writesRegister_of_effect hu rfl, writesRegister_of_effect hu rfl⟩

/-! ### Quotient and remainder (R10, R122, R129, R130) -/

theorem eq_mul_truncDiv_add_truncRem (a b : Int) : a = b * truncDiv a b + truncRem a b := by
  rw [truncRem, add_sub_cancel]

theorem natAbs_truncRem_lt (a : Int) {b : Int} (hb : b ≠ 0) : (truncRem a b).natAbs < b.natAbs := by
  rw [truncRem_eq_tmod, Int.natAbs_tmod]
  exact Nat.mod_lt _ (Int.natAbs_pos.mpr hb)

/-- A remainder that is not 0 has the dividend's sign (R122). -/
theorem truncRem_eq_zero_or_sign (a b : Int) : truncRem a b = 0 ∨ (truncRem a b).sign = a.sign := by
  rw [truncRem_eq_tmod]
  by_cases hdvd : b ∣ a
  · exact .inl (Int.tmod_eq_zero_of_dvd hdvd)
  · exact .inr (by rw [Int.sign_tmod, if_neg hdvd])

theorem writeUnlessZero_of_ne {s : State} {m : Mnemonic} {x : Reg} {d v : Word} (h : d.toInt ≠ 0) :
    writeUnlessZero s m x d v = writeResult s m x v :=
  if_neg (s16_eq_toInt d ▸ h)

theorem writeUnlessZero_zero (s : State) (m : Mnemonic) (x : Reg) (v : Word) :
    writeUnlessZero s m x 0 v = s.takeFatal .divideByZero 0 :=
  if_pos ((s16_eq_zero_iff 0).mpr rfl)

theorem aluDiv_eq (a b : Word) : aluDiv a b = BitVec.ofInt 16 (truncDiv a.toInt b.toInt) := by
  rw [aluDiv, s16_eq_toInt, s16_eq_toInt, u16]

theorem aluMod_eq (a b : Word) : aluMod a b = BitVec.ofInt 16 (truncRem a.toInt b.toInt) := by
  rw [aluMod, s16_eq_toInt, s16_eq_toInt, u16]

/-- Settles O22, with the truncated quotient and its remainder. -/
theorem divModResult : Obligations.DivModResult := by
  intro x y z s hz
  refine ⟨truncDiv (s.reg y).toInt (s.reg z).toInt, truncRem (s.reg y).toInt (s.reg z).toInt,
    eq_mul_truncDiv_add_truncRem _ _, natAbs_truncRem_lt _ hz, truncRem_eq_zero_or_sign _ _, ?_, ?_⟩
  · exact fun hu => writesRegister_of_effect hu (by rw [effect, writeUnlessZero_of_ne hz, aluDiv_eq, Instr.mnemonic])
  · exact fun hu => writesRegister_of_effect hu (by rw [effect, writeUnlessZero_of_ne hz, aluMod_eq, Instr.mnemonic])

/-! ### Division by 0 (R124, R208, R214) -/

/-- An undisturbed instruction whose effect takes a fatal exception halts the core and changes nothing else. -/
theorem haltedBy_of_effect {i : Instr} {s : State} {k : ExcKind} {addr : Word} (hu : Undisturbed i s)
    (he : effect i s = .next (s.takeFatal k addr)) : ∃ t, exec i s = .next t ∧ HaltedBy k addr s t :=
  ⟨_, (exec_of_undisturbed hu).trans he, haltedBy_takeFatal s k addr⟩

/-- Settles O23: the exception is taken in the place of the write. -/
theorem divideByZeroIsFatal : Obligations.DivideByZeroIsFatal := by
  intro x y z s hz
  constructor
  all_goals exact fun hu => haltedBy_of_effect hu (by rw [effect, hz, writeUnlessZero_zero])

/-! ### `neg` and `copy` (R131, R132) -/

/-- Settles O24: `neg` is the difference to 0. -/
theorem negCopyResult : Obligations.NegCopyResult := by
  intro x y s
  refine ⟨fun hu => writesRegister_of_effect hu ?_, fun hu => writesRegister_of_effect hu rfl⟩
  rw [effect, aluSub_eq, zero_sub, Instr.mnemonic]

end Sys2Proof.Proofs
end

section
/-! SUPPORT. The statement of spec/41_immediate.md: a signed constant written to a register or added to it. -/

namespace Sys2Proof.Proofs

open Sys2Proof Sys2Proof.Machine

/-- The reduction modulo 65536 may come before the addition: a constant added to a register's unsigned reading is its
word added to the register (R10, R141). -/
theorem u16_toNat_add (v : Word) (n : Int) : u16 ((v.toNat : Int) + n) = v + BitVec.ofInt 16 n := by
  rw [u16, BitVec.ofInt_add, ← u16, u16_toNat_cast]

/-- Settles O25: `setn` writes its constant's word as it stands, `addn` reduces after the addition. -/
theorem immediateResult : Obligations.ImmediateResult := by
  intro x n s
  refine ⟨fun hu => writesRegister_of_effect hu rfl, fun hu => writesRegister_of_effect hu ?_⟩
  rw [effect, u16_toNat_add, Instr.mnemonic]

end Sys2Proof.Proofs
end

section
/-! SUPPORT. The statements of spec/42_memory_ops.md: loads, stores, `pushr` and `popr` that no check stops. That they
complete comes from `effect_completes`; what they did is then read off the port's answer. -/

namespace Sys2Proof.Proofs

open Sys2Proof Sys2Proof.Machine

/-! ### Writes followed by the end of the cycle (R209) -/

/-- The end of a cycle after register and memory writes leaves OUT, the host's plan and configuration, LAST_EXC and the
stop report to steps 8 and 10. -/
theorem Writes.retired {as : List Access} {s u : State} (h : Writes as s u) (m : Mnemonic) (target : Word) :
    SameChannels s (u.retire m target) ∧ Retired m target s (u.retire m target) := by
  rw [h.frame]
  exact ⟨⟨rfl, rfl⟩, retired_retire m target rfl rfl (sameConfig_refl s) rfl ⟨rfl, rfl, rfl⟩⟩

theorem reg_of_memWrite {s w : State} {a : Int} {v : Word} (h : s.memWrite a v = some w) (r : Reg) :
    w.reg r = s.reg r := by
  obtain ⟨-, rfl⟩ := (memWrite_eq_some_iff _ _ _ _).mp h
  rfl

/-- An undisturbed instruction completes, with the next state of its effect. -/
theorem effect_and_exec_complete {i : Instr} {s : State} (hu : Undisturbed i s) :
    ∃ t, effect i s = .next t ∧ exec i s = .next t := by
  obtain ⟨t, ht⟩ := effect_completes hu.1
  exact ⟨t, ht, (exec_of_undisturbed hu).trans ht⟩

/-! ### `loadn` and `loadr` (R150, R151, R153) -/

/-- An undisturbed load is the write of one register, with the word the port gives at its address. -/
theorem writesRegister_of_load {i : Instr} {s : State} {x : Reg} {a : Int} (hu : Undisturbed i s)
    (he : effect i s = loadFrom s i.mnemonic x a) : ∃ v, s.memRead a = some v ∧ WritesRegister i x v s := by
  obtain ⟨t, ht, -⟩ := effect_and_exec_complete hu
  obtain ⟨v, hv, rfl⟩ := withRead_next (he.symm.trans ht)
  exact ⟨v, hv, writesRegister_of_effect hu ht⟩

/-- Settles O26: the two instructions are one load at two addresses. -/
theorem loadResult : Obligations.LoadResult :=
  fun _ _ _ _ => ⟨fun hu => writesRegister_of_load hu rfl, fun hu => writesRegister_of_load hu rfl⟩

/-! ### `storen` and `storer` (R150, R152, R154) -/

/-- An undisturbed store writes the register's value at its address and nothing else. -/
theorem storedAt_of_store {i : Instr} {s : State} {x : Reg} {a : Int} (hwf : s.mem.wf = true) (hu : Undisturbed i s)
    (ha : writeMem a ∈ accesses i s) (he : effect i s = storeTo s i.mnemonic x a) :
    ∃ t, exec i s = .next t ∧ StoredAt a (s.reg x) s t ∧ SameRegs s t ∧ SameChannels s t ∧
      Retired i.mnemonic (s.pc + 1) s t := by
  obtain ⟨t, ht, hexec⟩ := effect_and_exec_complete hu
  obtain ⟨w, hw, rfl⟩ := withWrite_next (he.symm.trans ht)
  have hwrites : Writes (accesses i s) s w := .store .refl ha hw
  exact ⟨_, hexec, (storedAt_of_memWrite hwf hw).1, fun r => (retire_reg w _ _ r).trans (reg_of_memWrite hw r),
    hwrites.retired i.mnemonic s.nextPc⟩

/-- Settles O27: the two instructions are one store at two addresses. -/
theorem storeResult : Obligations.StoreResult :=
  fun _ _ _ _ hwf => ⟨fun hu => storedAt_of_store hwf hu (by simp [accesses]) rfl,
    fun hu => storedAt_of_store hwf hu (by simp [accesses]) rfl⟩

/-! ### `pushr` and `popr` (R155, R156) -/

/-- Settles O28: the stored value is read before the pointer moves, so it is the old one also where rX is rY. -/
theorem pushResult : Obligations.PushResult := by
  intro x y s hwf hu
  obtain ⟨t, ht, hexec⟩ := effect_and_exec_complete hu
  obtain ⟨w, hw, rfl⟩ := withWrite_next ht
  have hwrites : Writes (accesses (.pushr x y) s) s (w.setReg y (u16 (eaIndirect s y + 1))) :=
    .setReg (.store .refl (by simp [accesses]) hw) (by simp [accesses]) _
  refine ⟨_, hexec, (storedAt_of_memWrite hwf hw).1, ?_, fun r hr => ?_, hwrites.retired .pushr s.nextPc⟩
  · rw [RegHolds, retire_reg, setReg_reg_same, eaIndirect, u16_toNat_add_one]
  · rw [retire_reg, setReg_reg_of_ne _ _ hr, reg_of_memWrite hw]

/-- Settles O29: of the two register writes the one of rX is last, so the decremented pointer stays only where rY is
another register. -/
theorem popResult : Obligations.PopResult := by
  intro x y s hu
  obtain ⟨t, ht, hexec⟩ := effect_and_exec_complete hu
  obtain ⟨v, hv, rfl⟩ := withRead_next ht
  have hwrites : Writes (accesses (.popr x y) s) s ((s.setReg y (u16 (eaPop s y))).setReg x v) :=
    .setReg (.setReg .refl (by simp [accesses]) _) (by simp [accesses]) v
  refine ⟨_, v, hexec, hv, setReg_reg_same _ x v, fun hy => ?_, fun r hx hy => ?_, ⟨fun _ => rfl, rfl⟩,
    hwrites.retired .popr s.nextPc⟩
  · rw [RegHolds, retire_reg, setReg_reg_of_ne _ _ hy, setReg_reg_same, eaPop, u16_toNat_sub_one]
  · rw [retire_reg, setReg_reg_of_ne _ _ hx, setReg_reg_of_ne _ _ hy]

end Sys2Proof.Proofs
end

section
/-! SUPPORT. The statements of spec/43_control.md: the conditions and targets of the jumps, a cycle that only moves
`pc`, and the link of `calln`. -/

namespace Sys2Proof.Proofs

open Sys2Proof Sys2Proof.Machine

/-! ### Conditions and targets (R170, R173 to R176) -/

theorem isZero_iff (v : Word) : isZero v = true ↔ v = 0 := decide_eq_true_iff

theorem isNonZero_iff (v : Word) : isNonZero v = true ↔ v ≠ 0 := decide_eq_true_iff

theorem isPositive_iff (v : Word) : isPositive v = true ↔ 0 < v.toInt := by
  rw [isPositive, decide_eq_true_iff, s16_eq_toInt, gt_iff_lt]

theorem isNegative_iff (v : Word) : isNegative v = true ↔ v.toInt < 0 := by
  rw [isNegative, decide_eq_true_iff, s16_eq_toInt]

/-- A conditional jump whose test says `p` goes to its number where `p` holds, and to `pc + 1` elsewhere. -/
theorem branchTarget_of_iff {taken : Bool} {p : Prop} [Decidable p] (h : taken = true ↔ p) (s : State) (n : Nat) :
    branchTarget s taken (targetImmediate n) = if p then BitVec.ofNat 16 n else s.pc + 1 := by
  rw [branchTarget, targetImmediate_eq, State.nextPc]
  exact if_congr h rfl rfl

/-! ### A cycle that only moves `pc` (R209) -/

/-- An undisturbed instruction whose effect is the end of the cycle at a target does that and nothing else. -/
theorem transfersTo_of_effect {i : Instr} {s : State} {target : Word} (hu : Undisturbed i s)
    (he : effect i s = .next (s.retire i.mnemonic target)) : TransfersTo i target s := by
  have hwrites : Writes (accesses i s) s s := .refl
  exact ⟨_, (exec_of_undisturbed hu).trans he, fun _ => rfl, ⟨fun _ => rfl, rfl⟩, hwrites.retired i.mnemonic target⟩

/-- Settles O33: the number as a word, or the register as it stands. -/
theorem jumpTargets : Obligations.JumpTargets := by
  intro x n s
  refine ⟨fun hu => transfersTo_of_effect hu ?_, fun hu => transfersTo_of_effect hu rfl⟩
  rw [effect, targetImmediate_eq, Instr.mnemonic]

/-- An undisturbed conditional jump goes where its test sends it. -/
theorem transfersTo_of_branch {i : Instr} {s : State} {taken : Bool} {p : Prop} [Decidable p] {n : Nat}
    (h : taken = true ↔ p) (hu : Undisturbed i s)
    (he : effect i s = .next (s.retire i.mnemonic (branchTarget s taken (targetImmediate n)))) :
    TransfersTo i (if p then BitVec.ofNat 16 n else s.pc + 1) s :=
  transfersTo_of_effect hu (branchTarget_of_iff h s n ▸ he)

/-- Settles O34: the four jumps are one branch behind four tests. -/
theorem conditionalJumps : Obligations.ConditionalJumps :=
  fun _ _ _ => ⟨fun hu => transfersTo_of_branch (isZero_iff _) hu rfl,
    fun hu => transfersTo_of_branch (isNonZero_iff _) hu rfl,
    fun hu => transfersTo_of_branch (isPositive_iff _) hu rfl,
    fun hu => transfersTo_of_branch (isNegative_iff _) hu rfl⟩

/-! ### The link of `calln` (R177) -/

/-- Settles O35: the link is the one listed write before the end of the cycle at the target. -/
theorem callLinks : Obligations.CallLinks := by
  intro x n s hu
  have hwrites : Writes (accesses (.calln x n) s) s (s.setReg x s.nextPc) := .setReg .refl (by simp [accesses]) _
  rw [← targetImmediate_eq]
  exact ⟨_, exec_of_undisturbed hu, setReg_reg_same s x s.nextPc, fun r hr => setReg_reg_of_ne s s.nextPc hr,
    ⟨fun _ => rfl, rfl⟩, hwrites.retired .calln (targetImmediate n)⟩

end Sys2Proof.Proofs
end

section
/-! SUPPORT. The statements of spec/44_system.md about `nop` and `write`: a cycle that only moves `pc`, and one that first
appends to OUT. -/

namespace Sys2Proof.Proofs

open Sys2Proof Sys2Proof.Machine

/-- Settles O37: `nop` is the end of the cycle at `pc + 1`. -/
theorem nopOnlyAdvances : Obligations.NopOnlyAdvances :=
  fun _ hu => transfersTo_of_effect hu rfl

/-- The end of a cycle after one item appended to OUT leaves the rest of the state to steps 8 and 10 (R41, R209). -/
theorem retired_emit (s : State) (item : OutItem) (m : Mnemonic) (target : Word) :
    Retired m target s ((s.emit item).retire m target) :=
  retired_retire m target rfl rfl (sameConfig_refl s) rfl ⟨rfl, rfl, rfl⟩

/-- Settles O38: the item is the signed reading of the register, appended before the cycle ends at `pc + 1`. -/
theorem writeEmitsSignedValue : Obligations.WriteEmitsSignedValue := by
  intro x s hu
  have hexec : exec (.write x) s = .next ((s.emit (.value (s16 (s.reg x)))).retire .write s.nextPc) :=
    exec_of_undisturbed hu
  rw [s16_eq_toInt] at hexec
  exact ⟨_, hexec, rfl, fun _ => rfl, ⟨fun _ => rfl, rfl⟩, rfl, retired_emit s _ .write s.nextPc⟩

end Sys2Proof.Proofs
end

section
/-! SUPPORT. The checks of step 4 (spec/60_exceptions.md R212): the stop that an instruction's memory access comes to,
the hits of the data breakpoints, and the settings that have no influence where they decide no check. -/

namespace Sys2Proof.Proofs

open Sys2Proof Sys2Proof.Machine

/-! ### The memory access of an instruction (R211) -/

/-- The access table reads the registers only. -/
theorem accesses_of_sameRegs {i : Instr} {s t : State} (h : SameRegs s t) : accesses i t = accesses i s := by
  cases i <;> simp only [accesses, eaIndirect, eaPop, h _]

theorem insideMemory_of_sameRegs {i : Instr} {s t : State} (h : SameRegs s t) (hin : InsideMemory i s) :
    InsideMemory i t := by
  rwa [InsideMemory, accesses_of_sameRegs h]

/-- An instruction accesses memory at most once, so the order of the checks matters to no stop of an access. -/
theorem memoryAccess_unique {i : Instr} {s : State} {a b : Access} (ha : a ∈ accesses i s) (hb : b ∈ accesses i s)
    (hspace : a.space = .memory) (hspace' : b.space = .memory) : a = b := by
  have hlen : ((accesses i s).filter (fun a => a.space = .memory)).length ≤ 1 := by
    cases i <;> simp [accesses, readReg, writeReg, readMem, writeMem]
  have hmem : a ∈ (accesses i s).filter (fun a => a.space = .memory) := by simp [ha, hspace]
  have hmem' : b ∈ (accesses i s).filter (fun a => a.space = .memory) := by simp [hb, hspace']
  obtain ⟨m, hm, ham⟩ := List.getElem_of_mem hmem
  obtain ⟨n, hn, hbn⟩ := List.getElem_of_mem hmem'
  obtain rfl : m = n := by omega
  exact ham.symm.trans hbn

theorem space_of_outside {a : Access} (h : a.outside = true) : a.space = .memory := by
  by_contra hspace
  simp [Access.outside, hspace] at h

theorem space_of_maskableStop {s : State} {a : Access} {id : BpId} (h : maskableStop s a = some id) :
    a.space = .memory := by
  by_contra hspace
  simp [maskableStop, hspace] at h

/-! ### An access outside memory (R202, R212 (a)) -/

/-- An access outside memory is the one that stops, whatever the other checks would say. -/
theorem exec_of_outside {i : Instr} {s : State} {a : Access} (ha : a ∈ accesses i s) (ho : a.outside = true) :
    exec i s = .next (s.takeFatal .invalidMemoryAccess (u16 a.addr)) := by
  have hnot : ¬ ∀ b ∈ accesses i s, b.outside = false := fun h => by simp [h a ha] at ho
  rcases exec_cases i s with ⟨b, hb, hbo, he⟩ | ⟨b, hb, id, hbo, hm, -⟩ | ⟨hin, -⟩ | ⟨hu, -⟩
  · rwa [memoryAccess_unique ha hb (space_of_outside ho) (space_of_outside hbo)]
  · rw [memoryAccess_unique hb ha (space_of_maskableStop hm) (space_of_outside ho), ho] at hbo
    cases hbo
  · exact absurd hin hnot
  · obtain ⟨hin, -⟩ := (undisturbed_iff i s).mp hu
    exact absurd hin hnot

theorem haltedBy_of_outside {i : Instr} {s : State} {a : Access} {addr : Word} (ha : a ∈ accesses i s)
    (ho : a.outside = true) (haddr : u16 a.addr = addr) :
    ∃ t, exec i s = .next t ∧ HaltedBy .invalidMemoryAccess addr s t :=
  ⟨_, exec_of_outside ha ho, haddr ▸ haltedBy_takeFatal s .invalidMemoryAccess (u16 a.addr)⟩

theorem readMem_outside_of_not {a : Int} (h : ¬ (0 ≤ a ∧ a ≤ 255)) : (readMem a).outside = true :=
  (Bool.not_eq_false _).mp (mt (readMem_outside a).mp h)

theorem writeMem_outside_of_not {a : Int} (h : ¬ (0 ≤ a ∧ a ≤ 255)) : (writeMem a).outside = true :=
  (Bool.not_eq_false _).mp (mt (writeMem_outside a).mp h)

/-- An instruction whose address comes from no register stays inside memory: its number is at most 255. -/
theorem insideMemory_of_wf {i : Instr} (s : State) (hwf : i.wf = true) :
    InsideMemory i s ∨ i.mnemonic = .loadr ∨ i.mnemonic = .storer ∨ i.mnemonic = .pushr ∨ i.mnemonic = .popr := by
  cases i with
  | loadr | storer | pushr | popr => simp [Instr.mnemonic]
  | loadn x n | storen x n =>
    have hn : n ≤ 255 := by simpa [Instr.wf, unsignedInRange] using hwf
    refine .inl ?_
    simp [InsideMemory, accesses, readMem, writeMem, readReg, writeReg, eaDirect, hn]
  | _ => exact .inl (by simp [InsideMemory, accesses, readReg, writeReg])

/-- Settles O30: rY (less 1 for `popr`) is the address of an access of the table, and it is outside memory. -/
theorem outsideMemoryIsFatal : Obligations.OutsideMemoryIsFatal := by
  refine ⟨fun x y s => ⟨fun hy => ?_, fun hy => ?_⟩, fun i s hwf hout => (insideMemory_of_wf s hwf).resolve_left hout⟩
  · have hea : ¬ (0 ≤ eaIndirect s y ∧ eaIndirect s y ≤ 255) := by
      unfold eaIndirect
      omega
    have haddr : u16 (eaIndirect s y) = s.reg y := u16_toNat_cast _
    exact ⟨haltedBy_of_outside (by simp [accesses]) (readMem_outside_of_not hea) haddr,
      haltedBy_of_outside (by simp [accesses]) (writeMem_outside_of_not hea) haddr,
      haltedBy_of_outside (by simp [accesses]) (writeMem_outside_of_not hea) haddr⟩
  · have hea : ¬ (0 ≤ eaPop s y ∧ eaPop s y ≤ 255) := by
      unfold eaPop
      rcases hy with hy | hy
      · simp [hy]
      · omega
    exact haltedBy_of_outside (by simp [accesses]) (readMem_outside_of_not hea) (u16_toNat_sub_one _)

/-! ### An enabled access to the code segment (R206, R207, R212 (b)) -/

/-- A maskable exception that stops an access inside memory stops the instruction. -/
theorem exec_of_maskableStop {i : Instr} {s : State} {a : Access} {id : BpId} (ha : a ∈ accesses i s)
    (ho : a.outside = false) (hm : maskableStop s a = some id) :
    exec i s = .next (s.takeMaskable (segmentKind a.dir) (u16 a.addr) id) := by
  have hnot : ¬ ∀ b ∈ accesses i s, maskableStop s b = none := fun h => by simp [h a ha] at hm
  rcases exec_cases i s with ⟨b, hb, hbo, -⟩ | ⟨b, hb, id', -, hbm, he⟩ | ⟨-, hnone, -⟩ | ⟨hu, -⟩
  · rw [memoryAccess_unique hb ha (space_of_outside hbo) (space_of_maskableStop hm), ho] at hbo
    cases hbo
  · obtain rfl := memoryAccess_unique hb ha (space_of_maskableStop hbm) (space_of_maskableStop hm)
    cases hbm.symm.trans hm
    exact he
  · exact absurd hnone hnot
  · obtain ⟨-, hnone, -⟩ := (undisturbed_iff i s).mp hu
    exact absurd hnone hnot

theorem maskableStop_of_enabled {s : State} {a : Access} (hspace : a.space = .memory)
    (hlimit : a.addr < (s.codeLimit : Int)) (hsuppress : s.suppress = false)
    (hlatch : s.maskLatch ≠ some (segmentKind a.dir, s.pc)) :
    maskableStop s a = s.excEn.get (segmentKind a.dir) :=
  if_pos ⟨hspace, hlimit, hsuppress, hlatch⟩

theorem pausedBy_of_enabled {i : Instr} {s : State} {a : Access} {id : BpId} (ha : a ∈ accesses i s)
    (ho : a.outside = false) (hspace : a.space = .memory) (hlimit : a.addr < (s.codeLimit : Int))
    (hsuppress : s.suppress = false) (hlatch : s.maskLatch ≠ some (segmentKind a.dir, s.pc))
    (hen : s.excEn.get (segmentKind a.dir) = some id) :
    ∃ t, exec i s = .next t ∧ PausedBy (segmentKind a.dir) (u16 a.addr) id s t :=
  ⟨_, exec_of_maskableStop ha ho ((maskableStop_of_enabled hspace hlimit hsuppress hlatch).trans hen),
    pausedBy_takeMaskable s _ _ id⟩

/-! ### Settings that decide no check (R204, R212, R213) -/

/-- A change of the settings the checks of step 4 read: CODE_LIMIT, EXC_EN and DBP. -/
structure CheckChange where
  limit : Nat → Nat := id
  enable : ExcEnable → ExcEnable := id
  watch : List DataBp → List DataBp := id

/-- The state with its settings changed. -/
def CheckChange.apply (c : CheckChange) (s : State) : State :=
  { s with codeLimit := c.limit s.codeLimit, excEn := c.enable s.excEn, dbp := c.watch s.dbp }

section
variable {c : CheckChange} {s : State}

theorem checkAll_apply {as : List Access} (hmask : ∀ a ∈ as, maskableStop (c.apply s) a = maskableStop s a)
    (hwatch : ∀ a ∈ as, watchIds (c.apply s) a = watchIds s a) (hits : List BpId) :
    checkAll (c.apply s) as hits = checkAll s as hits := by
  induction as generalizing hits with
  | nil => rfl
  | cons a as ih =>
    rw [List.forall_mem_cons] at hmask hwatch
    have hc : checkAccess (c.apply s) a hits = checkAccess s a hits := by
      simp only [checkAccess, hmask.1, hwatch.1]
    simp only [checkAll, hc, ih hmask.2 hwatch.2]

/-- Step 4 sees the settings only through what they say about the fetch and the listed accesses. -/
theorem checkInstr_apply {i : Instr} (hmask : ∀ a ∈ accesses i s, maskableStop (c.apply s) a = maskableStop s a)
    (hwatch : ∀ a ∈ fetchAccess s :: accesses i s, watchIds (c.apply s) a = watchIds s a) :
    checkInstr i (c.apply s) = checkInstr i s := by
  rw [List.forall_mem_cons] at hwatch
  have hfetch : watchIds (c.apply s) (fetchAccess (c.apply s)) = watchIds s (fetchAccess s) := hwatch.1
  have htable : accesses i (c.apply s) = accesses i s := accesses_of_sameRegs fun _ => rfl
  unfold checkInstr
  rw [htable, hfetch, checkAll_apply hmask hwatch.2]

theorem takeFatal_apply {k : ExcKind} (hk : (c.enable s.excEn).get k = s.excEn.get k) (addr : Word) :
    (c.apply s).takeFatal k addr = c.apply (s.takeFatal k addr) := by
  simp [State.takeFatal, CheckChange.apply, fatalReason, fatalIds, hk]

theorem writeUnlessZero_apply (hk : (c.enable s.excEn).get .divideByZero = s.excEn.get .divideByZero) (m : Mnemonic)
    (x : Reg) (d v : Word) : writeUnlessZero (c.apply s) m x d v = c.apply (writeUnlessZero s m x d v) := by
  unfold writeUnlessZero
  split
  · exact takeFatal_apply hk 0
  · rfl

theorem answerRead_apply (x : Reg) (answer : InputAnswer) :
    answerRead (c.apply s) x answer = c.apply (answerRead s x answer) := by
  cases answer <;> rfl

theorem requestInput_apply (x : Reg) : requestInput (c.apply s) x = c.apply (requestInput s x) := by
  by_cases hq : ∃ answer rest, s.hostQ = .op (.supply answer) :: rest
  · obtain ⟨answer, rest, hq⟩ := hq
    rw [requestInput_of_supply x hq, requestInput_of_supply (s := c.apply s) x hq]
    exact answerRead_apply (s := { s with hostQ := rest }) x answer
  · have hn : ∀ a rest, s.hostQ ≠ .op (.supply a) :: rest := fun a rest e => hq ⟨a, rest, e⟩
    rw [requestInput_of_no_supply x hn, requestInput_of_no_supply (s := c.apply s) x hn]
    rfl

theorem withRead_apply (a : Int) {k k' : Word → State} (hk : ∀ v, k' v = c.apply (k v)) :
    withRead (c.apply s) a k' = mapNext c.apply (withRead s a k) := by
  have hread : (c.apply s).memRead a = s.memRead a := rfl
  unfold withRead
  rw [hread]
  cases s.memRead a with
  | none => rfl
  | some v => exact congrArg _ (hk v)

theorem withWrite_apply (a : Int) (v : Word) {k k' : State → State} (hk : ∀ u, k' (c.apply u) = c.apply (k u)) :
    withWrite (c.apply s) a v k' = mapNext c.apply (withWrite s a v k) := by
  have hwrite : (c.apply s).memWrite a v = (s.memWrite a v).map c.apply := by
    unfold State.memWrite
    split <;> rfl
  unfold withWrite
  rw [hwrite]
  cases s.memWrite a v with
  | none => rfl
  | some u => exact congrArg _ (hk u)

/-- The effect of an instruction carries the settings along; it reads them only for the report of a division by 0. -/
theorem effect_apply (hk : (c.enable s.excEn).get .divideByZero = s.excEn.get .divideByZero) (i : Instr) :
    effect i (c.apply s) = mapNext c.apply (effect i s) := by
  cases i with
  | read x => exact congrArg _ (requestInput_apply x)
  | div x y z | mod x y z => exact congrArg _ (writeUnlessZero_apply hk _ x _ _)
  | loadn | loadr | popr => exact withRead_apply _ fun _ => rfl
  | storen | storer | pushr => exact withWrite_apply _ _ fun _ => rfl
  | _ => rfl

/-- A change of the settings that step 4 does not see and that keeps the enables of the fatal kinds has no influence on
an instruction. -/
theorem exec_apply {i : Instr} (hfatal : ∀ k, k.maskable = false → (c.enable s.excEn).get k = s.excEn.get k)
    (hmask : ∀ a ∈ accesses i s, maskableStop (c.apply s) a = maskableStop s a)
    (hwatch : ∀ a ∈ fetchAccess s :: accesses i s, watchIds (c.apply s) a = watchIds s a) :
    exec i (c.apply s) = mapNext c.apply (exec i s) := by
  rw [exec_eq_guarded, exec_eq_guarded, effect_apply (hfatal .divideByZero rfl)]
  unfold guarded
  rw [checkInstr_apply hmask hwatch]
  cases checkInstr i s with
  | fatal addr => exact congrArg _ (takeFatal_apply (hfatal .invalidMemoryAccess rfl) (u16 addr))
  | maskable => rfl
  | pass hits => cases hits <;> rfl

end

/-- The enable of a kind that is latched at this `pc` is not read (R216). -/
theorem maskableStop_enable {s : State} {e : ExcEnable}
    (h : ∀ d, s.maskLatch ≠ some (segmentKind d, s.pc) → e.get (segmentKind d) = s.excEn.get (segmentKind d))
    (a : Access) : maskableStop (CheckChange.apply { enable := fun _ => e } s) a = maskableStop s a := by
  unfold maskableStop
  split
  · exact (h a.dir (by tauto)).trans (if_pos (by assumption)).symm
  · exact (if_neg (by assumption)).symm

/-- Where one kind is latched at this `pc`, a change of its enable alone has no influence on an instruction (R216). -/
theorem exec_enable_of_latched {i : Instr} {s : State} {e : ExcEnable} {k : ExcKind} (hk : k.maskable = true)
    (hlatch : s.maskLatch = some (k, s.pc)) (he : ∀ k', k' ≠ k → e.get k' = s.excEn.get k') :
    exec i { s with excEn := e } = mapNext (fun t => { t with excEn := e }) (exec i s) := by
  refine exec_apply (c := { enable := fun _ => e }) (fun k' hk' => he k' ?_) (fun a _ => maskableStop_enable ?_ a)
    fun _ _ => rfl
  · rintro rfl
    cases hk.symm.trans hk'
  · exact fun d hd => he _ fun hdk => hd (hdk ▸ hlatch)

/-- Settles O31: the enabled access stops at its check, and a latched kind is not read by any check. -/
theorem enabledSegmentAccessPauses : Obligations.EnabledSegmentAccessPauses := by
  refine ⟨fun i s a id h0 h255 hlimit hsuppress => ⟨fun ha hen hlatch => ?_, fun ha hen hlatch => ?_⟩,
    fun i s enable => ⟨fun hlatch => ?_, fun hlatch => ?_⟩⟩
  · exact pausedBy_of_enabled ha ((readMem_outside a).mpr ⟨h0, h255⟩) rfl hlimit hsuppress hlatch hen
  · exact pausedBy_of_enabled ha ((writeMem_outside a).mpr ⟨h0, h255⟩) rfl hlimit hsuppress hlatch hen
  · refine exec_enable_of_latched rfl hlatch fun k hk => ?_
    cases k with
    | codeSegmentRead => exact absurd rfl hk
    | _ => rfl
  · refine exec_enable_of_latched rfl hlatch fun k hk => ?_
    cases k with
    | codeSegmentWrite => exact absurd rfl hk
    | _ => rfl

/-- Settles O32: where no maskable kind is enabled no check reads CODE_LIMIT. -/
theorem disabledSegmentChecksDoNotMatter : Obligations.DisabledSegmentChecksDoNotMatter := by
  intro i s limit hread hwrite
  have hnone : ∀ d, s.excEn.get (segmentKind d) = none
    | .read => hread
    | .write => hwrite
  refine exec_apply (c := { limit := fun _ => limit }) (fun _ _ => rfl) (fun a _ => ?_) fun _ _ => rfl
  exact ((maskableStop_eq_none_iff { s with codeLimit := limit } a).mpr fun _ _ => .inl (hnone a.dir)).trans
    ((maskableStop_eq_none_iff s a).mpr fun _ _ => .inl (hnone a.dir)).symm

/-! ### Data breakpoints (R213, R231, R232) -/

theorem watchIds_of_not_suppress {s : State} (h : s.suppress = false) :
    watchIds s = fun a => (s.dbp.filter (fun e => e.watches a)).map DataBp.id := by
  funext a
  simp [watchIds, h]

/-- An instruction that no exception of step 4 stops either pauses with the hits of its fetch and its accesses, or has
none (R213). -/
theorem exec_of_hits {i : Instr} {s : State} (hin : InsideMemory i s) (hmask : Unmasked i s)
    (hhits : (fetchAccess s :: accesses i s).flatMap (watchIds s) ≠ []) :
    exec i s =
      .next (s.stop .paused .dataBreakpoint ((fetchAccess s :: accesses i s).flatMap (watchIds s))) := by
  rcases exec_cases i s with ⟨a, ha, ho, -⟩ | ⟨a, ha, id, -, hm, -⟩ | ⟨-, -, id, ids, hids, he⟩ | ⟨⟨-, -, hw⟩, -⟩
  · simp [(outside_eq_false_iff a).mpr (hin a ha)] at ho
  · simp [(maskableStop_eq_none_iff s a).mpr (hmask a ha)] at hm
  · rwa [hids]
  · exact absurd (List.flatMap_eq_nil_iff.mpr ((unwatched_iff i s).mp hw)) hhits

/-- Settles O46: the hits are collected over the fetch and the access table; without a hit no check reads DBP. -/
theorem dataBreakpointsAccumulate : Obligations.DataBreakpointsAccumulate := by
  refine ⟨watches_iff, fun i s hsuppress hin hmask hhits => ?_, fun i s hw => ?_⟩
  · rw [← watchIds_of_not_suppress hsuppress] at hhits ⊢
    exact ⟨_, exec_of_hits hin hmask hhits, stoppedWith_stop s _ _ _⟩
  · refine exec_apply (c := { watch := fun _ => [] }) (fun _ _ => rfl) (fun _ _ => rfl) fun a ha => ?_
    rw [(unwatched_iff i s).mp hw a ha]
    exact (watchIds_eq_nil_iff _ a).mpr (.inr nofun)

end Sys2Proof.Proofs
end

section
/-! SUPPORT. The cycle's first checks, resuming, and the run states (spec/60_exceptions.md R209, R218, R232, R239,
R240). -/

namespace Sys2Proof.Proofs

open Sys2Proof Sys2Proof.Machine

/-! ### Steps 1 to 3 of the cycle (R209, R210) -/

theorem cycle_of_pauseReq {s : State} (h : s.pauseReq = true) :
    cycle s = .next ({ s with pauseReq := false }.stop .paused .pause []) :=
  if_pos h

theorem cycle_of_fetchBound {s : State} (hp : s.pauseReq = false) (hl : s.codeLimit ≤ s.pc.toNat) :
    cycle s = .next (s.takeFatal .executeOutsideSegment s.pc) := by
  simp [cycle, hp, hl]

theorem cycle_of_instrBp {s : State} (hp : s.pauseReq = false) (hl : s.pc.toNat < s.codeLimit)
    (hs : s.suppress = false) (hids : instrBpIds s ≠ []) :
    cycle s = .next (s.stop .paused .breakpoint (instrBpIds s)) := by
  simp [cycle, hp, hl, hs, hids]

/-- Settles O42: the pause request is the first check of the cycle. -/
theorem pauseRequestComesFirst : Obligations.PauseRequestComesFirst :=
  fun s ht hp => ⟨_, (step_of_takesCycle ht).trans (cycle_of_pauseReq hp), rfl,
    stoppedWith_stop { s with pauseReq := false } .paused .pause []⟩

/-- Settles O43: the bound is checked before the breakpoints and the fetch. -/
theorem fetchOutsideSegmentIsFatal : Obligations.FetchOutsideSegmentIsFatal :=
  fun s ht hp hl => ⟨_, (step_of_takesCycle ht).trans (cycle_of_fetchBound hp hl),
    haltedBy_takeFatal s .executeOutsideSegment s.pc⟩

/-- Settles O44: an entry at `pc` makes the list of ids non-empty, and the cycle stops with it. -/
theorem instructionBreakpointPauses : Obligations.InstructionBreakpointPauses := by
  rintro s ht hp hl hs ⟨e, he, haddr⟩
  have hids : instrBpIds s ≠ [] := fun hnil => (instrBpIds_eq_nil_iff s).mp hnil e he haddr
  exact ⟨_, (step_of_takesCycle ht).trans (cycle_of_instrBp hp hl hs hids), stoppedWith_stop s _ _ _⟩

/-! ### A core that is not running (R209, R239, R254) -/

theorem coreTurn_of_not_running {s : State} (h : s.runState ≠ .running) : coreTurn s = .next s :=
  if_neg h

theorem step_of_no_plan {s : State} (h : s.hostQ = []) : step s = coreTurn s := by
  simp [step, turn, h]

/-- Settles O50: an empty plan leaves the turn to the core, which takes none. -/
theorem idleCoreWaits : Obligations.IdleCoreWaits :=
  fun _ hr hq => (step_of_no_plan hq).trans (coreTurn_of_not_running hr)

/-- The next operation of a core that is not running lands. -/
theorem step_of_op {s : State} {o : HostOp} {rest : List HostEvent} (hr : s.runState ≠ .running)
    (hq : s.hostQ = .op o :: rest) : step s = applyHostOp o { s with hostQ := rest } := by
  simp [step, turn, hq, hr]

/-! ### `continue` and `step` (R218, R232, R255) -/

theorem readyOrPaused_iff (s : State) : s.readyOrPaused = true ↔ s.runState = .ready ∨ s.runState = .paused := by
  simp [State.readyOrPaused]

theorem armsSuppress_eq (r : StopReason) : r.armsSuppress =
    decide (r = .breakpoint ∨ r = .dataBreakpoint ∨ r = .exception ∨ r = .step) := by
  cases r <;> rfl

/-- The state a resume of `s` with this step mode and filter gives, with the host's plan one operation shorter. -/
def resumed (s : State) (rest : List HostEvent) (mode : Bool) (filter : Option Mnemonic) : State :=
  { s with hostQ := rest, stepMode := mode, stepFilter := filter }.resume

/-- An operation whose effect is a resume gives the resumed state on a ready or paused core that may run. -/
theorem step_of_resumes {s u : State} {o : HostOp} {rest : List HostEvent}
    (hr : s.runState = .ready ∨ s.runState = .paused) (hj : u.rejected = false) (hq : s.hostQ = .op o :: rest)
    (ho : applyHostOp o { s with hostQ := rest } =
      whenReadyOrPaused { s with hostQ := rest } (resumeUnlessRejected u)) : step s = .next u.resume := by
  have hnot : s.runState ≠ .running := by rcases hr with h | h <;> simp [h]
  calc step s = applyHostOp o { s with hostQ := rest } := step_of_op hnot hq
    _ = whenReadyOrPaused { s with hostQ := rest } (resumeUnlessRejected u) := ho
    _ = resumeUnlessRejected u := if_pos ((readyOrPaused_iff s).mpr hr)
    _ = .next u.resume := if_neg (by simp [hj])

theorem step_of_continue {s : State} {rest : List HostEvent} (hr : s.runState = .ready ∨ s.runState = .paused)
    (hj : s.rejected = false) (hq : s.hostQ = .op .continue :: rest) :
    step s = .next (resumed s rest false s.stepFilter) :=
  step_of_resumes hr hj hq rfl

theorem step_of_step {s : State} {rest : List HostEvent} {filter : Option Mnemonic}
    (hr : s.runState = .ready ∨ s.runState = .paused) (hj : s.rejected = false)
    (hq : s.hostQ = .op (.step filter) :: rest) : step s = .next (resumed s rest true filter) :=
  step_of_resumes hr hj hq rfl

/-- Settles O53: both operations set the step mode and resume. -/
theorem continueAndStepResume : Obligations.ContinueAndStepResume := by
  intro s rest hr hj
  rw [← armsSuppress_eq]
  exact ⟨fun hq => step_of_continue hr hj hq, fun filter hq => step_of_step hr hj hq⟩

/-- Both ways to resume, in one statement. -/
theorem step_of_resume {s : State} {o : HostOp} {rest : List HostEvent}
    (hr : s.runState = .ready ∨ s.runState = .paused) (hj : s.rejected = false) (hq : s.hostQ = .op o :: rest)
    (ho : o = .continue ∨ ∃ filter, o = .step filter) :
    ∃ mode filter, step s = .next (resumed s rest mode filter) := by
  rcases ho with rfl | ⟨filter, rfl⟩
  · exact ⟨_, _, step_of_continue hr hj hq⟩
  · exact ⟨_, _, step_of_step hr hj hq⟩

/-- SUPPRESS lets through everything but an access outside memory (R212, R232). -/
theorem undisturbed_of_suppress {i : Instr} {s : State} (hin : InsideMemory i s) (hs : s.suppress = true) :
    Undisturbed i s :=
  ⟨hin, fun _ _ _ _ => .inr (.inl hs), .inl hs⟩

theorem landsWhileRunning_eq_false {o : HostOp} (h : o ≠ .pause) : o.landsWhileRunning = false := by
  cases o with
  | pause => exact absurd rfl h
  | _ => rfl

/-- Settles O47: the resume sets SUPPRESS, and the cycle that follows passes every check of the same instruction. -/
theorem resumeRunsStoppedInstruction : Obligations.ResumeRunsStoppedInstruction := by
  intro s o rest w i ho hq hr hj hp hreason hl hm hd hin
  obtain ⟨mode, filter, hstep⟩ := step_of_resume (.inr hr) hj hq ho
  have hs : (resumed s rest mode filter).suppress = true := by
    have harms : s.stopReason.armsSuppress = true := by simpa [armsSuppress_eq] using hreason
    simp [resumed, harms]
  have hu : ∀ t, SameRegs s t → t.suppress = true → Undisturbed i t :=
    fun t hregs => undisturbed_of_suppress (insideMemory_of_sameRegs hregs hin)
  have hf : ReachesFetch (resumed s rest mode filter) := ⟨hp, hl, .inl hs⟩
  refine ⟨resumed s rest mode filter, hstep, hs, fun _ => rfl, ⟨fun _ => rfl, rfl⟩, rfl, rfl, hu _ (fun _ => rfl) hs,
    fun hrest => ?_, fun later hlater => ⟨?_, hu _ (fun _ => rfl) hs⟩⟩
  · refine stepRunsDecodedInstruction.1 _ w i ⟨rfl, hj, ?_⟩ hf hm hd
    exact hrest.imp_right fun ⟨p, later, hlater, hne⟩ => ⟨p, later, hlater, landsWhileRunning_eq_false hne⟩
  · exact stepRunsDecodedInstruction.2 _ later w i hlater rfl hj hf hm hd

/-! ### The run states of a step (R240) -/

/-- The end of a cycle keeps the run state or, in step mode, pauses with reason `step` (R235). -/
theorem retire_runState_cases (s : State) (m : Mnemonic) (target : Word) :
    (s.retire m target).runState = s.runState ∨
      ((s.retire m target).runState = .paused ∧ (s.retire m target).stopReason = .step ∧ s.stepMode = true) := by
  cases h : s.stepStops m
  · exact .inl (by simp [h])
  · exact .inr ⟨by simp [h], by simp [h], ((stepStops_iff s m).mp h).1⟩

/-- The answer to a `read` lets the core run on, pauses it in step mode, or ends the program (R192, R193, R235). -/
theorem answerRead_runState (s : State) (x : Reg) (answer : InputAnswer) :
    (answerRead s x answer).runState = .running ∨ (answerRead s x answer).runState = .halted ∨
      ((answerRead s x answer).runState = .paused ∧ (answerRead s x answer).stopReason = .step ∧
        s.stepMode = true) := by
  cases answer with
  | integer v => exact (retire_runState_cases _ .read s.nextPc).imp_right .inr
  | endOfInput => exact .inr (.inl rfl)

/-! A cycle never enters Ready, so a running core can go to every other run state only. -/

theorem retire_ne_ready {s : State} (h : s.runState ≠ .ready) (m : Mnemonic) (target : Word) :
    (s.retire m target).runState ≠ .ready := by
  rcases retire_runState_cases s m target with hr | ⟨hr, -⟩
  · rwa [hr]
  · rw [hr]
    exact nofun

theorem answerRead_ne_ready (s : State) (x : Reg) (answer : InputAnswer) :
    (answerRead s x answer).runState ≠ .ready := by
  rcases answerRead_runState s x answer with h | h | ⟨h, -⟩ <;> simp [h]

theorem Writes.runState_eq {as : List Access} {s u : State} (h : Writes as s u) : u.runState = s.runState := by
  rw [h.frame]

theorem ExecResult.ne_ready {i : Instr} {s t : State} (h : ExecResult i s t) (hr : s.runState ≠ .ready) :
    t.runState ≠ .ready := by
  cases h with
  | fatal | halted | maskable | watched | waiting => exact nofun
  | answered x _ answer => exact answerRead_ne_ready _ x answer
  | emitted v target => exact retire_ne_ready (s := s.emit (.value v)) hr .write target
  | retired hw m target => exact retire_ne_ready (hw.runState_eq ▸ hr) m target

theorem CycleResult.ne_ready {s t : State} (h : CycleResult s t) (hr : s.runState ≠ .ready) : t.runState ≠ .ready := by
  cases h with
  | pause | breakpoint | fetchWatched | fetchBound | undecoded => exact nofun
  | executed h => exact h.ne_ready hr

/-- The core's turn changes the run state of a running core only. -/
theorem coreTurn_runState {s t : State} (h : coreTurn s = .next t) :
    t.runState = s.runState ∨ (s.runState = .running ∧
      (t.runState = .paused ∨ t.runState = .halted ∨ ∃ x, t.runState = .awaitingInput x)) := by
  rcases coreTurn_next h with rfl | ⟨hr, hc⟩
  · exact .inl rfl
  · have hnot : t.runState ≠ .ready := hc.ne_ready (by simp [hr])
    cases ht : t.runState with
    | ready => exact absurd ht hnot
    | running => exact .inl hr.symm
    | paused => exact .inr ⟨hr, .inl rfl⟩
    | halted => exact .inr ⟨hr, .inr (.inl rfl)⟩
    | awaitingInput x => exact .inr ⟨hr, .inr (.inr ⟨x, rfl⟩)⟩

/-- `continue`, `step` and `goto`, which R255 allows in Ready and Paused only. -/
def ReadyOrPausedOnly (o : HostOp) : Prop :=
  o = .continue ∨ (∃ filter, o = .step filter) ∨ ∃ address, o = .goto address

theorem readyOrPaused_of_whenReadyOrPaused {s t : State} {k : Host.Outcome State Fault Refusal}
    (h : whenReadyOrPaused s k = .next t) : s.runState = .ready ∨ s.runState = .paused := by
  by_contra hn
  cases (if_neg (mt (readyOrPaused_iff s).mp hn)).symm.trans h

theorem readyOrPaused_of_next {o : HostOp} {s t : State} (h : applyHostOp o s = .next t) (ho : ReadyOrPausedOnly o) :
    s.runState = .ready ∨ s.runState = .paused := by
  rcases ho with rfl | ⟨filter, rfl⟩ | ⟨address, rfl⟩
  all_goals exact readyOrPaused_of_whenReadyOrPaused h

theorem configure_runState (s : State) (mode : ConfigMode) (source : List Char) (launch : Launch) :
    (s.configure mode source launch).runState = s.runState ∨
      (s.configure mode source launch).runState = .ready := by
  unfold State.configure
  split
  · exact .inr rfl
  · exact .inl rfl

/-- What a host operation does to the run state (R240, R255). -/
theorem applyHostOp_runState {o : HostOp} {s t : State} (h : applyHostOp o s = .next t) :
    t.runState = s.runState ∨
      (t.runState = .ready ∧ ∃ mode source launch, o = .configure mode source launch) ∨
      (s.runState = .ready ∧ (t.runState = .running ∨ t.runState = .paused)) ∨
      ((∃ x, s.runState = .awaitingInput x) ∧
        (t.runState = .running ∨ t.runState = .halted ∨
          (t.runState = .paused ∧ t.stopReason = .step ∧ s.stepMode = true))) ∨
      (s.runState = .paused ∧ t.runState = .running) := by
  have hfrom := readyOrPaused_of_next h
  cases applyHostOp_next h with
  | configured mode source launch =>
    exact (configure_runState s mode source launch).imp_right fun hr => .inl ⟨hr, mode, source, launch, rfl⟩
  | continued =>
    rcases hfrom (.inl rfl) with hr | hr
    · exact .inr (.inr (.inl ⟨hr, .inl rfl⟩))
    · exact .inr (.inr (.inr (.inr ⟨hr, rfl⟩)))
  | stepped filter =>
    rcases hfrom (.inr (.inl ⟨filter, rfl⟩)) with hr | hr
    · exact .inr (.inr (.inl ⟨hr, .inl rfl⟩))
    · exact .inr (.inr (.inr (.inr ⟨hr, rfl⟩)))
  | moved address =>
    rcases hfrom (.inr (.inr ⟨address, rfl⟩)) with hr | hr
    · exact .inr (.inr (.inl ⟨hr, .inr rfl⟩))
    · exact .inl hr.symm
  | answered hx answer => exact .inr (.inr (.inr (.inl ⟨⟨_, hx⟩, answerRead_runState s _ answer⟩)))
  | set => exact .inl rfl

/-- Settles O48: the core's turn moves a running core, a host operation the others. -/
theorem runStateTransitions : Obligations.RunStateTransitions := by
  intro s t h
  rcases step_cases s with ⟨hs, -⟩ | ⟨rest, -, hs⟩ | ⟨o, rest, hq, hlands, hs⟩
  · exact (coreTurn_runState (hs.symm.trans h)).imp_right fun hc => .inr (.inr (.inl hc))
  · exact (coreTurn_runState (hs.symm.trans h)).imp_right fun hc => .inr (.inr (.inl hc))
  · rcases applyHostOp_runState (hs.symm.trans h) with
      hsame | ⟨ht, mode, source, launch, rfl⟩ | hready | hawait | hpaused
    · exact .inl hsame
    · exact .inr (.inl ⟨ht, fun hr => Bool.noConfusion (hlands hr), mode, source, launch, rest, hq⟩)
    · exact .inr (.inr (.inl hready))
    · exact .inr (.inr (.inr (.inr (.inl hawait))))
    · exact .inr (.inr (.inr (.inr (.inr hpaused))))

/-- Of the host operations on a halted core only `configure` changes more than the host's own settings (R240, R255). -/
theorem applyHostOp_of_halted {o : HostOp} {s t : State} (h : applyHostOp o s = .next t) (hr : s.runState = .halted)
    (ho : ∀ mode source launch, o ≠ .configure mode source launch) :
    ∃ pauseReq ibp dbp excEn, t = { s with pauseReq := pauseReq, ibp := ibp, dbp := dbp, excEn := excEn } := by
  have hnot : ¬ ReadyOrPausedOnly o := fun hop => by simpa [hr] using readyOrPaused_of_next h hop
  cases applyHostOp_next h with
  | configured mode source launch => exact absurd rfl (ho mode source launch)
  | continued => exact absurd (.inl rfl) hnot
  | stepped filter => exact absurd (.inr (.inl ⟨filter, rfl⟩)) hnot
  | moved address => exact absurd (.inr (.inr ⟨address, rfl⟩)) hnot
  | answered hx => cases hr.symm.trans hx
  | set => exact ⟨_, _, _, _, rfl⟩

/-- Until a `configure`, a step of a halted core changes nothing but the host's plan and settings. -/
theorem step_of_halted {s t : State} (hr : s.runState = .halted) (h : step s = .next t)
    (hcfg : ∀ mode source launch rest, s.hostQ ≠ .op (.configure mode source launch) :: rest) :
    ∃ q pauseReq ibp dbp excEn,
      t = { s with hostQ := q, pauseReq := pauseReq, ibp := ibp, dbp := dbp, excEn := excEn } := by
  have hnot : s.runState ≠ .running := by simp [hr]
  rcases step_cases s with ⟨hs, -⟩ | ⟨rest, -, hs⟩ | ⟨o, rest, hq, -, hs⟩
  · cases (hs.trans (coreTurn_of_not_running hnot)).symm.trans h
    exact ⟨_, _, _, _, _, rfl⟩
  · cases (hs.trans (coreTurn_of_not_running (s := { s with hostQ := rest }) hnot)).symm.trans h
    exact ⟨_, _, _, _, _, rfl⟩
  · obtain ⟨_, _, _, _, rfl⟩ := applyHostOp_of_halted (hs.symm.trans h) hr fun mode source launch e =>
      hcfg mode source launch rest (e ▸ hq)
    exact ⟨_, _, _, _, _, rfl⟩

/-- Settles O49: what is claimed is no part of the host's plan and settings. -/
theorem haltedIsTerminal : Obligations.HaltedIsTerminal := by
  intro s t hr h hcfg
  obtain ⟨_, _, _, _, _, rfl⟩ := step_of_halted hr h hcfg
  exact ⟨hr, fun _ => rfl, ⟨fun _ => rfl, rfl⟩, rfl, rfl, rfl, rfl, rfl⟩

end Sys2Proof.Proofs
end

section
/-! SUPPORT. The statements of spec/70_reset_and_hazards.md: what `configure` loads and resets, where the host's operations
land, and what a step is refused for (R250 to R255). -/

namespace Sys2Proof.Proofs

open Sys2Proof Sys2Proof.Machine

/-! ### What a `configure` loads (R250 to R252) -/

theorem configure_of_ok {mode : ConfigMode} {source : List Char} {words : List Word}
    (h : programOf mode source = .ok words) (s : State) (launch : Launch) :
    s.configure mode source launch = { bootState words launch with hostQ := s.hostQ } := by
  simp only [State.configure, h]

theorem configure_of_error {mode : ConfigMode} {source : List Char} {e : AsmError}
    (h : programOf mode source = .error e) (s : State) (launch : Launch) :
    s.configure mode source launch = { s with rejected := true } := by
  simp only [State.configure, h]

theorem memGet_bootMemory (words : List Word) (initMem : Memory) {a : Nat} (ha : a ≤ 255) :
    memGet (bootMemory words initMem) a = if a < words.length then words.getD a 0 else memGet initMem a := by
  have hlt : a < Config.memWords := Nat.lt_succ_of_le ha
  rw [bootMemory, memGet_memTabulate _ _ le_rfl [] rfl, if_pos hlt]

/-- Every memory word after a `configure`, the host's plan being no part of memory (R251). -/
theorem memRead_bootState (words : List Word) (launch : Launch) (q : List HostEvent) {a : Nat} (ha : a ≤ 255) :
    State.memRead { bootState words launch with hostQ := q } (a : Int) =
      some (if a < words.length then words.getD a 0 else memGet launch.initMem a) := by
  rw [memRead_eq_some_iff, Int.toNat_natCast]
  refine ⟨by omega, ?_⟩
  simp only [bootState, memGet_bootMemory words launch.initMem ha]

theorem bootRegs_succ (initRegs : Vector Word 15) (k : Fin 15) :
    (bootRegs initRegs)[k.val + 1] = initRegs[k.val] :=
  Vector.getElem_append_right (xs := #v[(0 : Word)]) (by omega) (by omega)

/-- r1 to r15 after a `configure` (R25, R252). -/
theorem reg_bootState_succ (words : List Word) (launch : Launch) (q : List HostEvent) (k : Fin 15) :
    State.reg { bootState words launch with hostQ := q } k.succ = launch.initRegs[k.val] :=
  (reg_of_ne _ (Fin.succ_ne_zero k)).trans (bootRegs_succ launch.initRegs k)

/-! ### Where an operation lands (R254, R255) -/

/-- An operation behind `landWhere` lands where the two rules agree, and elsewhere as the free value says. -/
theorem lands_of_landWhere {s t : State} {o : HostOp} {rest : List HostEvent} {agreed : Bool} {p : Prop}
    (hr : s.runState ≠ .running) (hq : s.hostQ = .op o :: rest) (hp : agreed = true ↔ p)
    (ho : applyHostOp o { s with hostQ := rest } = landWhere { s with hostQ := rest } agreed (.next t)) :
    Lands p s t := by
  rw [Lands, step_of_op hr hq, ho]
  constructor
  · intro h
    rw [hp.mpr h]
    exact landWhere_agreed hr _
  · intro h
    rw [Bool.eq_false_iff.mpr (mt hp.mp h)]
    exact landWhere_open hr _

/-- The breakpoint and get operations. -/
theorem lands_of_whenNotRunning {s t : State} {o : HostOp} {rest : List HostEvent} (hr : s.runState ≠ .running)
    (hq : s.hostQ = .op o :: rest)
    (ho : applyHostOp o { s with hostQ := rest } = whenNotRunning { s with hostQ := rest } (.next t)) :
    Lands (s.runState = .ready ∨ s.runState = .paused) s t :=
  lands_of_landWhere hr hq (readyOrPaused_iff s) ho

/-- The run states in which R254 and R255 agree on `configure`. -/
theorem configurable_iff {s : State} (hr : s.runState ≠ .running) :
    (s.readyOrPaused || decide (s.runState = .halted)) = true ↔ ∀ x, s.runState ≠ .awaitingInput x := by
  rw [Bool.or_eq_true, readyOrPaused_iff, decide_eq_true_iff]
  cases h : s.runState with
  | running => exact absurd h hr
  | ready | paused | halted | awaitingInput x => simp

theorem lands_of_configure {s : State} {mode : ConfigMode} {source : List Char} {launch : Launch}
    {rest : List HostEvent} (hr : s.runState ≠ .running) (hq : s.hostQ = .op (.configure mode source launch) :: rest) :
    Lands (∀ x, s.runState ≠ .awaitingInput x) s (State.configure { s with hostQ := rest } mode source launch) :=
  lands_of_landWhere hr hq (configurable_iff hr) rfl

/-- `continue`, `step` and `goto` land on a ready or paused core. -/
theorem step_of_whenReadyOrPaused {s : State} {o : HostOp} {rest : List HostEvent}
    {k : Host.Outcome State Fault Refusal} (hr : s.runState = .ready ∨ s.runState = .paused)
    (hq : s.hostQ = .op o :: rest)
    (ho : applyHostOp o { s with hostQ := rest } = whenReadyOrPaused { s with hostQ := rest } k) : step s = k := by
  have hnot : s.runState ≠ .running := by rcases hr with h | h <;> simp [h]
  calc step s = applyHostOp o { s with hostQ := rest } := step_of_op hnot hq
    _ = whenReadyOrPaused { s with hostQ := rest } k := ho
    _ = k := if_pos ((readyOrPaused_iff s).mpr hr)

/-- Settles O51: the landing gives the boot state, whose fields are those of reset but for what was loaded. -/
theorem configureLoadsAndResets : Obligations.ConfigureLoadsAndResets := by
  intro s mode source launch rest words hr hq hw
  have hlen : words.length ≤ 256 := length_of_programOf hw
  have hlands := lands_of_configure hr hq
  rw [configure_of_ok hw] at hlands
  refine ⟨_, hlands, hlen, rfl, fun a w ha => ?_, fun a hlow hhigh => ?_, reg_zero _,
    reg_bootState_succ words launch rest, rfl, rfl, rfl, rfl, rfl, rfl, rfl, rfl, rfl, rfl, rfl, rfl, rfl, rfl, rfl,
    rfl, rfl⟩
  · have halt : a < words.length := (List.getElem?_eq_some_iff.mp ha).1
    rw [memRead_bootState words launch rest (by omega), if_pos halt, List.getD_eq_getElem?_getD, ha, Option.getD_some]
  · rw [memRead_bootState words launch rest hhigh, if_neg (Nat.not_lt.mpr hlow)]

/-! ### A core that must not run (R250, D15, I11) -/

theorem resumeUnlessRejected_of_rejected {s : State} (hj : s.rejected = true) :
    resumeUnlessRejected s = .refused .mustNotRun :=
  if_pos hj

theorem coreTurn_of_rejected {s : State} (hr : s.runState = .running) (hj : s.rejected = true) :
    coreTurn s = .refused .mustNotRun := by
  simp only [coreTurn, hr, hj, if_true]

theorem supplyAnswer_of_rejected {s : State} {x : Reg} (hx : s.runState = .awaitingInput x) (hj : s.rejected = true)
    (answer : InputAnswer) : supplyAnswer s answer = .refused .mustNotRun := by
  simp only [supplyAnswer, hx, hj, if_true]

/-- While the core is Running an operation other than `pause` waits: the turn is the core's (R254, D26). -/
theorem step_of_waiting_op {s : State} {o : HostOp} {rest : List HostEvent} (hr : s.runState = .running)
    (hq : s.hostQ = .op o :: rest) (ho : o ≠ .pause) : step s = coreTurn s := by
  simp only [step, turn, hq]
  exact if_pos ⟨hr, landsWhileRunning_eq_false ho⟩

/-- No resume of a marked core lands. -/
theorem step_of_resume_rejected {s : State} {o : HostOp} {rest : List HostEvent} (hj : s.rejected = true)
    (hr : s.runState = .ready ∨ s.runState = .paused) (hq : s.hostQ = .op o :: rest)
    (ho : o = .continue ∨ ∃ filter, o = .step filter) : step s = .refused .mustNotRun := by
  rcases ho with rfl | ⟨filter, rfl⟩
  all_goals exact (step_of_whenReadyOrPaused hr hq rfl).trans (resumeUnlessRejected_of_rejected hj)

/-- Settles O52: the mark refuses the resume, the core's turn and the end of a `read`. -/
theorem rejectedConfigureMustNotRun : Obligations.RejectedConfigureMustNotRun := by
  refine ⟨fun s mode source launch rest e hr hq he => ?_, fun s rest hj => ⟨fun hr hq => ?_, fun hr hq => ?_,
    fun x a hx hq => ?_⟩, fun _ _ _ => length_of_programOf⟩
  · have hlands := lands_of_configure hr hq
    rwa [configure_of_error he] at hlands
  · rcases hq with hq | ⟨filter, hq⟩
    · exact step_of_resume_rejected hj hr hq (.inl rfl)
    · exact step_of_resume_rejected hj hr hq (.inr ⟨filter, rfl⟩)
  · have hturn : ∀ q, coreTurn { s with hostQ := q } = .refused .mustNotRun := fun _ => coreTurn_of_rejected hr hj
    rcases hq with hq | hq | ⟨o, ho, hq⟩
    · exact (step_of_no_plan hq).trans (hturn s.hostQ)
    · exact (step_of_tick hq).trans (hturn rest)
    · exact (step_of_waiting_op hr hq ho).trans (hturn s.hostQ)
  · have hnot : s.runState ≠ .running := by simp [hx]
    exact (step_of_op hnot hq).trans (supplyAnswer_of_rejected (s := { s with hostQ := rest }) hx hj a)

/-! ### The other rows of R255 -/

theorem mem_addEntry {α : Type} [DecidableEq α] (entries : List α) (e b : α) :
    b ∈ addEntry entries e ↔ b = e ∨ b ∈ entries := by
  unfold addEntry
  split
  case isTrue he => exact ⟨.inr, fun h => h.elim (fun hb => hb ▸ he) id⟩
  case isFalse => rw [List.mem_append, List.mem_singleton, or_comm]

/-- `pause` lands in every run state (R219, R254). -/
theorem step_of_pause {s : State} {rest : List HostEvent} (hq : s.hostQ = .op .pause :: rest) :
    step s = .next { s with hostQ := rest, pauseReq := true } := by
  simp only [step, turn, hq]
  exact if_neg fun ⟨_, hlands⟩ => Bool.noConfusion hlands

theorem step_of_goto {s : State} {address : Word} {rest : List HostEvent}
    (hr : s.runState = .ready ∨ s.runState = .paused) (hq : s.hostQ = .op (.goto address) :: rest) :
    step s = .next (State.goto { s with hostQ := rest } address) :=
  step_of_whenReadyOrPaused hr hq rfl

/-- Settles O54: `pause` and `goto` by their steps, the other operations by where they land. -/
theorem hostOperationRows : Obligations.HostOperationRows := by
  refine fun s rest => ⟨step_of_pause, fun _ => step_of_goto, fun hr => ⟨
    fun e hq => ⟨_, mem_addEntry s.ibp e, ?_⟩, fun hq => ?_, fun e hq => ⟨_, mem_addEntry s.dbp e, ?_⟩, fun hq => ?_,
    fun e hq => ?_, fun hq => ?_, fun hq => ?_⟩⟩
  all_goals exact lands_of_whenNotRunning hr hq rfl

/-! ### Operations outside their run states (R254, R255) -/

theorem applyHostOp_of_not_readyOrPaused {o : HostOp} {s : State} (ho : ReadyOrPausedOnly o)
    (hr : ¬ (s.runState = .ready ∨ s.runState = .paused)) : applyHostOp o s = .refused .hostOpNotAllowed := by
  have hnot : ¬ s.readyOrPaused = true := mt (readyOrPaused_iff s).mp hr
  rcases ho with rfl | ⟨filter, rfl⟩ | ⟨address, rfl⟩
  all_goals exact if_neg hnot

theorem supplyAnswer_of_not_awaiting {s : State} (hr : ∀ x, s.runState ≠ .awaitingInput x) (answer : InputAnswer) :
    supplyAnswer s answer = .refused .hostOpNotAllowed := by
  rcases supplyAnswer_cases s answer with ⟨x, hx, -⟩ | ⟨x, hx, -⟩ | ⟨-, ha⟩
  · exact absurd hx (hr x)
  · exact absurd hx (hr x)
  · exact ha

/-- Settles O55: the operation lands and is refused by its guard, or waits while the core takes its cycle. -/
theorem hostOperationOutsideItsStates : Obligations.HostOperationOutsideItsStates := by
  refine fun s o rest hq => ⟨fun hr ho => ?_, fun hr ho => ?_, fun hr hj ho => ?_⟩
  · have hnot : s.runState ≠ .running := by rcases hr with h | ⟨x, h⟩ <;> simp [h]
    have hother : ¬ (s.runState = .ready ∨ s.runState = .paused) := by rcases hr with h | ⟨x, h⟩ <;> simp [h]
    exact (step_of_op hnot hq).trans (applyHostOp_of_not_readyOrPaused ho hother)
  · obtain ⟨answer, rfl⟩ := ho
    have hnot : s.runState ≠ .running := by rcases hr with h | h | h <;> simp [h]
    have hother : ∀ x, s.runState ≠ .awaitingInput x := by rcases hr with h | h | h <;> simp [h]
    exact (step_of_op hnot hq).trans (supplyAnswer_of_not_awaiting (s := { s with hostQ := rest }) hother answer)
  · exact (step_of_waiting_op hr hq ho).trans (coreTurn_of_running hr hj)

/-! ### What a step is refused for -/

/-- A word that does not decode is no tie, so the verdict on it is a next state (R87, R88, R201). -/
theorem undecoded_completes {s : State} {w : Word} {e : DecodeError} (h : decode w = .error e) :
    ∃ t, undecoded s w e = .next t := by
  obtain ⟨rfl, -⟩ := (decode_error_iff w e).mp h
  unfold undecoded
  split <;> exact ⟨_, rfl⟩

/-- No instruction and no fetched word is refused. -/
theorem fetchAndExec_ne_refused (s : State) (r : Refusal) : fetchAndExec s ≠ .refused r := by
  rcases fetchAndExec_cases s with ⟨-, hf⟩ | ⟨w, -, ⟨i, -, hf⟩ | ⟨e, he, hf⟩⟩
  · exact hf ▸ nofun
  · obtain ⟨t, ht⟩ := exec_completes i s
    exact (hf.trans ht) ▸ nofun
  · obtain ⟨t, ht⟩ := undecoded_completes (s := s) he
    exact (hf.trans ht) ▸ nofun

theorem cycle_ne_refused (s : State) (r : Refusal) : cycle s ≠ .refused r := by
  rcases cycle_cases s with ⟨-, hc⟩ | ⟨-, -, hc⟩ | ⟨-, -, -, -, hc⟩ | ⟨-, -, -, hc⟩
  · exact hc ▸ nofun
  · exact hc ▸ nofun
  · exact hc ▸ nofun
  · exact hc ▸ fetchAndExec_ne_refused s r

theorem coreTurn_refused {s : State} {r : Refusal} (h : coreTurn s = .refused r) :
    r = .mustNotRun ∧ s.rejected = true := by
  rcases coreTurn_cases s with ⟨-, -, hc⟩ | ⟨-, hj, hc⟩ | ⟨-, hc⟩
  · exact absurd (hc.symm.trans h) (cycle_ne_refused s r)
  · cases hc.symm.trans h
    exact ⟨rfl, hj⟩
  · cases hc.symm.trans h

theorem whenReadyOrPaused_refused {s : State} {k : Host.Outcome State Fault Refusal} {r : Refusal}
    (h : whenReadyOrPaused s k = .refused r) : r = .hostOpNotAllowed ∨ k = .refused r := by
  unfold whenReadyOrPaused at h
  split at h
  · exact .inr h
  · cases h
    exact .inl rfl

theorem landWhere_refused {s t : State} {agreed : Bool} {r : Refusal} (h : landWhere s agreed (.next t) = .refused r) :
    r = .hostOpNotAllowed := by
  rcases landWhere_cases s agreed (.next t) with hl | ⟨-, hl⟩
  · cases hl.symm.trans h
    rfl
  · cases hl.symm.trans h

theorem resumeUnlessRejected_refused {s : State} {r : Refusal} (h : resumeUnlessRejected s = .refused r) :
    r = .mustNotRun ∧ s.rejected = true := by
  unfold resumeUnlessRejected at h
  split at h
  case isTrue hj =>
    cases h
    exact ⟨rfl, hj⟩
  case isFalse => cases h

theorem supplyAnswer_refused {s : State} {answer : InputAnswer} {r : Refusal}
    (h : supplyAnswer s answer = .refused r) : r = .hostOpNotAllowed ∨ (r = .mustNotRun ∧ s.rejected = true) := by
  rcases supplyAnswer_cases s answer with ⟨_, -, -, ha⟩ | ⟨_, -, hj, ha⟩ | ⟨-, ha⟩
  · cases ha.symm.trans h
  · cases ha.symm.trans h
    exact .inr ⟨rfl, hj⟩
  · cases ha.symm.trans h
    exact .inl rfl

/-- A host operation is refused outside its run states or because the core must not run (R250, R254, R255). -/
theorem applyHostOp_refused {o : HostOp} {s : State} {r : Refusal} (h : applyHostOp o s = .refused r) :
    r = .hostOpNotAllowed ∨ (r = .mustNotRun ∧ s.rejected = true) := by
  match o, h with
  | .continue, h | .step _, h =>
    rcases whenReadyOrPaused_refused h with hr | hk
    · exact .inl hr
    · obtain ⟨hr, hj⟩ := resumeUnlessRejected_refused hk
      exact .inr ⟨hr, hj⟩
  | .goto _, h => exact (whenReadyOrPaused_refused h).imp_right nofun
  | .supply _, h => exact supplyAnswer_refused h
  | .pause, h => cases h
  | .configure _ _ _, h | .setInstrBp _, h | .clearInstrBps, h | .setDataBp _, h | .clearDataBps, h | .setExcBps _, h
  | .getState, h | .getLastException, h => exact .inl (landWhere_refused h)

/-- Settles O59: the core's turn is refused for the mark only, a host operation for its run states or the mark. -/
theorem refusalsComeFromTheHost : Obligations.RefusalsComeFromTheHost := by
  intro s r h
  rcases step_cases s with ⟨hs, -⟩ | ⟨rest, -, hs⟩ | ⟨o, rest, hq, -, hs⟩
  · exact .inr (coreTurn_refused (hs.symm.trans h))
  · exact .inr (coreTurn_refused (s := { s with hostQ := rest }) (hs.symm.trans h))
  · exact (applyHostOp_refused (s := { s with hostQ := rest }) (hs.symm.trans h)).imp_left
      fun hr => ⟨hr, o, rest, hq⟩

end Sys2Proof.Proofs
end
